-- ==== Sys2Proof/Word.lean ====
section
/-! DEFINITION. The word types of the block and its plainest arithmetic (00_scope.md rules R11, R12; 10_state.md rule R21). -/

namespace Sys2Proof

/-- A register field of a command word: the index of an operand register `W0..W15` (R92). -/
abbrev Reg := BitVec 4

/-- A 64-bit word of the host's data path, and one limb of a wide register (R9, R12). -/
abbrev Word64 := BitVec 64

/-- A path entry (R25). -/
abbrev Word256 := BitVec 256

/-- The content of an operand register (R21). -/
abbrev Word512 := BitVec 512

/-- `cdiv(a, b)`: the quotient of naturals rounded up, for `b > 0` (R11). -/
def cdiv (a b : Nat) : Nat := (a + b - 1) / b

end Sys2Proof
end

