-- ==== Sys2Proof/Syntax.lean ====
section
/-! DEFINITION. The commands of the block, one constructor for each row of spec/opcode_table.json (30_encoding.md rule
R100). Register arguments stand in the field order RD, RS1, RS2, RS3 (R105); a Boolean argument is the mode bit of its
name (R94). -/

namespace Sys2Proof

inductive Instr where
  /-- NOP (R130) -/
  | nop
  /-- ADD.128, ADD.256, ADD.512 (R141) -/
  | add128 (rd rs1 rs2 : Reg)
  | add256 (rd rs1 rs2 : Reg)
  | add512 (rd rs1 rs2 : Reg)
  /-- SUB.128, SUB.256, SUB.512, each with the mode bit UF (R143) -/
  | sub128 (rd rs1 rs2 : Reg) (uf : Bool)
  | sub256 (rd rs1 rs2 : Reg) (uf : Bool)
  | sub512 (rd rs1 rs2 : Reg) (uf : Bool)
  /-- MUL.128, MUL.256 (R145) -/
  | mul128 (rd rs1 rs2 : Reg)
  | mul256 (rd rs1 rs2 : Reg)
  /-- DIVF (R147) -/
  | divf (rd rs1 rs2 rs3 : Reg)
  /-- DIVC (R149) -/
  | divc (rd rs1 rs2 rs3 : Reg)
  /-- MULDIV (R151) -/
  | muldiv (rd rs1 rs2 rs3 : Reg) (rup : Bool)
  /-- T2P (R173) -/
  | t2p (rd rs1 : Reg)
  /-- P2T (R176) -/
  | p2t (rd rs1 : Reg)
  /-- TDEC (R178) -/
  | tdec (rd rs1 : Reg) (cur : Bool)
  /-- AMT0 (R201) -/
  | amt0 (rd rs1 rs2 rs3 : Reg) (rup : Bool)
  /-- AMT1 (R203) -/
  | amt1 (rd rs1 rs2 rs3 : Reg) (rup : Bool)
  /-- LADD (R205) -/
  | ladd (rd rs1 rs2 : Reg)
  /-- FGCHK with MONO = 0 (R207) -/
  | fgchk (rs1 : Reg)
  /-- FGCHK with MONO = 1 (R207) -/
  | fgchkMono (rs1 rs2 : Reg)
  /-- NXP0 (R231) -/
  | nxp0 (rd rs1 rs2 rs3 : Reg) (addf : Bool)
  /-- NXP1 (R233) -/
  | nxp1 (rd rs1 rs2 rs3 : Reg) (addf : Bool)
  /-- SWAPI (R240) -/
  | swapi (rd rs1 : Reg) (up : Bool)
  /-- SWAPO (R250) -/
  | swapo (rd rs1 : Reg) (up : Bool)
  /-- NTOK (R271) -/
  | ntok (rd rs1 : Reg)
  /-- NPOS (R274) -/
  | npos (rd rs1 : Reg)
  /-- INSERT for the trees T0, T1, TP (R300) -/
  | insertT0 (rd rs1 : Reg)
  | insertT1 (rd rs1 : Reg)
  | insertTP (rd rs1 : Reg)
  /-- KNOWN for the trees T0, T1, TP (R305) -/
  | knownT0 (rs1 : Reg)
  | knownT1 (rs1 : Reg)
  | knownTP (rs1 : Reg)
  /-- VERIFY for the trees T0, T1, TP (R310) -/
  | verifyT0 (rs1 rs2 rs3 : Reg)
  | verifyT1 (rs1 rs2 rs3 : Reg)
  | verifyTP (rs1 rs2 rs3 : Reg)
  /-- NULLIFY (R320) -/
  | nullify (rs1 : Reg)
  /-- FLUSH for the trees T0, T1, TP (R315) -/
  | flushT0
  | flushT1
  | flushTP
deriving DecidableEq, Repr

end Sys2Proof
end

