-- ==== Sys2Proof/WellFormed.lean ====
section
/-! DEFINITION. Which commands have an encoding that passes the decoder: every register and mode argument is in range by
its type, and only the register blocks of SWAPI, SWAPO, NTOK and NPOS can leave `W0..W15` (30_encoding.md rule R93). -/

namespace Sys2Proof

/-- A block of `n` consecutive registers from `base` on lies within `W0..W15` (R93). -/
def blockFits (base : Reg) (n : Nat) : Bool := base.toNat + n ≤ 16

/-- The command's register blocks lie within `W0..W15` (R93). -/
def Instr.wellFormed : Instr → Bool
  | .swapi rd rs1 _ => blockFits rs1 5 && blockFits rd 4
  | .swapo rd rs1 _ => blockFits rs1 5 && blockFits rd 4
  | .ntok rd rs1 => blockFits rs1 4 && blockFits rd 2
  | .npos rd rs1 => blockFits rs1 7 && blockFits rd 2
  | .nop => true
  | .add128 _ _ _ => true
  | .add256 _ _ _ => true
  | .add512 _ _ _ => true
  | .sub128 _ _ _ _ => true
  | .sub256 _ _ _ _ => true
  | .sub512 _ _ _ _ => true
  | .mul128 _ _ _ => true
  | .mul256 _ _ _ => true
  | .divf _ _ _ _ => true
  | .divc _ _ _ _ => true
  | .muldiv _ _ _ _ _ => true
  | .t2p _ _ => true
  | .p2t _ _ => true
  | .tdec _ _ _ => true
  | .amt0 _ _ _ _ _ => true
  | .amt1 _ _ _ _ _ => true
  | .ladd _ _ _ => true
  | .fgchk _ => true
  | .fgchkMono _ _ => true
  | .nxp0 _ _ _ _ _ => true
  | .nxp1 _ _ _ _ _ => true
  | .insertT0 _ _ => true
  | .insertT1 _ _ => true
  | .insertTP _ _ => true
  | .knownT0 _ => true
  | .knownT1 _ => true
  | .knownTP _ => true
  | .verifyT0 _ _ _ => true
  | .verifyT1 _ _ _ => true
  | .verifyTP _ _ _ => true
  | .nullify _ => true
  | .flushT0 => true
  | .flushT1 => true
  | .flushTP => true

end Sys2Proof
end

