-- ==== Sys2Proof/Decode.lean ====
section
/-! DEFINITION. The decoder, total on every 64-bit CMD value and rejecting by name in the order of rule R103, and the
encoder (30_encoding.md rules R90 to R107). -/

namespace Sys2Proof

/-- Why a CMD value is no command: the five checks of R103, in their order. -/
inductive DecodeError where
  /-- R103 (1): bits 63:32 of the CMD value are not 0. -/
  | highBits
  /-- R103 (2): a reserved opcode (R101). -/
  | reservedOpcode
  /-- R103 (3): a MODE bit outside the command's named fields, or an illegal WID or TREE. -/
  | illegalMode
  /-- R103 (4): an unused register field is not 0. -/
  | unusedField
  /-- R103 (5): a register block leaves `W0..W15`. -/
  | blockRange
deriving DecidableEq, Repr

/-- The 25 opcodes of R100. -/
inductive Opcode where
  | nop | add | sub | mul | divf | divc | muldiv
  | t2p | p2t | tdec
  | amt0 | amt1 | ladd | fgchk
  | nxp0 | nxp1 | swapi | swapo
  | ntok | npos
  | insert | known | verify | nullify | flush
deriving DecidableEq, Repr

/-- The `OPC` value of an opcode (R100). -/
def Opcode.bits : Opcode → BitVec 8
  | .nop => 0x00
  | .add => 0x10
  | .sub => 0x11
  | .mul => 0x12
  | .divf => 0x13
  | .divc => 0x14
  | .muldiv => 0x15
  | .t2p => 0x20
  | .p2t => 0x21
  | .tdec => 0x22
  | .amt0 => 0x30
  | .amt1 => 0x31
  | .ladd => 0x32
  | .fgchk => 0x33
  | .nxp0 => 0x40
  | .nxp1 => 0x41
  | .swapi => 0x42
  | .swapo => 0x43
  | .ntok => 0x50
  | .npos => 0x51
  | .insert => 0x60
  | .known => 0x61
  | .verify => 0x62
  | .nullify => 0x63
  | .flush => 0x64

/-- The opcode an `OPC` value names; every value outside R100's map is reserved (R101). -/
def opcodeOf (opc : BitVec 8) : Option Opcode :=
  match opc.toNat with
  | 0x00 => some .nop
  | 0x10 => some .add
  | 0x11 => some .sub
  | 0x12 => some .mul
  | 0x13 => some .divf
  | 0x14 => some .divc
  | 0x15 => some .muldiv
  | 0x20 => some .t2p
  | 0x21 => some .p2t
  | 0x22 => some .tdec
  | 0x30 => some .amt0
  | 0x31 => some .amt1
  | 0x32 => some .ladd
  | 0x33 => some .fgchk
  | 0x40 => some .nxp0
  | 0x41 => some .nxp1
  | 0x42 => some .swapi
  | 0x43 => some .swapo
  | 0x50 => some .ntok
  | 0x51 => some .npos
  | 0x60 => some .insert
  | 0x61 => some .known
  | 0x62 => some .verify
  | 0x63 => some .nullify
  | 0x64 => some .flush
  | _ => none

/-- The fields of a command word (R91). -/
structure Fields where
  opc  : BitVec 8
  rd   : Reg
  rs1  : Reg
  rs2  : Reg
  rs3  : Reg
  mode : BitVec 8
deriving DecidableEq, Repr

/-- Splits a command word into its fields (R91). -/
def fieldsOf (w : BitVec 32) : Fields :=
  { opc  := w.extractLsb' 24 8
    rd   := w.extractLsb' 20 4
    rs1  := w.extractLsb' 16 4
    rs2  := w.extractLsb' 12 4
    rs3  := w.extractLsb' 8 4
    mode := w.extractLsb' 0 8 }

/-- R103 (3): every MODE bit outside the command's named fields is 0, and WID and TREE hold legal values (R94, R98,
R99). As all the named fields are low bits of MODE, each command's legal values are listed. -/
def modeLegal (op : Opcode) (mode : BitVec 8) : Bool :=
  match op with
  | .nop | .divf | .divc | .t2p | .p2t | .ladd | .ntok | .npos | .nullify => mode == 0
  | .muldiv | .tdec | .amt0 | .amt1 | .fgchk | .nxp0 | .nxp1 | .swapi | .swapo => mode.toNat < 2
  | .mul => mode.toNat < 2
  | .add | .insert | .known | .verify | .flush => mode.toNat < 3
  | .sub => mode.toNat < 8 && mode.toNat % 4 < 3

/-- R103 (4): the register fields that R100 marks "–" are 0; with `MONO = 0`, FGCHK leaves RS2 unused (R95). -/
def unusedZero (op : Opcode) (f : Fields) : Bool :=
  match op with
  | .nop | .flush => f.rd == 0 && f.rs1 == 0 && f.rs2 == 0 && f.rs3 == 0
  | .add | .sub | .mul | .ladd => f.rs3 == 0
  | .divf | .divc | .muldiv | .amt0 | .amt1 | .nxp0 | .nxp1 => true
  | .t2p | .p2t | .tdec | .swapi | .swapo | .ntok | .npos | .insert => f.rs2 == 0 && f.rs3 == 0
  | .fgchk => f.rd == 0 && f.rs3 == 0 && (f.mode.getLsbD 0 || f.rs2 == 0)
  | .known | .nullify => f.rd == 0 && f.rs2 == 0 && f.rs3 == 0
  | .verify => f.rd == 0

/-- The command that the fields of a word with opcode `op` and a legal MODE stand for (R94, R100). -/
def assemble (op : Opcode) (f : Fields) : Instr :=
  match op with
  | .nop => .nop
  | .add =>
    if f.mode.toNat % 4 = 0 then .add128 f.rd f.rs1 f.rs2
    else if f.mode.toNat % 4 = 1 then .add256 f.rd f.rs1 f.rs2
    else .add512 f.rd f.rs1 f.rs2
  | .sub =>
    if f.mode.toNat % 4 = 0 then .sub128 f.rd f.rs1 f.rs2 (f.mode.getLsbD 2)
    else if f.mode.toNat % 4 = 1 then .sub256 f.rd f.rs1 f.rs2 (f.mode.getLsbD 2)
    else .sub512 f.rd f.rs1 f.rs2 (f.mode.getLsbD 2)
  | .mul =>
    if f.mode.toNat % 4 = 0 then .mul128 f.rd f.rs1 f.rs2 else .mul256 f.rd f.rs1 f.rs2
  | .divf => .divf f.rd f.rs1 f.rs2 f.rs3
  | .divc => .divc f.rd f.rs1 f.rs2 f.rs3
  | .muldiv => .muldiv f.rd f.rs1 f.rs2 f.rs3 (f.mode.getLsbD 0)
  | .t2p => .t2p f.rd f.rs1
  | .p2t => .p2t f.rd f.rs1
  | .tdec => .tdec f.rd f.rs1 (f.mode.getLsbD 0)
  | .amt0 => .amt0 f.rd f.rs1 f.rs2 f.rs3 (f.mode.getLsbD 0)
  | .amt1 => .amt1 f.rd f.rs1 f.rs2 f.rs3 (f.mode.getLsbD 0)
  | .ladd => .ladd f.rd f.rs1 f.rs2
  | .fgchk => if f.mode.getLsbD 0 then .fgchkMono f.rs1 f.rs2 else .fgchk f.rs1
  | .nxp0 => .nxp0 f.rd f.rs1 f.rs2 f.rs3 (f.mode.getLsbD 0)
  | .nxp1 => .nxp1 f.rd f.rs1 f.rs2 f.rs3 (f.mode.getLsbD 0)
  | .swapi => .swapi f.rd f.rs1 (f.mode.getLsbD 0)
  | .swapo => .swapo f.rd f.rs1 (f.mode.getLsbD 0)
  | .ntok => .ntok f.rd f.rs1
  | .npos => .npos f.rd f.rs1
  | .insert =>
    if f.mode.toNat % 4 = 0 then .insertT0 f.rd f.rs1
    else if f.mode.toNat % 4 = 1 then .insertT1 f.rd f.rs1
    else .insertTP f.rd f.rs1
  | .known =>
    if f.mode.toNat % 4 = 0 then .knownT0 f.rs1
    else if f.mode.toNat % 4 = 1 then .knownT1 f.rs1
    else .knownTP f.rs1
  | .verify =>
    if f.mode.toNat % 4 = 0 then .verifyT0 f.rs1 f.rs2 f.rs3
    else if f.mode.toNat % 4 = 1 then .verifyT1 f.rs1 f.rs2 f.rs3
    else .verifyTP f.rs1 f.rs2 f.rs3
  | .nullify => .nullify f.rs1
  | .flush =>
    if f.mode.toNat % 4 = 0 then .flushT0
    else if f.mode.toNat % 4 = 1 then .flushT1
    else .flushTP

/-- Decodes the low 32 bits of a CMD value: checks (2) to (5) of R103. -/
def decodeWord (w : BitVec 32) : Except DecodeError Instr :=
  let f := fieldsOf w
  match opcodeOf f.opc with
  | none => .error .reservedOpcode
  | some op =>
    if modeLegal op f.mode then
      if unusedZero op f then
        if (assemble op f).wellFormed then .ok (assemble op f) else .error .blockRange
      else .error .unusedField
    else .error .illegalMode

/-- Decodes a 64-bit CMD value (R90, R103). -/
def decode (v : BitVec 64) : Except DecodeError Instr :=
  if v.extractLsb' 32 32 = 0 then decodeWord (v.extractLsb' 0 32) else .error .highBits

/-- A command word from its fields (R107). -/
def commandWord (op : Opcode) (rd rs1 rs2 rs3 : Reg) (mode : BitVec 8) : BitVec 32 :=
  op.bits ++ rd ++ rs1 ++ rs2 ++ rs3 ++ mode

/-- A mode bit at MODE[0]. -/
def modeBit (b : Bool) : BitVec 8 := if b then 1 else 0

/-- WID and UF of a SUB (R94, R98). -/
def subMode (wid : BitVec 2) (uf : Bool) : BitVec 8 := (0 : BitVec 5) ++ BitVec.ofBool uf ++ wid

/-- The command word of a command (R100, R107). -/
def encode : Instr → BitVec 32
  | .nop => commandWord .nop 0 0 0 0 0
  | .add128 rd rs1 rs2 => commandWord .add rd rs1 rs2 0 0
  | .add256 rd rs1 rs2 => commandWord .add rd rs1 rs2 0 1
  | .add512 rd rs1 rs2 => commandWord .add rd rs1 rs2 0 2
  | .sub128 rd rs1 rs2 uf => commandWord .sub rd rs1 rs2 0 (subMode 0 uf)
  | .sub256 rd rs1 rs2 uf => commandWord .sub rd rs1 rs2 0 (subMode 1 uf)
  | .sub512 rd rs1 rs2 uf => commandWord .sub rd rs1 rs2 0 (subMode 2 uf)
  | .mul128 rd rs1 rs2 => commandWord .mul rd rs1 rs2 0 0
  | .mul256 rd rs1 rs2 => commandWord .mul rd rs1 rs2 0 1
  | .divf rd rs1 rs2 rs3 => commandWord .divf rd rs1 rs2 rs3 0
  | .divc rd rs1 rs2 rs3 => commandWord .divc rd rs1 rs2 rs3 0
  | .muldiv rd rs1 rs2 rs3 rup => commandWord .muldiv rd rs1 rs2 rs3 (modeBit rup)
  | .t2p rd rs1 => commandWord .t2p rd rs1 0 0 0
  | .p2t rd rs1 => commandWord .p2t rd rs1 0 0 0
  | .tdec rd rs1 cur => commandWord .tdec rd rs1 0 0 (modeBit cur)
  | .amt0 rd rs1 rs2 rs3 rup => commandWord .amt0 rd rs1 rs2 rs3 (modeBit rup)
  | .amt1 rd rs1 rs2 rs3 rup => commandWord .amt1 rd rs1 rs2 rs3 (modeBit rup)
  | .ladd rd rs1 rs2 => commandWord .ladd rd rs1 rs2 0 0
  | .fgchk rs1 => commandWord .fgchk 0 rs1 0 0 0
  | .fgchkMono rs1 rs2 => commandWord .fgchk 0 rs1 rs2 0 1
  | .nxp0 rd rs1 rs2 rs3 addf => commandWord .nxp0 rd rs1 rs2 rs3 (modeBit addf)
  | .nxp1 rd rs1 rs2 rs3 addf => commandWord .nxp1 rd rs1 rs2 rs3 (modeBit addf)
  | .swapi rd rs1 up => commandWord .swapi rd rs1 0 0 (modeBit up)
  | .swapo rd rs1 up => commandWord .swapo rd rs1 0 0 (modeBit up)
  | .ntok rd rs1 => commandWord .ntok rd rs1 0 0 0
  | .npos rd rs1 => commandWord .npos rd rs1 0 0 0
  | .insertT0 rd rs1 => commandWord .insert rd rs1 0 0 0
  | .insertT1 rd rs1 => commandWord .insert rd rs1 0 0 1
  | .insertTP rd rs1 => commandWord .insert rd rs1 0 0 2
  | .knownT0 rs1 => commandWord .known 0 rs1 0 0 0
  | .knownT1 rs1 => commandWord .known 0 rs1 0 0 1
  | .knownTP rs1 => commandWord .known 0 rs1 0 0 2
  | .verifyT0 rs1 rs2 rs3 => commandWord .verify 0 rs1 rs2 rs3 0
  | .verifyT1 rs1 rs2 rs3 => commandWord .verify 0 rs1 rs2 rs3 1
  | .verifyTP rs1 rs2 rs3 => commandWord .verify 0 rs1 rs2 rs3 2
  | .nullify rs1 => commandWord .nullify 0 rs1 0 0 0
  | .flushT0 => commandWord .flush 0 0 0 0 0
  | .flushT1 => commandWord .flush 0 0 0 0 1
  | .flushTP => commandWord .flush 0 0 0 0 2

/-- The 64-bit CMD value of a command: its word, with bits 63:32 zero (R90). -/
def encodeCmd (i : Instr) : BitVec 64 := (encode i).setWidth 64

/-- The CMD value whose low `nbits` bits are those of `w` and whose other bits are 0. -/
def cmdValueOf (nbits w : Nat) : BitVec 64 := BitVec.ofNat 64 (w % 2 ^ nbits)

/-- The command the decoder reads from the table's bits `w` of a row of `nbits` bits. -/
def decodeTableWord (nbits w : Nat) : Option Instr :=
  match decode (cmdValueOf nbits w) with
  | .ok i => some i
  | .error _ => none

end Sys2Proof
end

