-- ==== Sys2Proof/Config.lean ====
section
/-! DEFINITION. What an implementation of the block fixes and what the spec leaves open (00_scope.md rule R10,
93_implementation_defined.md). Every open value is an opaque constant: nothing can evaluate it, and a statement about
the model holds whatever it is. A parameter that R10 constrains is an opaque raw value brought into R10's range by a
map onto that whole range, so that every admissible choice is some raw value and no inadmissible one is. -/

namespace Sys2Proof

/-- The two tick tables of R171: the source's formula as written, or its ceiling (90_conflicts.md C2). -/
inductive TickTable where
  | FLOOR
  | CEIL
deriving DecidableEq, Repr, Inhabited

namespace Config

/-- Brings a raw natural into the `n` naturals from `lo` on; for `n > 0` every one of them is reached. -/
def within (lo n raw : Nat) : Nat := lo + raw % n

opaque fieldPRaw : Nat

/-- `FIELD_P`, with `2^128 < FIELD_P < 2^256` (R10, D41). -/
def fieldP : Nat := within (2 ^ 128 + 1) (2 ^ 256 - 2 ^ 128 - 1) fieldPRaw

opaque hashRaw : List Nat → BitVec 256

/-- `HASH`: an uninterpreted function from lists of felts to naturals below `2^256` (R10, R15, D41). -/
def hash (inputs : List Nat) : Nat := (hashRaw inputs).toNat

opaque tagProtocolRaw : Nat

/-- `TAG_PROTOCOL`: a felt other than 0 (R10, R277, D42). -/
def tagProtocol : Nat := within 1 (fieldP - 1) tagProtocolRaw

opaque typeTokenRaw : Nat

/-- `TYPE_TOKEN`: a felt (R10, D42). -/
def typeToken : Nat := typeTokenRaw % fieldP

opaque typePositionRaw : Nat

/-- `TYPE_POSITION`: a felt other than `TYPE_TOKEN` (R10, R277, D42). -/
def typePosition : Nat := (typeToken + within 1 (fieldP - 1) typePositionRaw) % fieldP

opaque emptyLeafRaw : Nat

/-- `EMPTY_LEAF`: a nonzero felt (R10, D45). Its default `HASH([0, 0])` is one of the values it may take. -/
def emptyLeaf : Nat := within 1 (fieldP - 1) emptyLeafRaw

opaque nodeHashRaw : Nat → Nat → Nat

/-- `NODE_HASH`: an uninterpreted function of two felts whose result is a felt (R10, R292, D45). -/
def nodeHash (left right : Nat) : Nat := nodeHashRaw left right % fieldP

opaque treeHeightRaw : Nat

/-- `TREE_HEIGHT`, with `1 ≤ TREE_HEIGHT ≤ 32` (R10, D46). -/
def treeHeight : Nat := within 1 32 treeHeightRaw

opaque batchSizeRaw : Nat

/-- `BATCH_SIZE`, with `1 ≤ BATCH_SIZE ≤ 256` (R10, D50). -/
def batchSize : Nat := within 1 256 batchSizeRaw

/-- `FLUSH_DELAY`: a natural below `2^64`, in units of `NOW` (R10, D50). -/
opaque flushDelay : BitVec 64

opaque maxFeeGrowthRaw : Nat

/-- `MAX_FEE_GROWTH`, below `FIELD_P` (R10, D34). -/
def maxFeeGrowth : Nat := maxFeeGrowthRaw % fieldP

/-- `TICK_TABLE` (R10, R171, D27). -/
opaque tickTable : TickTable

opaque positionLayoutRaw : List Nat

/-- `POSITION_LAYOUT` (R10, R275, D43): the order in which the nine inputs of a position commitment after the two tags
are hashed, as a rearrangement of the indices 0 to 8; the default of R275 is `[0, 1, …, 8]`. -/
def positionLayout : List Nat :=
  if (List.range 9).isPerm positionLayoutRaw then positionLayoutRaw else List.range 9

opaque tickFeltRaw : Int → Nat

/-- `TICK_FELT`: a map from ticks to felts (R10, R275, D43). -/
def tickFelt (t : Int) : Nat := tickFeltRaw t % fieldP

/-- `NULLIFIER_CAPACITY`: a natural, or unbounded (`none`) (R10, D54). -/
opaque nullifierCapacity : Option Nat

/-- `ZLC_BASE`: the address at which the platform puts the register window; any natural (R60, I11, D9, log 22). -/
opaque zlcBase : Nat

/-- `Z[k]`: the root of an all-empty subtree of height `k` (R41, R293). -/
def zeroSubtree : Nat → Nat
  | 0 => emptyLeaf
  | k + 1 => nodeHash (zeroSubtree k) (zeroSubtree k)

/-- `ZERO_ROOT = Z[TREE_HEIGHT]` (R41). -/
def zeroRoot : Nat := zeroSubtree treeHeight

/-- The content of operand register `i` after the reset that draws the free values number `k`: the spec gives none and
forbids assuming zero (R23, 93_implementation_defined.md I2). DESIGN CHOICE, log 1. -/
opaque resetOperand : Nat → Nat → Word512

/-- The content of path entry `j` after the reset that draws the free values number `k` (R25, I2).
DESIGN CHOICE, log 2. -/
opaque resetPath : Nat → Nat → Word256

/-- What the `k`-th read of a register that is unspecified while a command runs returns (R79, R382, I1). Log 7. -/
opaque busyRead : Nat → Word64

end Config

end Sys2Proof
end

