-- ==== Sys2Proof/Machine/State.lean ====
section
/-! DEFINITION. The architectural state of the block (10_state.md rules R20 to R54), the events its agents bring, and
the state after reset (70_reset_and_hazards.md rule R370). -/

namespace Sys2Proof.Machine

/-- The three commitment trees `T0`, `T1`, `TP` (R40). -/
inductive TreeId where
  | t0
  | t1
  | tp
deriving DecidableEq, Repr

/-- `FLAGS` (R26): bits 0 to 4. Its other bits are reserved and read as 0. -/
structure Flags where
  /-- carry or borrow of the last ADD or SUB (R27) -/
  c   : Bool
  /-- overflow signal of the last AMT0, AMT1, NXP0, NXP1, SWAPI or SWAPO (R28) -/
  ovf : Bool
  /-- `isLimited` of the last SWAPI or SWAPO (R29) -/
  lim : Bool
  /-- result of the last KNOWN or VERIFY (R30) -/
  b   : Bool
  /-- sign of the tick of the last TDEC (R31) -/
  n   : Bool
deriving DecidableEq, Repr

/-- `STATUS` (R33) but for `BUSY`, which is 1 exactly while the engine holds a command (R34). -/
structure Status where
  /-- the last completed command faulted (R35) -/
  err    : Bool
  /-- sticky: CMD was written while busy (R36) -/
  reent  : Bool
  /-- sticky: an operand, path entry or NOW was written while busy (R37) -/
  wign   : Bool
  /-- sticky: an access was not 8 bytes at a multiple of 8 (R38) -/
  buserr : Bool
deriving DecidableEq, Repr

/-- The ledger state of one tree (R41 to R45). Felts are naturals (R15). -/
structure Tree where
  /-- `ROOT[t]`, the live root (R41) -/
  root   : Nat
  /-- `NEXT[t]`, the next leaf index (R42) -/
  next   : Nat
  /-- `PEND[t]`, the pending batch, oldest first (R43) -/
  pend   : List Nat
  /-- `PEND_T0[t]`, when the first root of the batch was buffered (R43) -/
  pendT0 : Word64
  /-- `HIST[t]`, the history ring (R44) -/
  hist   : Vector (Option Nat) 256
  /-- `HEAD[t]`, the slot the next promoted root is written to (R44) -/
  head   : Fin 256
  /-- `HCNT[t]`, the number of non-empty slots (R44) -/
  hcnt   : Nat
  /-- `REFCNT[t]`, in canonical form: felts strictly rising, no count 0 (R45) -/
  refcnt : List (Nat × Nat)
deriving DecidableEq, Repr

/-- One access of the host, by its address and its width in bytes (R13, R60, R66). Only 8-byte accesses at multiples of
8 of the window are performed; a write of another width is ignored, so its value is not carried. -/
inductive Access where
  | read (address bytes : Nat)
  | write (address bytes : Nat) (value : Word64)
deriving DecidableEq, Repr

/-- What happens next, and to which agent (R4, R72, R372): an access of the host, a turn of the command engine, in which
it completes the command in flight, or the platform's reset. DESIGN CHOICE, log 3. -/
inductive Event where
  | host (a : Access)
  | engine
  | reset
deriving DecidableEq, Repr

/-- The state of the block (R20) and, last, three fields of the model's own. -/
structure State where
  /-- `W0..W15` (R21) -/
  w       : Vector Word512 16
  /-- `PATH[0..31]` (R25) -/
  path    : Vector Word256 32
  /-- `FLAGS` (R26) -/
  flags   : Flags
  /-- `STATUS` without `BUSY` (R33) -/
  status  : Status
  /-- `CAUSE` (R39) -/
  cause   : Word64
  /-- `ERRCMD` bits 31:0 (R39) -/
  errCmd  : BitVec 32
  /-- `CMDLAST` bits 31:0 (R50) -/
  cmdLast : BitVec 32
  /-- `NOW` (R49) -/
  now     : Word64
  /-- the ledger state of `T0` (R40 to R46) -/
  tree0   : Tree
  /-- the ledger state of `T1` -/
  tree1   : Tree
  /-- the ledger state of `TP` -/
  treeP   : Tree
  /-- `NSET`, strictly rising (R47) -/
  nset    : List Nat
  /-- `NCOUNT` (R48) -/
  ncount  : Word64
  /-- the CMD value in flight (R52, R70); `none` when the engine is idle -/
  engine  : Option Word64
  /-- the events still to come, oldest first (the model's own, log 3) -/
  agenda  : List Event
  /-- what the host port returned for the last read (the model's own, log 11) -/
  readData : Word64
  /-- how many free values have been drawn (the model's own, log 7) -/
  freeIndex : Nat
deriving DecidableEq, Repr

/-- The ways the machine can stop: none. Every command completes or takes a fault of the block, after which the block
goes on (R121, R331, R337), and the spec has no `stuck` entry (93_implementation_defined.md). Nothing raises it. -/
inductive Fault where
deriving DecidableEq, Repr

/-- Why a step can give no meaning. -/
inductive Refusal where
  /-- Raised by an arm of `exec` for an instruction without a meaning; safe. No arm of this model raises it. -/
  | notModelled (mnemonic : String)
deriving DecidableEq, Repr

/-- The ledger state of a tree right after reset: every leaf empty, no batch, no history (R41 to R45, R370). -/
def Tree.reset : Tree where
  root   := Config.zeroRoot
  next   := 0
  pend   := []
  pendT0 := 0
  hist   := Vector.replicate 256 none
  head   := 0
  hcnt   := 0
  refcnt := []

/-- The state right after a reset that draws free values number `k` for the registers the spec leaves unspecified
(R23, R25, R54, R370), with nothing to come. -/
def State.resetAt (k : Nat) : State where
  w       := Vector.ofFn fun i => Config.resetOperand k i
  path    := Vector.ofFn fun j => Config.resetPath k j
  flags   := { c := false, ovf := false, lim := false, b := false, n := false }
  status  := { err := false, reent := false, wign := false, buserr := false }
  cause   := 0
  errCmd  := 0
  cmdLast := 0
  now     := 0
  tree0   := Tree.reset
  tree1   := Tree.reset
  treeP   := Tree.reset
  nset    := []
  ncount  := 0
  engine  := none
  agenda  := []
  readData  := 0
  freeIndex := k + 1

/-- The machine right after reset (R54, R370, R371): the engine is idle and nothing is to come. -/
def State.reset : State := State.resetAt 0

end Sys2Proof.Machine
end

