-- ==== Sys2Proof/Machine/Ops.lean ====
section
/-! DEFINITION. The operations every command shares: reading and writing operand registers and trees, raising a fault,
taking it, and completing (40_control.md rules R126 to R128, 60_exceptions.md rules R330 to R335). -/

namespace Sys2Proof.Machine

/-- The cause codes of R332, by name; `NONE` is the absence of one. -/
inductive FaultCode where
  | RANGE_WIDTH | RANGE_FIELD | RANGE_TICK | RANGE_DELTA | RANGE_PRICE | RANGE_FEEGROWTH | RANGE_TOKEN_ID
  | RANGE_INDEX | DIRECTION_MISMATCH | NOTE_INVALID
  | DIV_BY_ZERO | DIV_OVERFLOW | QUOTIENT_REJECTED
  | SUB_UNDERFLOW | WRONG_DIRECTION | LIQUIDITY_UNDERFLOW | LIQUIDITY_OVERFLOW | FEE_GROWTH_DECREASE
  | NULLIFIER_USED | NULLIFIER_ZERO | EMPTY_SLOT_MISMATCH | TREE_FULL | LEDGER_STORE_FULL
  | ILLEGAL_OPCODE | ILLEGAL_FIELD
deriving DecidableEq, Repr

/-- The 8-bit `CODE` of a cause (R332). -/
def FaultCode.code : FaultCode → BitVec 8
  | .RANGE_WIDTH => 0x01
  | .RANGE_FIELD => 0x02
  | .RANGE_TICK => 0x03
  | .RANGE_DELTA => 0x04
  | .RANGE_PRICE => 0x05
  | .RANGE_FEEGROWTH => 0x06
  | .RANGE_TOKEN_ID => 0x07
  | .RANGE_INDEX => 0x08
  | .DIRECTION_MISMATCH => 0x09
  | .NOTE_INVALID => 0x0A
  | .DIV_BY_ZERO => 0x10
  | .DIV_OVERFLOW => 0x11
  | .QUOTIENT_REJECTED => 0x12
  | .SUB_UNDERFLOW => 0x20
  | .WRONG_DIRECTION => 0x21
  | .LIQUIDITY_UNDERFLOW => 0x22
  | .LIQUIDITY_OVERFLOW => 0x23
  | .FEE_GROWTH_DECREASE => 0x24
  | .NULLIFIER_USED => 0x30
  | .NULLIFIER_ZERO => 0x31
  | .EMPTY_SLOT_MISMATCH => 0x32
  | .TREE_FULL => 0x33
  | .LEDGER_STORE_FULL => 0x34
  | .ILLEGAL_OPCODE => 0x40
  | .ILLEGAL_FIELD => 0x41

/-- The 3-bit `CLASS` of a cause (R333): 1 RangeViolation, 3 InvariantViolation, 4 LedgerConflict, 5 DivisionFailure,
6 IllegalCommand. Class 2, ArithmeticOverflow, is a flag and never a fault. -/
def FaultCode.cls : FaultCode → BitVec 3
  | .RANGE_WIDTH | .RANGE_FIELD | .RANGE_TICK | .RANGE_DELTA | .RANGE_PRICE | .RANGE_FEEGROWTH
  | .RANGE_TOKEN_ID | .RANGE_INDEX | .DIRECTION_MISMATCH | .NOTE_INVALID => 1
  | .SUB_UNDERFLOW | .WRONG_DIRECTION | .LIQUIDITY_UNDERFLOW | .LIQUIDITY_OVERFLOW
  | .FEE_GROWTH_DECREASE => 3
  | .NULLIFIER_USED | .NULLIFIER_ZERO | .EMPTY_SLOT_MISMATCH | .TREE_FULL | .LEDGER_STORE_FULL => 4
  | .DIV_BY_ZERO | .DIV_OVERFLOW | .QUOTIENT_REJECTED => 5
  | .ILLEGAL_OPCODE | .ILLEGAL_FIELD => 6

/-- A raised fault `Fault(CODE, info)` (R14). -/
structure Trap where
  code : FaultCode
  info : BitVec 8
deriving DecidableEq, Repr

/-- What the pseudocode of a command yields: a value, or the first fault raised (R16). -/
abbrev Cmd (α : Type) := Except Trap α

/-- `raise Fault(CODE, info)` (R14). -/
def raise {α : Type} (code : FaultCode) (info : BitVec 8) : Cmd α := .error { code := code, info := info }

/-- `INFO` for operand register `i` (R334). -/
def infoReg (i : Reg) : BitVec 8 := i.setWidth 8

/-- `INFO` for path entry `j` (R334). -/
def infoPath (j : Nat) : BitVec 8 := 0x80 + BitVec.ofNat 8 j

/-- `INFO` when the fault names no register (R334). -/
def infoNone : BitVec 8 := 0xFF

/-- `x[i]` (R13). -/
def State.reg (s : State) (i : Reg) : Word512 := s.w[i.toNat]'i.isLt

/-- `x[i] <- v`, for `v` a 512-bit value (R13). -/
def State.setReg (s : State) (i : Reg) (v : Word512) : State :=
  { s with w := s.w.set i.toNat v i.isLt }

/-- `x[i] <- v`, for `v` a natural below `2^512` (R13). -/
def State.setRegNat (s : State) (i : Reg) (v : Nat) : State := s.setReg i (BitVec.ofNat 512 v)

/-- The ledger state of tree `t` (R40). -/
def State.tree (s : State) : TreeId → Tree
  | .t0 => s.tree0
  | .t1 => s.tree1
  | .tp => s.treeP

/-- Replaces the ledger state of tree `t`. -/
def State.setTree (s : State) (t : TreeId) (x : Tree) : State :=
  match t with
  | .t0 => { s with tree0 := x }
  | .t1 => { s with tree1 := x }
  | .tp => { s with treeP := x }

/-- `STATUS.BUSY` (R34). -/
def State.busy (s : State) : Bool := s.engine.isSome

/-- Bits 31:0 of the command in flight, which a fault records in ERRCMD (R331). With no command in flight, which no step
meets, it is the last accepted word (log 23). -/
def State.inFlightWord (s : State) : BitVec 32 :=
  match s.engine with
  | some v => v.extractLsb' 0 32
  | none => s.cmdLast

/-- The content of `CAUSE` for a fault: INFO in 23:16, CLASS in 10:8, CODE in 7:0 (R39). -/
def Trap.cause (e : Trap) : Word64 := (0 : BitVec 40) ++ e.info ++ (0 : BitVec 5) ++ e.code.cls ++ e.code.code

/-- Successful completion: ERR and CAUSE cleared, ERRCMD kept, the engine idle again (R128, R71). -/
def State.succeed (s : State) : State :=
  { s with status := { s.status with err := false }, cause := 0, engine := none }

/-- TAKING A FAULT: nothing is written but ERR, CAUSE and ERRCMD, and the engine is idle again (R127, R331). The return
from it is the host's next command (R337). -/
def State.takeFault (s : State) (e : Trap) : State :=
  { s with status := { s.status with err := true }, cause := e.cause, errCmd := s.inFlightWord, engine := none }

/-- Completion of a command that started in `s` (R120): the writes of its pseudocode on success, none of them on a
fault. -/
def finish (s : State) (r : Cmd State) : Host.Outcome State Fault Refusal :=
  .next
    (match r with
    | .ok t => t.succeed
    | .error e => s.takeFault e)

/-- The cause a decode failure reports (R103). -/
def decodeFault : DecodeError → FaultCode
  | .highBits => .ILLEGAL_FIELD
  | .reservedOpcode => .ILLEGAL_OPCODE
  | .illegalMode => .ILLEGAL_FIELD
  | .unusedField => .ILLEGAL_FIELD
  | .blockRange => .ILLEGAL_FIELD

/-- Completion of a CMD value that does not decode (R120 (1)). -/
def execIllegal (e : DecodeError) (s : State) : Host.Outcome State Fault Refusal :=
  finish s (raise (decodeFault e) infoNone)

end Sys2Proof.Machine
end

