-- ==== Sys2Proof/Machine/Flags.lean ====
section
/-! DEFINITION. The flag computations and the writes of single FLAGS fields (10_state.md rules R26 to R32). -/

namespace Sys2Proof.Machine

/-- The carry out of a `width`-bit sum (R141). -/
def carryOut (width sum : Nat) : Bool := 2 ^ width ≤ sum

/-- The borrow of a subtraction (R143). -/
def borrowOut (a b : Nat) : Bool := a < b

/-- `FLAGS.C <- v` (R27). -/
def State.setC (s : State) (v : Bool) : State := { s with flags := { s.flags with c := v } }

/-- `FLAGS.OVF <- v` (R28). -/
def State.setOvf (s : State) (v : Bool) : State := { s with flags := { s.flags with ovf := v } }

/-- `FLAGS.LIM <- v` (R29). -/
def State.setLim (s : State) (v : Bool) : State := { s with flags := { s.flags with lim := v } }

/-- `FLAGS.B <- v` (R30). -/
def State.setB (s : State) (v : Bool) : State := { s with flags := { s.flags with b := v } }

/-- `FLAGS.N <- v` (R31). -/
def State.setN (s : State) (v : Bool) : State := { s with flags := { s.flags with n := v } }

/-- An amount that does not fit 128 bits signals overflow (R202, R204, R235). -/
def overflows128 (v : Nat) : Bool := 2 ^ 128 ≤ v

/-- The value a destination receives beside an overflow signal: 0 when it is set (R129). -/
def guarded (ovf : Bool) (v : Nat) : Nat := if ovf then 0 else v

/-- `FLAGS` as the host reads it: bit 0 C, 1 OVF, 2 LIM, 3 B, 4 N, the rest 0 (R26). -/
def Flags.word (f : Flags) : Word64 :=
  (0 : BitVec 59) ++ BitVec.ofBool f.n ++ BitVec.ofBool f.b ++ BitVec.ofBool f.lim ++ BitVec.ofBool f.ovf
    ++ BitVec.ofBool f.c

/-- `STATUS` as the host reads it: bit 0 BUSY, 1 ERR, 2 REENT, 3 WIGN, 4 BUSERR, the rest 0 (R33). -/
def State.statusWord (s : State) : Word64 :=
  (0 : BitVec 59) ++ BitVec.ofBool s.status.buserr ++ BitVec.ofBool s.status.wign
    ++ BitVec.ofBool s.status.reent ++ BitVec.ofBool s.status.err ++ BitVec.ofBool s.busy

end Sys2Proof.Machine
end

