-- ==== Sys2Proof/Machine/Operands.lean ====
section
/-! DEFINITION. The operand types of 40_control.md rules R123 and R124 and the path entries of 46_ledger.md rule R292:
`opnd(i, T)` reads a register, checks it and returns the decoded value or raises the fault its type names. -/

namespace Sys2Proof.Machine

/-- `MAX_TICK_MAGNITUDE` (R7). -/
def maxTick : Nat := 88722883

/-- `MIN_SQRT_RATIO` (R8). -/
def minSqrtRatio : Nat := 18446748437148339061

/-- `MAX_SQRT_RATIO` (R8). -/
def maxSqrtRatio : Nat := 6277100250585753475930931601400621808602321654880405518632

/-- `opnd(i, uN)` for `N` = 128, 256 or 512; for 512 the check never fails (R123). -/
def opndU (n : Nat) (i : Reg) (s : State) : Cmd Nat :=
  if (s.reg i).toNat < 2 ^ n then .ok (s.reg i).toNat else raise .RANGE_WIDTH (infoReg i)

/-- A 256-bit operand with a further check of its value, as every other row of R123 has it. -/
def opndChecked (ok : Nat → Bool) (code : FaultCode) (i : Reg) (s : State) : Cmd Nat :=
  match opndU 256 i s with
  | .error e => .error e
  | .ok v => if ok v then .ok v else raise code (infoReg i)

/-- `opnd(i, felt)` (R123). -/
def opndFelt (i : Reg) (s : State) : Cmd Nat := opndChecked (fun v => v < Config.fieldP) .RANGE_FIELD i s

/-- A price lies in the range of R8. -/
def priceInRange (p : Nat) : Bool := minSqrtRatio ≤ p && p ≤ maxSqrtRatio

/-- `opnd(i, price)` (R123). -/
def opndPrice (i : Reg) (s : State) : Cmd Nat := opndChecked priceInRange .RANGE_PRICE i s

/-- `opnd(i, fg)` (R123). -/
def opndFg (i : Reg) (s : State) : Cmd Nat :=
  opndChecked (fun v => v ≤ Config.maxFeeGrowth) .RANGE_FEEGROWTH i s

/-- `opnd(i, tokid)` (R123). -/
def opndTokid (i : Reg) (s : State) : Cmd Nat := opndChecked (fun v => v < 2) .RANGE_TOKEN_ID i s

/-- `opnd(i, leafidx)` and `opnd(i, dirmask)` (R123). -/
def opndIndex (i : Reg) (s : State) : Cmd Nat :=
  opndChecked (fun v => v < 2 ^ Config.treeHeight) .RANGE_INDEX i s

/-- `int_N(v)`: the two's-complement reading of the low `n` bits of `v` (R12). -/
def intOfBits (n v : Nat) : Int := if 2 ^ (n - 1) ≤ v % 2 ^ n then (v % 2 ^ n : Nat) - (2 ^ n : Nat) else (v % 2 ^ n : Nat)

/-- Bits 255:128 of a 256-bit value are the sign extension of bit 127 (R124). -/
def signExtended128 (v : Nat) : Bool :=
  v / 2 ^ 128 == (if 2 ^ 127 ≤ v % 2 ^ 128 then 2 ^ 128 - 1 else 0)

/-- `opnd(i, tickslot(NEG))` (R124). -/
def opndTick (neg : Nat) (i : Reg) (s : State) : Cmd Int :=
  match opndU 256 i s with
  | .error e => .error e
  | .ok v =>
    if signExtended128 v = false then raise .RANGE_TICK (infoReg i)
    else if intOfBits 128 v > maxTick ∨ intOfBits 128 v < -(neg : Int) then raise .RANGE_TICK (infoReg i)
    else .ok (intOfBits 128 v)

/-- `opnd(i, deltaslot)` (R124). -/
def opndDelta (i : Reg) (s : State) : Cmd Int :=
  match opndU 256 i s with
  | .error e => .error e
  | .ok v =>
    if intOfBits 256 v ≤ -(2 ^ 128 : Int) ∨ intOfBits 256 v ≥ (2 ^ 128 : Int) then raise .RANGE_DELTA (infoReg i)
    else .ok (intOfBits 256 v)

/-- `enctick(t) = t mod 2^256` (R124). -/
def encTick (t : Int) : Nat := (t % (2 ^ 256 : Int)).toNat

/-- The path entries a command uses, leaf level first: `path[0..H-1]` (R25, R292). -/
def pathEntries (s : State) : List Nat := (s.path.toList.take Config.treeHeight).map BitVec.toNat

/-- The path entries from level `j` on are felts, in ascending order (R292). -/
def pathCheckFrom (j : Nat) : List Nat → Cmd Unit
  | [] => .ok ()
  | p :: ps => if p < Config.fieldP then pathCheckFrom (j + 1) ps else raise .RANGE_FIELD (infoPath j)

/-- `PathCheck()` (R292). -/
def pathCheck (s : State) : Cmd Unit := pathCheckFrom 0 (pathEntries s)

end Sys2Proof.Machine
end

