-- ==== Sys2Proof/Machine/BigInt.lean ====
section
/-! DEFINITION. The BigIntEngine family: ADD, SUB, MUL, DIVF, DIVC, MULDIV (41_bigint.md). -/

namespace Sys2Proof.Machine

/-- ADD at a width (R141). -/
def addCmd (width : Nat) (rd rs1 rs2 : Reg) (s : State) : Cmd State := do
  let a ← opndU width rs1 s
  let b ← opndU width rs2 s
  return (s.setRegNat rd ((a + b) % 2 ^ width)).setC (carryOut width (a + b))

/-- SUB at a width; `(a - b) mod 2^W` is taken on naturals as `(a + 2^W - b) mod 2^W` (R143). -/
def subCmd (width : Nat) (rd rs1 rs2 : Reg) (uf : Bool) (s : State) : Cmd State := do
  let a ← opndU width rs1 s
  let b ← opndU width rs2 s
  if a < b ∧ uf = false then raise .SUB_UNDERFLOW infoNone
  else return (s.setRegNat rd ((a + 2 ^ width - b) % 2 ^ width)).setC (borrowOut a b)

/-- MUL at an operand width: the exact double-width product (R145). -/
def mulCmd (width : Nat) (rd rs1 rs2 : Reg) (s : State) : Cmd State := do
  let a ← opndU width rs1 s
  let b ← opndU width rs2 s
  return s.setRegNat rd (a * b)

/-- The identity a floor witness must meet: `q·d ≤ n < (q+1)·d` (R147). -/
def floorAccepts (n d q : Nat) : Bool := q * d ≤ n && n < (q + 1) * d

/-- The identity a ceiling witness must meet: `(q-1)·d < n ≤ q·d`, and `n = 0` when `q = 0` (R149). -/
def ceilAccepts (n d q : Nat) : Bool := if q = 0 then n == 0 else (q - 1) * d < n && n ≤ q * d

/-- The checks of DIVF and DIVC after the operands, in the order of R148: divisor zero, then a true quotient `quo` that
does not fit 256 bits, then the witness. -/
def divCheck (accepts : Bool) (quo d : Nat) (rs2 rs3 : Reg) : Cmd Unit :=
  if d = 0 then raise .DIV_BY_ZERO (infoReg rs2)
  else if 2 ^ 256 ≤ quo then raise .DIV_OVERFLOW infoNone
  else if accepts then .ok ()
  else raise .QUOTIENT_REJECTED (infoReg rs3)

/-- DIVF (R147). -/
def divfCmd (rd rs1 rs2 rs3 : Reg) (s : State) : Cmd State := do
  let n ← opndU 512 rs1 s
  let d ← opndU 256 rs2 s
  let q ← opndU 256 rs3 s
  divCheck (floorAccepts n d q) (n / d) d rs2 rs3
  return s.setRegNat rd q

/-- DIVC (R149). -/
def divcCmd (rd rs1 rs2 rs3 : Reg) (s : State) : Cmd State := do
  let n ← opndU 512 rs1 s
  let d ← opndU 256 rs2 s
  let q ← opndU 256 rs3 s
  divCheck (ceilAccepts n d q) (cdiv n d) d rs2 rs3
  return s.setRegNat rd q

/-- The quotient of `n` by `d` rounded as asked (R152). -/
def quotient (n d : Nat) (rup : Bool) : Nat := if rup then cdiv n d else n / d

/-- `MulDiv(a, b, d, rup)`; `info` names the register of `d`, or none when `d` is internal (R152). -/
def mulDiv (a b d : Nat) (rup : Bool) (info : BitVec 8) : Cmd Nat :=
  if d = 0 then raise .DIV_BY_ZERO info
  else if 2 ^ 256 ≤ quotient (a * b) d rup then raise .DIV_OVERFLOW infoNone
  else .ok (quotient (a * b) d rup)

/-- MULDIV (R151). -/
def muldivCmd (rd rs1 rs2 rs3 : Reg) (rup : Bool) (s : State) : Cmd State := do
  let a ← opndU 256 rs1 s
  let b ← opndU 256 rs2 s
  let d ← opndU 256 rs3 s
  let q ← mulDiv a b d rup (infoReg rs3)
  return s.setRegNat rd q

/-- ADD.128 (R141). -/
def execAdd128 (rd rs1 rs2 : Reg) (s : State) : Host.Outcome State Fault Refusal := finish s (addCmd 128 rd rs1 rs2 s)

/-- ADD.256 (R141). -/
def execAdd256 (rd rs1 rs2 : Reg) (s : State) : Host.Outcome State Fault Refusal := finish s (addCmd 256 rd rs1 rs2 s)

/-- ADD.512 (R141). -/
def execAdd512 (rd rs1 rs2 : Reg) (s : State) : Host.Outcome State Fault Refusal := finish s (addCmd 512 rd rs1 rs2 s)

/-- SUB.128 (R143). -/
def execSub128 (rd rs1 rs2 : Reg) (uf : Bool) (s : State) : Host.Outcome State Fault Refusal :=
  finish s (subCmd 128 rd rs1 rs2 uf s)

/-- SUB.256 (R143). -/
def execSub256 (rd rs1 rs2 : Reg) (uf : Bool) (s : State) : Host.Outcome State Fault Refusal :=
  finish s (subCmd 256 rd rs1 rs2 uf s)

/-- SUB.512 (R143). -/
def execSub512 (rd rs1 rs2 : Reg) (uf : Bool) (s : State) : Host.Outcome State Fault Refusal :=
  finish s (subCmd 512 rd rs1 rs2 uf s)

/-- MUL.128 (R145). -/
def execMul128 (rd rs1 rs2 : Reg) (s : State) : Host.Outcome State Fault Refusal := finish s (mulCmd 128 rd rs1 rs2 s)

/-- MUL.256 (R145). -/
def execMul256 (rd rs1 rs2 : Reg) (s : State) : Host.Outcome State Fault Refusal := finish s (mulCmd 256 rd rs1 rs2 s)

/-- DIVF (R147). -/
def execDivf (rd rs1 rs2 rs3 : Reg) (s : State) : Host.Outcome State Fault Refusal :=
  finish s (divfCmd rd rs1 rs2 rs3 s)

/-- DIVC (R149). -/
def execDivc (rd rs1 rs2 rs3 : Reg) (s : State) : Host.Outcome State Fault Refusal :=
  finish s (divcCmd rd rs1 rs2 rs3 s)

/-- MULDIV (R151). -/
def execMuldiv (rd rs1 rs2 rs3 : Reg) (rup : Bool) (s : State) : Host.Outcome State Fault Refusal :=
  finish s (muldivCmd rd rs1 rs2 rs3 rup s)

end Sys2Proof.Machine
end

