-- ==== Sys2Proof/Machine/Control.lean ====
section
/-! DEFINITION. The control family: NOP (40_control.md rule R130). -/

namespace Sys2Proof.Machine

/-- NOP (R130): completes like any other command and writes nothing. -/
def execNop (s : State) : Host.Outcome State Fault Refusal := finish s (.ok s)

end Sys2Proof.Machine
end

