-- ==== Sys2Proof/Machine/Ledger.lean ====
section
/-! DEFINITION. The ShieldedLedger family: INSERT, KNOWN, VERIFY, FLUSH, NULLIFY (46_ledger.md). -/

namespace Sys2Proof.Machine

/-- `ComputeRoot(leaf, idx)` over the path entries: bit i of the index set means the node at level i is the right
child (R292). -/
def computeRoot : List Nat → Nat → Nat → Nat
  | [], node, _ => node
  | p :: ps, node, idx =>
    computeRoot ps (if idx % 2 = 0 then Config.nodeHash node p else Config.nodeHash p node) (idx / 2)

/-- The count of a root in REFCNT; an unlisted root counts 0 (R45). -/
def refCount (m : List (Nat × Nat)) (r : Nat) : Nat :=
  match m with
  | [] => 0
  | (k, n) :: rest => if k = r then n else refCount rest r

/-- One entry of REFCNT put before a list of greater keys, unless its count is 0 (canonical form). -/
def refEntry (k n : Nat) (rest : List (Nat × Nat)) : List (Nat × Nat) := if n = 0 then rest else (k, n) :: rest

/-- Writes the count of a root, keeping the keys strictly rising and no count 0. -/
def refSet (m : List (Nat × Nat)) (r n : Nat) : List (Nat × Nat) :=
  match m with
  | [] => refEntry r n []
  | (k, c) :: rest =>
    if r < k then refEntry r n ((k, c) :: rest)
    else if r = k then refEntry r n rest
    else (k, c) :: refSet rest r n

/-- `REFCNT[t][r] <- REFCNT[t][r] + 1` (R297). -/
def refUp (m : List (Nat × Nat)) (r : Nat) : List (Nat × Nat) := refSet m r (refCount m r + 1)

/-- `REFCNT[t][r] <- REFCNT[t][r] - 1` (R297). -/
def refDown (m : List (Nat × Nat)) (r : Nat) : List (Nat × Nat) := refSet m r (refCount m r - 1)

/-- REFCNT after the slot at HEAD is evicted; an empty slot, which a full ring never has, leaves it (R297, log 20). -/
def evictRef (x : Tree) : List (Nat × Nat) :=
  match x.hist[x.head.val]'x.head.isLt with
  | some old => refDown x.refcnt old
  | none => x.refcnt

/-- `Push(t, r)` (R297). -/
def Tree.push (x : Tree) (r : Nat) : Tree :=
  { x with
    hcnt := if x.hcnt = 256 then x.hcnt else x.hcnt + 1
    refcnt := refUp (if x.hcnt = 256 then evictRef x else x.refcnt) r
    hist := x.hist.set x.head.val (some r) x.head.isLt
    head := x.head + 1 }

/-- `Flush(t)` (R298). -/
def Tree.flush (x : Tree) : Tree := { x.pend.foldl Tree.push x with pend := [] }

/-- The pending batch is due: not empty, and full or old enough; the age is an integer (R296, log 19). -/
def Tree.flushDue (x : Tree) (now : Word64) : Bool :=
  !x.pend.isEmpty &&
    (Config.batchSize ≤ x.pend.length || (Config.flushDelay.toNat : Int) ≤ (now.toNat : Int) - x.pendT0.toNat)

/-- `MaybeFlush(t)` (R296). -/
def Tree.maybeFlush (x : Tree) (now : Word64) : Tree := if x.flushDue now then x.flush else x

/-- `isKnown(t, r)` (R295). -/
def Tree.isKnown (x : Tree) (r : Nat) : Bool := r == x.root || x.pend.contains r || 0 < refCount x.refcnt r

/-- The tree after a root computed by INSERT is made live and buffered, a full batch being flushed at once (R300). -/
def Tree.append (x : Tree) (newRoot : Nat) (now : Word64) : Tree :=
  let y := { x with
    root := newRoot
    next := x.next + 1
    pendT0 := if x.pend.isEmpty then now else x.pendT0
    pend := x.pend ++ [newRoot] }
  if Config.batchSize ≤ y.pend.length then y.flush else y

/-- INSERT into tree `t` (R300). -/
def insertCmd (t : TreeId) (rd rs1 : Reg) (s : State) : Cmd State := do
  let c ← opndFelt rs1 s
  pathCheck s
  if c = 0 ∨ c = Config.emptyLeaf then raise .NOTE_INVALID (infoReg rs1)
  else if (s.tree t).next = 2 ^ Config.treeHeight then raise .TREE_FULL infoNone
  else if computeRoot (pathEntries s) Config.emptyLeaf (s.tree t).next ≠ (s.tree t).root then
    raise .EMPTY_SLOT_MISMATCH infoNone
  else
    return (s.setTree t
      (((s.tree t).maybeFlush s.now).append (computeRoot (pathEntries s) c (s.tree t).next) s.now)).setRegNat rd
        (s.tree t).next

/-- The flush of tree `t` and the answer whether `r` is known afterwards, into FLAGS.B (R305, R310). -/
def queryKnown (t : TreeId) (r : Nat) (s : State) : State :=
  (s.setTree t ((s.tree t).maybeFlush s.now)).setB (((s.tree t).maybeFlush s.now).isKnown r)

/-- KNOWN for tree `t` (R305). -/
def knownCmd (t : TreeId) (rs1 : Reg) (s : State) : Cmd State := do
  let r ← opndFelt rs1 s
  return queryKnown t r s

/-- VERIFY for tree `t` (R310, R311). -/
def verifyCmd (t : TreeId) (rs1 rs2 rs3 : Reg) (s : State) : Cmd State := do
  let c ← opndFelt rs1 s
  let idx ← opndIndex rs2 s
  let dirs ← opndIndex rs3 s
  pathCheck s
  if dirs ≠ idx then raise .DIRECTION_MISMATCH (infoReg rs3)
  else return queryKnown t (computeRoot (pathEntries s) c idx) s

/-- FLUSH for tree `t` (R315). -/
def flushCmd (t : TreeId) (s : State) : Cmd State := .ok (s.setTree t ((s.tree t).maybeFlush s.now))

/-- `NSET ∪ {n}`, strictly rising (R47). -/
def nsetInsert (n : Nat) : List Nat → List Nat
  | [] => [n]
  | m :: rest => if n < m then n :: m :: rest else if n = m then m :: rest else m :: nsetInsert n rest

/-- NULLIFY (R320). -/
def nullifyCmd (rs1 : Reg) (s : State) : Cmd State := do
  let n ← opndFelt rs1 s
  if n = 0 then raise .NULLIFIER_ZERO (infoReg rs1)
  else if s.nset.contains n then raise .NULLIFIER_USED (infoReg rs1)
  else if Config.nullifierCapacity = some s.nset.length then raise .LEDGER_STORE_FULL infoNone
  else return { s with nset := nsetInsert n s.nset, ncount := s.ncount + 1 }

/-- INSERT.T0 (R300). -/
def execInsertT0 (rd rs1 : Reg) (s : State) : Host.Outcome State Fault Refusal := finish s (insertCmd .t0 rd rs1 s)

/-- INSERT.T1 (R300). -/
def execInsertT1 (rd rs1 : Reg) (s : State) : Host.Outcome State Fault Refusal := finish s (insertCmd .t1 rd rs1 s)

/-- INSERT.TP (R300). -/
def execInsertTP (rd rs1 : Reg) (s : State) : Host.Outcome State Fault Refusal := finish s (insertCmd .tp rd rs1 s)

/-- KNOWN.T0 (R305). -/
def execKnownT0 (rs1 : Reg) (s : State) : Host.Outcome State Fault Refusal := finish s (knownCmd .t0 rs1 s)

/-- KNOWN.T1 (R305). -/
def execKnownT1 (rs1 : Reg) (s : State) : Host.Outcome State Fault Refusal := finish s (knownCmd .t1 rs1 s)

/-- KNOWN.TP (R305). -/
def execKnownTP (rs1 : Reg) (s : State) : Host.Outcome State Fault Refusal := finish s (knownCmd .tp rs1 s)

/-- VERIFY.T0 (R310). -/
def execVerifyT0 (rs1 rs2 rs3 : Reg) (s : State) : Host.Outcome State Fault Refusal :=
  finish s (verifyCmd .t0 rs1 rs2 rs3 s)

/-- VERIFY.T1 (R310). -/
def execVerifyT1 (rs1 rs2 rs3 : Reg) (s : State) : Host.Outcome State Fault Refusal :=
  finish s (verifyCmd .t1 rs1 rs2 rs3 s)

/-- VERIFY.TP (R310). -/
def execVerifyTP (rs1 rs2 rs3 : Reg) (s : State) : Host.Outcome State Fault Refusal :=
  finish s (verifyCmd .tp rs1 rs2 rs3 s)

/-- NULLIFY (R320). -/
def execNullify (rs1 : Reg) (s : State) : Host.Outcome State Fault Refusal := finish s (nullifyCmd rs1 s)

/-- FLUSH.T0 (R315). -/
def execFlushT0 (s : State) : Host.Outcome State Fault Refusal := finish s (flushCmd .t0 s)

/-- FLUSH.T1 (R315). -/
def execFlushT1 (s : State) : Host.Outcome State Fault Refusal := finish s (flushCmd .t1 s)

/-- FLUSH.TP (R315). -/
def execFlushTP (s : State) : Host.Outcome State Fault Refusal := finish s (flushCmd .tp s)

end Sys2Proof.Machine
end

