-- ==== Sys2Proof/Machine/Liquidity.lean ====
section
/-! DEFINITION. The LiquidityMath family: AMT0, AMT1, LADD, FGCHK (43_liquidity.md). -/

namespace Sys2Proof.Machine

/-- `Amount0(pA, pB, L, rup)`: two chained divisions, each rounded as asked; the pair is the value and the overflow
signal (R202). -/
def amount0 (pA pB liq : Nat) (rup : Bool) : Cmd (Nat × Bool) := do
  let lower := min pA pB
  let upper := max pA pB
  let r1 ← mulDiv (liq * 2 ^ 128) (upper - lower) upper rup infoNone
  let r ← mulDiv r1 1 lower rup infoNone
  return (guarded (overflows128 r) r, overflows128 r)

/-- `Amount1(pA, pB, L, rup)`: one division by `2^128`, rounded up once when asked and inexact (R204). -/
def amount1 (pA pB liq : Nat) (rup : Bool) : Nat × Bool :=
  let n := (max pA pB - min pA pB) * liq
  let r := n / 2 ^ 128 + (if rup = true ∧ n % 2 ^ 128 ≠ 0 then 1 else 0)
  (guarded (overflows128 r) r, overflows128 r)

/-- AMT0 (R201). -/
def amt0Cmd (rd rs1 rs2 rs3 : Reg) (rup : Bool) (s : State) : Cmd State := do
  let pA ← opndPrice rs1 s
  let pB ← opndPrice rs2 s
  let liq ← opndU 128 rs3 s
  let (r, ovf) ← amount0 pA pB liq rup
  return (s.setRegNat rd (guarded ovf r)).setOvf ovf

/-- AMT1 (R203). -/
def amt1Cmd (rd rs1 rs2 rs3 : Reg) (rup : Bool) (s : State) : Cmd State := do
  let pA ← opndPrice rs1 s
  let pB ← opndPrice rs2 s
  let liq ← opndU 128 rs3 s
  let (r, ovf) := amount1 pA pB liq rup
  return (s.setRegNat rd (guarded ovf r)).setOvf ovf

/-- LADD (R205, R206). -/
def laddCmd (rd rs1 rs2 : Reg) (s : State) : Cmd State := do
  let liq ← opndU 128 rs1 s
  let d ← opndDelta rs2 s
  if (liq : Int) + d < 0 then raise .LIQUIDITY_UNDERFLOW (infoReg rs2)
  else if (liq : Int) + d ≥ 2 ^ 128 then raise .LIQUIDITY_OVERFLOW (infoReg rs2)
  else return s.setRegNat rd ((liq : Int) + d).toNat

/-- FGCHK with MONO = 0 (R207). -/
def fgchkCmd (rs1 : Reg) (s : State) : Cmd State := do
  let _ ← opndFg rs1 s
  return s

/-- FGCHK with MONO = 1 (R207). -/
def fgchkMonoCmd (rs1 rs2 : Reg) (s : State) : Cmd State := do
  let v ← opndFg rs1 s
  let prev ← opndFg rs2 s
  if v < prev then raise .FEE_GROWTH_DECREASE (infoReg rs1) else return s

/-- AMT0 (R201). -/
def execAmt0 (rd rs1 rs2 rs3 : Reg) (rup : Bool) (s : State) : Host.Outcome State Fault Refusal :=
  finish s (amt0Cmd rd rs1 rs2 rs3 rup s)

/-- AMT1 (R203). -/
def execAmt1 (rd rs1 rs2 rs3 : Reg) (rup : Bool) (s : State) : Host.Outcome State Fault Refusal :=
  finish s (amt1Cmd rd rs1 rs2 rs3 rup s)

/-- LADD (R205). -/
def execLadd (rd rs1 rs2 : Reg) (s : State) : Host.Outcome State Fault Refusal := finish s (laddCmd rd rs1 rs2 s)

/-- FGCHK (R207). -/
def execFgchk (rs1 : Reg) (s : State) : Host.Outcome State Fault Refusal := finish s (fgchkCmd rs1 s)

/-- FGCHK.MONO (R207). -/
def execFgchkMono (rs1 rs2 : Reg) (s : State) : Host.Outcome State Fault Refusal :=
  finish s (fgchkMonoCmd rs1 rs2 s)

end Sys2Proof.Machine
end

