-- ==== Sys2Proof/Machine/Notes.lean ====
section
/-! DEFINITION. The NoteModel family: NTOK, NPOS (45_notes.md). -/

namespace Sys2Proof.Machine

/-- `NoteCheck(nf, cm)` holds: both are nonzero felts and the commitment is not the empty leaf (R273). -/
def noteValid (nf cm : Nat) : Bool :=
  nf != 0 && nf < Config.fieldP && cm != 0 && cm < Config.fieldP && cm != Config.emptyLeaf

/-- Writes a valid note's nullifier and commitment, or raises NOTE_INVALID (R271, R273, R274). -/
def writeNote (rd : Reg) (nf cm : Nat) (s : State) : Cmd State :=
  if noteValid nf cm then .ok ((s.setRegNat rd nf).setRegNat (rd + 1) cm) else raise .NOTE_INVALID infoNone

/-- A token note's nullifier (R271). -/
def tokenNullifier (id secret seed : Nat) : Nat :=
  Config.hash [Config.tagProtocol, Config.typeToken, id, secret, seed]

/-- A token note's commitment (R271). -/
def tokenCommitment (id amount secret nf : Nat) : Nat :=
  Config.hash [Config.tagProtocol, Config.typeToken, id, amount, secret, nf]

/-- A position note's nullifier (R274). -/
def positionNullifier (secret seed : Nat) : Nat :=
  Config.hash [Config.tagProtocol, Config.typePosition, secret, seed]

/-- The nine inputs of a position commitment after the tags, in the default order, each fee growth split low limb
first (R275). -/
def positionFields (tl tu : Int) (liq fg0 fg1 secret nf : Nat) : List Nat :=
  [Config.tickFelt tl, Config.tickFelt tu, liq, fg0 % 2 ^ 128, fg0 / 2 ^ 128, fg1 % 2 ^ 128, fg1 / 2 ^ 128, secret, nf]

/-- `PositionInputs` under the block's `POSITION_LAYOUT` (R275). -/
def positionInputs (tl tu : Int) (liq fg0 fg1 secret nf : Nat) : List Nat :=
  Config.tagProtocol :: Config.typePosition ::
    Config.positionLayout.map fun i => (positionFields tl tu liq fg0 fg1 secret nf).getD i 0

/-- A position note's commitment (R274). -/
def positionCommitment (tl tu : Int) (liq fg0 fg1 secret nf : Nat) : Nat :=
  Config.hash (positionInputs tl tu liq fg0 fg1 secret nf)

/-- NTOK (R271). -/
def ntokCmd (rd rs1 : Reg) (s : State) : Cmd State := do
  let id ← opndTokid rs1 s
  let amount ← opndU 128 (rs1 + 1) s
  let secret ← opndFelt (rs1 + 2) s
  let seed ← opndFelt (rs1 + 3) s
  let nf := tokenNullifier id secret seed
  writeNote rd nf (tokenCommitment id amount secret nf) s

/-- NPOS (R274). -/
def nposCmd (rd rs1 : Reg) (s : State) : Cmd State := do
  let secret ← opndFelt rs1 s
  let seed ← opndFelt (rs1 + 1) s
  let tl ← opndTick maxTick (rs1 + 2) s
  let tu ← opndTick maxTick (rs1 + 3) s
  let liq ← opndU 128 (rs1 + 4) s
  let fg0 ← opndFg (rs1 + 5) s
  let fg1 ← opndFg (rs1 + 6) s
  let nf := positionNullifier secret seed
  writeNote rd nf (positionCommitment tl tu liq fg0 fg1 secret nf) s

/-- NTOK (R271). -/
def execNtok (rd rs1 : Reg) (s : State) : Host.Outcome State Fault Refusal := finish s (ntokCmd rd rs1 s)

/-- NPOS (R274). -/
def execNpos (rd rs1 : Reg) (s : State) : Host.Outcome State Fault Refusal := finish s (nposCmd rd rs1 s)

end Sys2Proof.Machine
end

