-- ==== Sys2Proof/Machine/SwapStep.lean ====
section
/-! DEFINITION. The SwapStep family: NXP0, NXP1, SWAPI, SWAPO (44_swapstep.md). -/

namespace Sys2Proof.Machine

/-- A next price and its overflow signal: out of the price range signals overflow (R232, R234). -/
def nextPrice (r : Nat) : Nat × Bool := if priceInRange r then (r, false) else (0, true)

/-- `Next0(p, L, a, add)`: the price after `a` of token0 is added to or removed from the pool, rounded up (R232). -/
def next0 (p liq a : Nat) (add : Bool) : Nat × Bool :=
  if a = 0 then (p, false)
  else if add then
    if liq * 2 ^ 128 = 0 then (0, true)
    else nextPrice (cdiv (liq * 2 ^ 128 * p) (liq * 2 ^ 128 + a * p))
  else if liq * 2 ^ 128 ≤ a * p then (0, true)
  else nextPrice (cdiv (liq * 2 ^ 128 * p) (liq * 2 ^ 128 - a * p))

/-- `Next1(p, L, a, add)`: the price after `a` of token1 is added to or removed from the pool, rounded down (R234). -/
def next1 (p liq a : Nat) (add : Bool) : Nat × Bool :=
  if a = 0 then (p, false)
  else if liq = 0 then (0, true)
  else if add then nextPrice (p + a * 2 ^ 128 / liq)
  else if p ≤ cdiv (a * 2 ^ 128) liq then (0, true)
  else nextPrice (p - cdiv (a * 2 ^ 128) liq)

/-- The operand block of a swap step (R235). -/
structure SwapOperands where
  /-- `ps`, priceStart -/
  start   : Nat
  /-- `pl`, priceLimit -/
  limit   : Nat
  /-- `L`, liquidity -/
  liq     : Nat
  /-- `R`, amountRemaining -/
  remaining : Nat
  /-- `f`, the fee rate `f / 2^128` -/
  fee     : Nat
deriving DecidableEq, Repr

/-- The outputs of a swap step (R235). -/
structure SwapResult where
  priceNext : Nat
  amountIn  : Nat
  amountOut : Nat
  feeAmount : Nat
  limited   : Bool
  overflow  : Bool
deriving DecidableEq, Repr

/-- Reads the operand block at `b`, each register completely checked before the next (R235). -/
def swapOperands (b : Reg) (s : State) : Cmd SwapOperands := do
  let start ← opndPrice b s
  let limit ← opndPrice (b + 1) s
  let liq ← opndU 128 (b + 2) s
  let remaining ← opndU 128 (b + 3) s
  let fee ← opndU 128 (b + 4) s
  return { start, limit, liq, remaining, fee }

/-- `inAmt`: the amount function of the input token (R236). -/
def inAmount (up : Bool) (pA pB liq : Nat) (rup : Bool) : Cmd (Nat × Bool) :=
  if up then .ok (amount1 pA pB liq rup) else amount0 pA pB liq rup

/-- `outAmt`: the amount function of the output token (R236). -/
def outAmount (up : Bool) (pA pB liq : Nat) (rup : Bool) : Cmd (Nat × Bool) :=
  if up then amount0 pA pB liq rup else .ok (amount1 pA pB liq rup)

/-- `Gross(net, f)`: the inverse-fee function (R237). -/
def gross (net fee : Nat) : Nat := cdiv (net * 2 ^ 128) (2 ^ 128 - fee)

/-- A tentative price crosses the limit; reaching it is no crossing (R238). -/
def crosses (up : Bool) (tentative limit : Nat) : Bool :=
  if up then limit < tentative else tentative < limit

/-- The limit is on the wrong side of the start price (R239, exit 2). -/
def wrongSide (up : Bool) (start limit : Nat) : Bool := if up then limit < start else start < limit

/-- The early exits (R239), in their order; `none` when the step goes on. -/
def swapEarly (up : Bool) (rs1 : Reg) (o : SwapOperands) : Cmd (Option SwapResult) :=
  if o.remaining = 0 ∨ o.limit = o.start then
    .ok (some { priceNext := o.start, amountIn := 0, amountOut := 0, feeAmount := 0, limited := false, overflow := false })
  else if wrongSide up o.start o.limit then raise .WRONG_DIRECTION (infoReg (rs1 + 1))
  else if o.liq = 0 then
    .ok (some { priceNext := o.limit, amountIn := 0, amountOut := 0, feeAmount := 0, limited := true, overflow := false })
  else .ok none

/-- The exact-input step past the early exits (R240, R241, R242). -/
def swapInStep (up : Bool) (o : SwapOperands) : Cmd SwapResult := do
  let fee0 := cdiv (o.remaining * o.fee) (2 ^ 128)
  let afterFee := o.remaining - fee0
  let (pt, o4) := if up then next1 o.start o.liq afterFee true else next0 o.start o.liq afterFee true
  if o4 || crosses up pt o.limit then
    let (net, o1) ← inAmount up o.limit o.start o.liq true
    let (out, o2) ← outAmount up o.limit o.start o.liq false
    let g := gross net o.fee
    return { priceNext := o.limit, amountIn := g, amountOut := out, feeAmount := g - net, limited := true,
             overflow := o1 || o2 || overflows128 g }
  else
    let (out, o2) ← outAmount up pt o.start o.liq false
    return { priceNext := pt, amountIn := o.remaining, amountOut := out, feeAmount := fee0, limited := false,
             overflow := o2 }

/-- The exact-output step past the early exits (R250). -/
def swapOutStep (up : Bool) (o : SwapOperands) : Cmd SwapResult := do
  let (pt, o4) := if up then next0 o.start o.liq o.remaining false else next1 o.start o.liq o.remaining false
  if o4 || crosses up pt o.limit then
    let (out, o2) ← outAmount up o.limit o.start o.liq false
    let (net, o1) ← inAmount up o.limit o.start o.liq true
    let g := gross net o.fee
    return { priceNext := o.limit, amountIn := g, amountOut := out, feeAmount := g - net, limited := true,
             overflow := o1 || o2 || overflows128 g }
  else
    let (net, o1) ← inAmount up pt o.start o.liq true
    let g := gross net o.fee
    return { priceNext := pt, amountIn := g, amountOut := o.remaining, feeAmount := g - net, limited := false,
             overflow := o1 || overflows128 g }

/-- A whole step: the early exits, then the step proper (R239, R240, R250). -/
def swapResult (step : Bool → SwapOperands → Cmd SwapResult) (up : Bool) (rs1 : Reg) (o : SwapOperands) :
    Cmd SwapResult := do
  match ← swapEarly up rs1 o with
  | some r => return r
  | none => step up o

/-- Writes the result block and the flags: on overflow all four results are 0 and LIM still tells whether the step was
limited (R129, R235, R240). -/
def writeSwap (rd : Reg) (r : SwapResult) (s : State) : State :=
  ((((((s.setRegNat rd (guarded r.overflow r.priceNext)).setRegNat (rd + 1) (guarded r.overflow r.amountIn)).setRegNat
      (rd + 2) (guarded r.overflow r.amountOut)).setRegNat (rd + 3) (guarded r.overflow r.feeAmount)).setLim
      r.limited).setOvf r.overflow)

/-- SWAPI and SWAPO over their step (R235, R240, R250). -/
def swapCmd (step : Bool → SwapOperands → Cmd SwapResult) (rd rs1 : Reg) (up : Bool) (s : State) : Cmd State := do
  let o ← swapOperands rs1 s
  let r ← swapResult step up rs1 o
  return writeSwap rd r s

/-- NXP0 and NXP1 over their next-price function (R231, R233). -/
def nxpCmd (next : Nat → Nat → Nat → Bool → Nat × Bool) (rd rs1 rs2 rs3 : Reg) (addf : Bool) (s : State) :
    Cmd State := do
  let p ← opndPrice rs1 s
  let liq ← opndU 128 rs2 s
  let a ← opndU 128 rs3 s
  let (r, ovf) := next p liq a addf
  return (s.setRegNat rd (guarded ovf r)).setOvf ovf

/-- NXP0 (R231). -/
def execNxp0 (rd rs1 rs2 rs3 : Reg) (addf : Bool) (s : State) : Host.Outcome State Fault Refusal :=
  finish s (nxpCmd next0 rd rs1 rs2 rs3 addf s)

/-- NXP1 (R233). -/
def execNxp1 (rd rs1 rs2 rs3 : Reg) (addf : Bool) (s : State) : Host.Outcome State Fault Refusal :=
  finish s (nxpCmd next1 rd rs1 rs2 rs3 addf s)

/-- SWAPI (R240). -/
def execSwapi (rd rs1 : Reg) (up : Bool) (s : State) : Host.Outcome State Fault Refusal :=
  finish s (swapCmd swapInStep rd rs1 up s)

/-- SWAPO (R250). -/
def execSwapo (rd rs1 : Reg) (up : Bool) (s : State) : Host.Outcome State Fault Refusal :=
  finish s (swapCmd swapOutStep rd rs1 up s)

end Sys2Proof.Machine
end

