-- ==== Sys2Proof/Machine/TickMath.lean ====
section
/-! DEFINITION. The TickMath family: T2P, P2T, TDEC (42_tickmath.md). -/

namespace Sys2Proof.Machine

/-- The tick table `C_FLOOR[0..26]` (R171). -/
def tickTableFloor : List Nat :=
  [ 0xffff_f79c_8499_329c_7cbb_2510_d893_283a,
    0xffff_ef39_0978_c398_134b_4ff3_764f_e40f,
    0xffff_de72_140b_00a3_54bd_3dc8_28e9_76c9,
    0xffff_bce4_2c7b_e6c9_98ad_6318_193c_0b18,
    0xffff_79c8_6a8f_6150_a32d_9778_ecee_f97b,
    0xfffe_f391_1b7c_ff24_ba1b_3dbb_5f8f_5974,
    0xfffd_e723_5072_5cc4_ea8f_eece_3b5f_13c7,
    0xfffb_ce4b_06c1_96e9_247a_c876_95d5_3c5f,
    0xfff7_9ca7_a4d1_bf1e_e855_6cea_23cd_baa5,
    0xffef_3995_a5b6_a626_7530_f207_142a_5763,
    0xffde_7444_b281_4550_8125_d100_77ba_83b8,
    0xffbc_ecee_b791_747f_10df_216f_2e53_ec56,
    0xff79_eb70_6b9a_64c6_431d_76e6_3531_e929,
    0xfef4_1d1a_5f2a_e3a2_0676_bec6_f7f9_4599,
    0xfde9_5287_d26d_81be_a159_c370_7312_2c73,
    0xfbd7_01c7_cbc4_c8a6_bb81_efd2_32d1_e4e7,
    0xf7bf_5211_c72f_5185_f372_aeb1_d48f_937d,
    0xefc2_bf59_df33_ecc2_8125_cf78_ec4f_167f,
    0xe08d_3570_6200_7962_73f0_b3a9_81d9_0cfd,
    0xc4f7_6b68_9474_82dc_198a_48a5_4348_c4ed,
    0x978b_cb98_9431_7807_e5fa_4498_eee7_c0fa,
    0x59b6_3684_b86e_9f48_6ec5_4727_371b_a6c9,
    0x1f70_3399_d88f_6aa8_3a28_b22d_4a1f_56e3,
    0x03dc_5dac_7376_e20f_c867_9758_d1bc_dcfb,
    0x000e_e7e3_2d61_fdb0_a5e6_22b8_20f6_81d0,
    0x0000_00de_2ee4_bc38_1afa_7089_aa84_bb65,
    0x0000_0000_0000_c0d5_5d4d_7152_c25f_b139 ]

/-- The tick table `C[0..26]` that `TICK_TABLE` selects; `C_CEIL[i] = C_FLOOR[i] + 1` (R171). -/
def tickConstants : TickTable → List Nat
  | .FLOOR => tickTableFloor
  | .CEIL => tickTableFloor.map (· + 1)

/-- The loop of R172: for each table entry from bit 0 of the magnitude on, multiply and shift when the bit is set. -/
def ratioLoop : List Nat → Nat → Nat → Nat
  | [], _, ratio => ratio
  | c :: cs, m, ratio => ratioLoop cs (m / 2) (if m % 2 = 1 then ratio * c / 2 ^ 128 else ratio)

/-- `T(t)` over a tick table (R172), inverted for positive ticks (R175). -/
def tickToPriceWith (table : TickTable) (t : Int) : Nat :=
  let ratio := ratioLoop (tickConstants table) t.natAbs (2 ^ 128)
  if t > 0 then (2 ^ 256 - 1) / ratio else ratio

/-- `T(t)` over the block's table (R172). -/
def tickToPrice (t : Int) : Nat := tickToPriceWith Config.tickTable t

/-- Binary search, bit by bit from bit `bits - 1` down: the greatest number `k` reached from `base` by setting bits
while `k` stays at most `last` and `ok k` holds. -/
def searchUp (ok : Nat → Bool) (last : Nat) : Nat → Nat → Nat
  | 0, base => base
  | bits + 1, base =>
    searchUp ok last bits
      (if base + 2 ^ bits ≤ last ∧ ok (base + 2 ^ bits) = true then base + 2 ^ bits else base)

/-- The tick of a price over a tick table: the greatest tick in [-MAXT, MAXT] whose price is at most `p`, found by binary
search over the forward function (R176). `priceToTickWith_greatest` in Laws/TickMath.lean proves that it is the
greatest (log 18). -/
def priceToTickWith (table : TickTable) (p : Nat) : Int :=
  (searchUp (fun k => tickToPriceWith table ((k : Int) - maxTick) ≤ p) (2 * maxTick) 28 0 : Int) - maxTick

/-- The tick of a price over the block's table (R176). -/
def priceToTick (p : Nat) : Int := priceToTickWith Config.tickTable p

/-- T2P (R173). -/
def t2pCmd (rd rs1 : Reg) (s : State) : Cmd State := do
  let t ← opndTick maxTick rs1 s
  return s.setRegNat rd (tickToPrice t)

/-- P2T (R176). -/
def p2tCmd (rd rs1 : Reg) (s : State) : Cmd State := do
  let p ← opndPrice rs1 s
  return s.setRegNat rd (encTick (priceToTick p))

/-- TDEC: with CUR, the negative bound is one wider (R178). -/
def tdecCmd (rd rs1 : Reg) (cur : Bool) (s : State) : Cmd State := do
  let t ← opndTick (if cur then maxTick + 1 else maxTick) rs1 s
  return (s.setRegNat rd t.natAbs).setN (t < 0)

/-- T2P (R173). -/
def execT2p (rd rs1 : Reg) (s : State) : Host.Outcome State Fault Refusal := finish s (t2pCmd rd rs1 s)

/-- P2T (R176). -/
def execP2t (rd rs1 : Reg) (s : State) : Host.Outcome State Fault Refusal := finish s (p2tCmd rd rs1 s)

/-- TDEC (R178). -/
def execTdec (rd rs1 : Reg) (cur : Bool) (s : State) : Host.Outcome State Fault Refusal :=
  finish s (tdecCmd rd rs1 cur s)

end Sys2Proof.Machine
end

