-- ==== Sys2Proof/Machine/Dispatch.lean ====
section
/-! DEFINITION. The meaning of every command: one arm for each constructor of Instr. -/

namespace Sys2Proof.Machine

def exec (i : Instr) (s : State) : Host.Outcome State Fault Refusal :=
  match i with
  | .nop => Sys2Proof.Machine.execNop s
  | .add128 rd rs1 rs2 => Sys2Proof.Machine.execAdd128 rd rs1 rs2 s
  | .add256 rd rs1 rs2 => Sys2Proof.Machine.execAdd256 rd rs1 rs2 s
  | .add512 rd rs1 rs2 => Sys2Proof.Machine.execAdd512 rd rs1 rs2 s
  | .sub128 rd rs1 rs2 uf => Sys2Proof.Machine.execSub128 rd rs1 rs2 uf s
  | .sub256 rd rs1 rs2 uf => Sys2Proof.Machine.execSub256 rd rs1 rs2 uf s
  | .sub512 rd rs1 rs2 uf => Sys2Proof.Machine.execSub512 rd rs1 rs2 uf s
  | .mul128 rd rs1 rs2 => Sys2Proof.Machine.execMul128 rd rs1 rs2 s
  | .mul256 rd rs1 rs2 => Sys2Proof.Machine.execMul256 rd rs1 rs2 s
  | .divf rd rs1 rs2 rs3 => Sys2Proof.Machine.execDivf rd rs1 rs2 rs3 s
  | .divc rd rs1 rs2 rs3 => Sys2Proof.Machine.execDivc rd rs1 rs2 rs3 s
  | .muldiv rd rs1 rs2 rs3 rup => Sys2Proof.Machine.execMuldiv rd rs1 rs2 rs3 rup s
  | .t2p rd rs1 => Sys2Proof.Machine.execT2p rd rs1 s
  | .p2t rd rs1 => Sys2Proof.Machine.execP2t rd rs1 s
  | .tdec rd rs1 cur => Sys2Proof.Machine.execTdec rd rs1 cur s
  | .amt0 rd rs1 rs2 rs3 rup => Sys2Proof.Machine.execAmt0 rd rs1 rs2 rs3 rup s
  | .amt1 rd rs1 rs2 rs3 rup => Sys2Proof.Machine.execAmt1 rd rs1 rs2 rs3 rup s
  | .ladd rd rs1 rs2 => Sys2Proof.Machine.execLadd rd rs1 rs2 s
  | .fgchk rs1 => Sys2Proof.Machine.execFgchk rs1 s
  | .fgchkMono rs1 rs2 => Sys2Proof.Machine.execFgchkMono rs1 rs2 s
  | .nxp0 rd rs1 rs2 rs3 addf => Sys2Proof.Machine.execNxp0 rd rs1 rs2 rs3 addf s
  | .nxp1 rd rs1 rs2 rs3 addf => Sys2Proof.Machine.execNxp1 rd rs1 rs2 rs3 addf s
  | .swapi rd rs1 up => Sys2Proof.Machine.execSwapi rd rs1 up s
  | .swapo rd rs1 up => Sys2Proof.Machine.execSwapo rd rs1 up s
  | .ntok rd rs1 => Sys2Proof.Machine.execNtok rd rs1 s
  | .npos rd rs1 => Sys2Proof.Machine.execNpos rd rs1 s
  | .insertT0 rd rs1 => Sys2Proof.Machine.execInsertT0 rd rs1 s
  | .insertT1 rd rs1 => Sys2Proof.Machine.execInsertT1 rd rs1 s
  | .insertTP rd rs1 => Sys2Proof.Machine.execInsertTP rd rs1 s
  | .knownT0 rs1 => Sys2Proof.Machine.execKnownT0 rs1 s
  | .knownT1 rs1 => Sys2Proof.Machine.execKnownT1 rs1 s
  | .knownTP rs1 => Sys2Proof.Machine.execKnownTP rs1 s
  | .verifyT0 rs1 rs2 rs3 => Sys2Proof.Machine.execVerifyT0 rs1 rs2 rs3 s
  | .verifyT1 rs1 rs2 rs3 => Sys2Proof.Machine.execVerifyT1 rs1 rs2 rs3 s
  | .verifyTP rs1 rs2 rs3 => Sys2Proof.Machine.execVerifyTP rs1 rs2 rs3 s
  | .nullify rs1 => Sys2Proof.Machine.execNullify rs1 s
  | .flushT0 => Sys2Proof.Machine.execFlushT0 s
  | .flushT1 => Sys2Proof.Machine.execFlushT1 s
  | .flushTP => Sys2Proof.Machine.execFlushTP s

end Sys2Proof.Machine
end

