-- ==== Sys2Proof/Machine/Window.lean ====
section
/-! DEFINITION. The host's accesses to the register window (20_memory.md rules R60 to R79) with the busy rules of
70_reset_and_hazards.md (R380 to R382), and the platform's reset (R370, R372). -/

namespace Sys2Proof.Machine

/-- What an offset of the window names (R61 to R65). -/
inductive Target where
  /-- limb `k` of `Wi` (R61) -/
  | operand (i : Reg) (k : Nat)
  /-- limb `k` of `PATH[j]` (R62) -/
  | path (j : BitVec 5) (k : Nat)
  /-- the control and configuration registers (R63) -/
  | cmd | status | cause | errCmd | flags | now | nullCount | id | cfg0 | cfg1
  | cfgp (k : Nat)
  | cfgmf (k : Nat)
  /-- word `k` of the status registers of a tree (R64) -/
  | tree (t : TreeId) (k : Nat)
  /-- unassigned (R65) -/
  | reserved
deriving DecidableEq, Repr

/-- The offset `A = address - ZLC_BASE` that the block decodes, `0 ≤ A < 0x1000`; an address outside the window has none
(R60). -/
def windowOffset (address : Nat) : Option (BitVec 12) :=
  if Config.zlcBase ≤ address ∧ address - Config.zlcBase < 0x1000 then
    some (BitVec.ofNat 12 (address - Config.zlcBase))
  else none

/-- The target of an offset from `ZLC_BASE`, for an offset that is a multiple of 8 (R61 to R65). -/
def targetOf (offset : BitVec 12) : Target :=
  let o := offset.toNat
  if o < 0x400 then .operand (BitVec.ofNat 4 (o / 64)) (o % 64 / 8)
  else if o < 0x800 then .path (BitVec.ofNat 5 ((o - 0x400) / 32)) (o % 32 / 8)
  else if o = 0x800 then .cmd
  else if o = 0x808 then .status
  else if o = 0x810 then .cause
  else if o = 0x818 then .errCmd
  else if o = 0x820 then .flags
  else if o = 0x828 then .now
  else if o = 0x830 then .nullCount
  else if o = 0x838 then .id
  else if o = 0x840 then .cfg0
  else if o = 0x848 then .cfg1
  else if 0x860 ≤ o ∧ o < 0x880 then .cfgp ((o - 0x860) / 8)
  else if 0x880 ≤ o ∧ o < 0x8A0 then .cfgmf ((o - 0x880) / 8)
  else if 0x900 ≤ o ∧ o < 0x940 then .tree .t0 ((o - 0x900) / 8)
  else if 0x940 ≤ o ∧ o < 0x980 then .tree .t1 ((o - 0x940) / 8)
  else if 0x980 ≤ o ∧ o < 0x9C0 then .tree .tp ((o - 0x980) / 8)
  else .reserved

/-- Limb `k` of a wide value, limb 0 least significant (R12). -/
def limb {n : Nat} (x : BitVec n) (k : Nat) : Word64 := x.extractLsb' (64 * k) 64

/-- A wide value with limb `k` replaced (R61). -/
def setLimb {n : Nat} (x : BitVec n) (k : Nat) (v : Word64) : BitVec n :=
  (x &&& ~~~((BitVec.allOnes 64).setWidth n <<< (64 * k))) ||| (v.setWidth n <<< (64 * k))

/-- `ID` (R2, R51). -/
def idWord : Word64 := 0x000000005A4C4337

/-- `CFG0`: TREE_HEIGHT in 7:0, BATCH_SIZE in 31:16, HISTORY_DEPTH = 256 in 47:32 (R51). -/
def cfg0Word : Word64 :=
  (0 : BitVec 16) ++ (256 : BitVec 16) ++ BitVec.ofNat 16 Config.batchSize ++ (0 : BitVec 8)
    ++ BitVec.ofNat 8 Config.treeHeight

/-- Word `k` of the status registers of a tree: four limbs of ROOT, NEXT, the length of PEND, PEND_T0, HCNT (R64). -/
def treeWord (x : Tree) (k : Nat) : Word64 :=
  match k with
  | 4 => BitVec.ofNat 64 x.next
  | 5 => BitVec.ofNat 64 x.pend.length
  | 6 => x.pendT0
  | 7 => BitVec.ofNat 64 x.hcnt
  | _ => limb (BitVec.ofNat 256 x.root) k

/-- `PATH[j]` (R25). -/
def State.pathEntry (s : State) (j : BitVec 5) : Word256 := s.path[j.toNat]'j.isLt

/-- Replaces `PATH[j]`. -/
def State.setPath (s : State) (j : BitVec 5) (v : Word256) : State := { s with path := s.path.set j.toNat v j.isLt }

/-- The current value of a target (R61 to R65, R76). -/
def windowRead (s : State) : Target → Word64
  | .operand i k => limb (s.reg i) k
  | .path j k => limb (s.pathEntry j) k
  | .cmd => s.cmdLast.setWidth 64
  | .status => s.statusWord
  | .cause => s.cause
  | .errCmd => s.errCmd.setWidth 64
  | .flags => s.flags.word
  | .now => s.now
  | .nullCount => s.ncount
  | .id => idWord
  | .cfg0 => cfg0Word
  | .cfg1 => Config.flushDelay
  | .cfgp k => limb (BitVec.ofNat 256 Config.fieldP) k
  | .cfgmf k => limb (BitVec.ofNat 256 Config.maxFeeGrowth) k
  | .tree t k => treeWord (s.tree t) k
  | .reserved => 0

/-- The targets whose read is specified while a command runs: STATUS and the constants (R79, R382), and the unassigned
offsets, which are no register and read 0 by R65 (log 8). -/
def Target.stableWhileBusy : Target → Bool
  | .status | .id | .cfg0 | .cfg1 | .cfgp _ | .cfgmf _ | .reserved => true
  | .operand _ _ | .path _ _ | .cmd | .cause | .errCmd | .flags | .now | .nullCount | .tree _ _ => false

/-- A well-formed read of a target: its current value, or a free value for a read that is unspecified while a command
runs (R79, R382, I1). -/
def hostRead (tgt : Target) (s : State) : State :=
  if s.busy = true ∧ tgt.stableWhileBusy = false then
    { s with readData := Config.busyRead s.freeIndex, freeIndex := s.freeIndex + 1 }
  else { s with readData := windowRead s tgt }

/-- Acceptance of a CMD value: CMDLAST and the in-flight command are set, so BUSY is 1 (R70). -/
def State.accept (s : State) (v : Word64) : State := { s with cmdLast := v.extractLsb' 0 32, engine := some v }

/-- A discarded operand, path or NOW write sets WIGN (R37, R381). -/
def State.flagIgnoredWrite (s : State) : State := { s with status := { s.status with wign := true } }

/-- A CMD write while busy sets REENT (R36, R380). -/
def State.flagReentry (s : State) : State := { s with status := { s.status with reent := true } }

/-- A malformed access sets BUSERR (R38, R66). -/
def State.flagBusError (s : State) : State := { s with status := { s.status with buserr := true } }

/-- A write to STATUS clears the sticky bits whose written bit is 1 (R33). -/
def State.clearSticky (s : State) (v : Word64) : State :=
  { s with status := { s.status with
      reent := s.status.reent && !v.getLsbD 2
      wign := s.status.wign && !v.getLsbD 3
      buserr := s.status.buserr && !v.getLsbD 4 } }

/-- A well-formed write of `v` to a target: read-only and unassigned targets ignore it (R61 to R65, R70), and the busy
rules discard writes of CMD, operands, path entries and NOW (R380, R381). NOW ignores a lower value (R49). -/
def hostWrite (tgt : Target) (v : Word64) (s : State) : State :=
  match tgt with
  | .operand i k => if s.busy then s.flagIgnoredWrite else s.setReg i (setLimb (s.reg i) k v)
  | .path j k => if s.busy then s.flagIgnoredWrite else s.setPath j (setLimb (s.pathEntry j) k v)
  | .cmd => if s.busy then s.flagReentry else s.accept v
  | .status => s.clearSticky v
  | .now =>
    if s.busy then s.flagIgnoredWrite
    else if s.now.toNat ≤ v.toNat then { s with now := v } else s
  | .cause | .errCmd | .flags | .nullCount | .id | .cfg0 | .cfg1 | .cfgp _ | .cfgmf _ | .tree _ _ | .reserved => s

/-- The only accesses the block performs: 8 bytes at a multiple of 8 (R66). -/
def accessOk (offset : BitVec 12) (bytes : Nat) : Bool := bytes == 8 && offset.toNat % 8 == 0

/-- A read of the window. A malformed one returns 0 and sets BUSERR (R66), at an unassigned offset too, where R65 by itself
would set no status bit: DESIGN CHOICE, log 24. -/
def readWindow (offset : BitVec 12) (bytes : Nat) (s : State) : State :=
  if accessOk offset bytes then hostRead (targetOf offset) s
  else { s with readData := 0, status := { s.status with buserr := true } }

/-- A write of the window. A malformed one is ignored and sets BUSERR (R66), at an unassigned offset too: DESIGN CHOICE,
log 24. -/
def writeWindow (offset : BitVec 12) (bytes : Nat) (v : Word64) (s : State) : State :=
  if accessOk offset bytes then hostWrite (targetOf offset) v s else s.flagBusError

/-- One access of the host, at the offset of its address in the window (R60). Malformed accesses, at unassigned offsets
too, follow R66 (log 24). An access whose address lies outside the window is none of the block's and leaves it as it is
(DEDUCED, log 22). -/
def hostAccess (a : Access) (s : State) : State :=
  match a with
  | .read address bytes =>
    match windowOffset address with
    | some offset => readWindow offset bytes s
    | none => s
  | .write address bytes v =>
    match windowOffset address with
    | some offset => writeWindow offset bytes v s
    | none => s

/-- The platform's reset: the reset state, a command in flight being abandoned (R370, R372). The events still to come
stay to come, and the unspecified registers draw new free values (log 13). -/
def platformReset (s : State) : State := { State.resetAt s.freeIndex with agenda := s.agenda }

end Sys2Proof.Machine
end

