-- ==== Sys2Proof/Machine/Step.lean ====
section
/-! DEFINITION. One step of the block: the next event, or, when none is to come, the command in flight (R4, R72, R120,
R386; log 3, log 4). -/

namespace Sys2Proof.Machine

/-- The engine runs a CMD value: it decodes it and executes the command, or completes with the decoder's fault (R120). -/
def runCommand (v : Word64) (s : State) : Host.Outcome State Fault Refusal :=
  match decode v with
  | .ok i => exec i s
  | .error e => execIllegal e s

/-- A turn of the engine: it completes the command in flight; an idle engine does nothing (R120, R371). -/
def engineTurn (s : State) : Host.Outcome State Fault Refusal :=
  match s.engine with
  | some v => runCommand v s
  | none => .next s

/-- One step. With no event to come the engine has the turn, so that no command runs forever (R121, R386); an idle block
with no event to come stays as it is (R371). -/
def step (s : State) : Host.Outcome State Fault Refusal :=
  match s.agenda with
  | [] => engineTurn s
  | .engine :: rest => engineTurn { s with agenda := rest }
  | .host a :: rest => .next (hostAccess a { s with agenda := rest })
  | .reset :: rest => .next (platformReset { s with agenda := rest })

/-- `s` with the command of `nbits` bits `w` accepted and due: as an accepted CMD write leaves it (R70), with the engine's
turn next. It stands for the host's CMD write (log 5). -/
def State.withFetchWord (s : State) (nbits w : Nat) : State :=
  { s with
    cmdLast := (cmdValueOf nbits w).extractLsb' 0 32
    engine := some (cmdValueOf nbits w)
    agenda := .engine :: s.agenda }

end Sys2Proof.Machine
end

