-- ==== Sys2Proof/Safety.lean ====
section
/-! DEFINITION. What a sound state is, in the words the statements use: the shape of the ledger that the spec says always
holds (10_state.md rules R40 to R48), and the fields that agree with one another. The spec has no memory; the canonical
forms below are those of the nullifier set and of the reference counts. -/

namespace Sys2Proof.Machine

/-- NSET is in its canonical form: strictly rising, so equal sets are equal lists (R47). -/
abbrev nsetWf (l : List Nat) : Prop := l.Pairwise (· < ·)

/-- REFCNT is in its canonical form: roots strictly rising and no count 0, so equal maps are equal lists (R45). -/
abbrev refWf (m : List (Nat × Nat)) : Prop := m.Pairwise (fun a b => a.1 < b.1) ∧ ∀ e ∈ m, e.2 ≠ 0

/-- How many slots of a ring hold the root `r` (R45). -/
def holding (hist : Vector (Option Nat) 256) (r : Nat) : Nat := hist.toList.count (some r)

/-- How many slots of a ring are not empty (R44). -/
def occupied (hist : Vector (Option Nat) 256) : Nat := hist.toList.countP Option.isSome

/-- The ledger state of one tree is sound at time `now`. -/
structure TreeSound (x : Tree) (now : Word64) : Prop where
  /-- ROOT is a felt (R41) -/
  root_felt : x.root < Config.fieldP
  /-- NEXT lies in [0, 2^TREE_HEIGHT] (R42) -/
  next_le : x.next ≤ 2 ^ Config.treeHeight
  /-- PEND holds felts (R43) -/
  pend_felt : ∀ r ∈ x.pend, r < Config.fieldP
  /-- PEND holds at most BATCH_SIZE roots (R43); between commands a full batch has been flushed (R300) -/
  pend_lt : x.pend.length < Config.batchSize
  /-- a buffered batch is not from the future: NOW never decreases (R49, R296) -/
  pend_time : x.pend ≠ [] → x.pendT0.toNat ≤ now.toNat
  /-- HIST holds felts (R44) -/
  hist_felt : ∀ r, some r ∈ x.hist.toList → r < Config.fieldP
  /-- HCNT counts the non-empty slots (R44) -/
  hcnt_eq : x.hcnt = occupied x.hist
  /-- while the ring is not full, the slots below HEAD are the non-empty ones (R44, R297) -/
  ring_fill : x.hcnt < 256 → x.head.val = x.hcnt ∧ ∀ k : Fin 256, (x.hist[k.val]).isSome = decide (k.val < x.hcnt)
  /-- REFCNT is in canonical form -/
  refcnt_wf : refWf x.refcnt
  /-- REFCNT[t][r] is the number of slots holding r (R45) -/
  refcnt_eq : ∀ r, refCount x.refcnt r = holding x.hist r

/-- The ledger is sound. -/
structure LedgerSound (s : State) : Prop where
  /-- each tree is sound -/
  trees : ∀ t, TreeSound (s.tree t) s.now
  /-- NSET is in canonical form -/
  nset_wf : nsetWf s.nset
  /-- NSET holds nonzero felts (R47) -/
  nset_felt : ∀ n ∈ s.nset, n ≠ 0 ∧ n < Config.fieldP
  /-- NCOUNT counts the nullifiers marked used, modulo 2^64 (R48) -/
  ncount_eq : s.ncount = BitVec.ofNat 64 s.nset.length

/-- STATUS.ERR and CAUSE tell the same: no error and cause 0, or an error and the cause of some fault (R128, R331). -/
def causeAgrees (s : State) : Prop :=
  (s.status.err = false ∧ s.cause = 0) ∨ (s.status.err = true ∧ ∃ e : Trap, s.cause = e.cause)

/-- While a command is in flight, CMDLAST holds its low 32 bits (R70). -/
def engineAgrees (s : State) : Prop := ∀ v, s.engine = some v → s.cmdLast = v.extractLsb' 0 32

/-- The destination registers of a command, in the order of R100: one for most, a block for SWAPI, SWAPO, NTOK, NPOS
(R93), none for the others. -/
def destinations : Instr → List Reg
  | .nop => []
  | .add128 rd _ _ => [rd]
  | .add256 rd _ _ => [rd]
  | .add512 rd _ _ => [rd]
  | .sub128 rd _ _ _ => [rd]
  | .sub256 rd _ _ _ => [rd]
  | .sub512 rd _ _ _ => [rd]
  | .mul128 rd _ _ => [rd]
  | .mul256 rd _ _ => [rd]
  | .divf rd _ _ _ => [rd]
  | .divc rd _ _ _ => [rd]
  | .muldiv rd _ _ _ _ => [rd]
  | .t2p rd _ => [rd]
  | .p2t rd _ => [rd]
  | .tdec rd _ _ => [rd]
  | .amt0 rd _ _ _ _ => [rd]
  | .amt1 rd _ _ _ _ => [rd]
  | .ladd rd _ _ => [rd]
  | .fgchk _ => []
  | .fgchkMono _ _ => []
  | .nxp0 rd _ _ _ _ => [rd]
  | .nxp1 rd _ _ _ _ => [rd]
  | .swapi rd _ _ => [rd, rd + 1, rd + 2, rd + 3]
  | .swapo rd _ _ => [rd, rd + 1, rd + 2, rd + 3]
  | .ntok rd _ => [rd, rd + 1]
  | .npos rd _ => [rd, rd + 1]
  | .insertT0 rd _ => [rd]
  | .insertT1 rd _ => [rd]
  | .insertTP rd _ => [rd]
  | .knownT0 _ => []
  | .knownT1 _ => []
  | .knownTP _ => []
  | .verifyT0 _ _ _ => []
  | .verifyT1 _ _ _ => []
  | .verifyTP _ _ _ => []
  | .nullify _ => []
  | .flushT0 => []
  | .flushT1 => []
  | .flushTP => []

/-- The tree an INSERT appends to (R291). -/
def insertsInto : Instr → Option TreeId
  | .insertT0 _ _ => some .t0
  | .insertT1 _ _ => some .t1
  | .insertTP _ _ => some .tp
  | _ => none

/-- The tree whose pending batch or root a command may change: the tree it names (R291, R296). -/
def namesTree : Instr → Option TreeId
  | .insertT0 _ _ => some .t0
  | .insertT1 _ _ => some .t1
  | .insertTP _ _ => some .tp
  | .knownT0 _ => some .t0
  | .knownT1 _ => some .t1
  | .knownTP _ => some .tp
  | .verifyT0 _ _ _ => some .t0
  | .verifyT1 _ _ _ => some .t1
  | .verifyTP _ _ _ => some .tp
  | .flushT0 => some .t0
  | .flushT1 => some .t1
  | .flushTP => some .tp
  | _ => none

/-- The commands that write FLAGS.C (R27). -/
def writesC : Instr → Bool
  | .add128 _ _ _ => true
  | .add256 _ _ _ => true
  | .add512 _ _ _ => true
  | .sub128 _ _ _ _ => true
  | .sub256 _ _ _ _ => true
  | .sub512 _ _ _ _ => true
  | _ => false

/-- The commands that write FLAGS.OVF (R28). -/
def writesOvf : Instr → Bool
  | .amt0 _ _ _ _ _ => true
  | .amt1 _ _ _ _ _ => true
  | .nxp0 _ _ _ _ _ => true
  | .nxp1 _ _ _ _ _ => true
  | .swapi _ _ _ => true
  | .swapo _ _ _ => true
  | _ => false

/-- The commands that write FLAGS.LIM (R29). -/
def writesLim : Instr → Bool
  | .swapi _ _ _ => true
  | .swapo _ _ _ => true
  | _ => false

/-- The commands that write FLAGS.B (R30). -/
def writesB : Instr → Bool
  | .knownT0 _ => true
  | .knownT1 _ => true
  | .knownTP _ => true
  | .verifyT0 _ _ _ => true
  | .verifyT1 _ _ _ => true
  | .verifyTP _ _ _ => true
  | _ => false

/-- The commands that write FLAGS.N (R31). -/
def writesN : Instr → Bool
  | .tdec _ _ _ => true
  | _ => false

/-! ### What the statements say results with -/

/-- The natural that register `i` holds (R13, R21). -/
def State.val (s : State) (i : Reg) : Nat := (s.reg i).toNat

/-- The operand registers with `v` written to register `i` (R13). -/
def withReg (w : Vector Word512 16) (i : Reg) (v : Nat) : Vector Word512 16 :=
  w.set i.toNat (BitVec.ofNat 512 v) i.isLt

/-- The operand registers with consecutive registers written from `base` on (R93). -/
def withRegs (w : Vector Word512 16) (base : Reg) : List Nat → Vector Word512 16
  | [] => w
  | v :: vs => withRegs (withReg w base v) (base + 1) vs

/-- The state in which a command that started in `s` completed without a fault, having written the registers `w` and the
flags `f`: ERR and CAUSE are 0, the engine is idle, and all else, ERRCMD too, is as it was in `s` (R71, R128). -/
def completed (s : State) (w : Vector Word512 16) (f : Flags) : State :=
  { s with w := w, flags := f, status := { s.status with err := false }, cause := 0, engine := none }

/-- The state in which a command that started in `s` completed with a fault: ERR is 1, CAUSE and ERRCMD report it, the
engine is idle, and all else is as it was in `s` (R127, R331). -/
def faulted (s : State) (code : FaultCode) (info : BitVec 8) : State :=
  { s with status := { s.status with err := true }, cause := Trap.cause ⟨code, info⟩, errCmd := s.inFlightWord,
           engine := none }

/-- The two's-complement slot of a signed value: `x mod 2^256` (R124). -/
def slotOf (x : Int) : Nat := (x % (2 ^ 256 : Int)).toNat

/-- `n / d` rounded up when asked, and down otherwise (R11, R152). -/
def rounded (n d : Nat) (rup : Bool) : Nat := n / d + (if rup = true ∧ n % d ≠ 0 then 1 else 0)

/-- A value lies in the price range of R8. -/
abbrev IsPrice (v : Nat) : Prop := minSqrtRatio ≤ v ∧ v ≤ maxSqrtRatio

/-- `T(t)`, bit by bit of the magnitude, as R172 writes its loop. -/
def priceOf (t : Int) : Nat :=
  let ratio := (List.range 27).foldl (fun ratio i =>
    if t.natAbs.testBit i then ratio * (tickConstants Config.tickTable).getD i 0 / 2 ^ 128 else ratio) (2 ^ 128)
  if 0 < t then (2 ^ 256 - 1) / ratio else ratio

/-- The exact amount of token0 between two prices, before the 128-bit check (R202). -/
def amount0Of (pA pB liq : Nat) (rup : Bool) : Nat :=
  rounded (rounded (liq * 2 ^ 128 * (max pA pB - min pA pB)) (max pA pB) rup) (min pA pB) rup

/-- The exact amount of token1 between two prices, before the 128-bit check (R204). -/
def amount1Of (pA pB liq : Nat) (rup : Bool) : Nat := rounded ((max pA pB - min pA pB) * liq) (2 ^ 128) rup

/-- A price that can be represented; none is the overflow signal (R232, R234). -/
def representable (r : Nat) : Option Nat := if IsPrice r then some r else none

/-- The price after `a` of token0 is added or removed; none is the overflow signal (R232). -/
def next0Of (p liq a : Nat) (add : Bool) : Option Nat :=
  if a = 0 then some p
  else if add = true then
    if liq = 0 then none else representable (rounded (liq * 2 ^ 128 * p) (liq * 2 ^ 128 + a * p) true)
  else if liq * 2 ^ 128 ≤ a * p then none
  else representable (rounded (liq * 2 ^ 128 * p) (liq * 2 ^ 128 - a * p) true)

/-- The price after `a` of token1 is added or removed; none is the overflow signal (R234). -/
def next1Of (p liq a : Nat) (add : Bool) : Option Nat :=
  if a = 0 then some p
  else if liq = 0 then none
  else if add = true then representable (p + rounded (a * 2 ^ 128) liq false)
  else if p ≤ rounded (a * 2 ^ 128) liq true then none
  else representable (p - rounded (a * 2 ^ 128) liq true)

/-- The amount of the input token between two prices, rounded up (R236, R240). -/
def inputOf (up : Bool) (pA pB liq : Nat) : Nat := if up then amount1Of pA pB liq true else amount0Of pA pB liq true

/-- The amount of the output token between two prices, rounded down (R236, R240). -/
def outputOf (up : Bool) (pA pB liq : Nat) : Nat := if up then amount0Of pA pB liq false else amount1Of pA pB liq false

/-- The gross amount of a net amount at fee rate `f` (R237). -/
def grossOf (net f : Nat) : Nat := rounded (net * 2 ^ 128) (2 ^ 128 - f) true

/-- Price `a` lies strictly further in the step's direction than price `b` (R236, R238). -/
abbrev Beyond (up : Bool) (a b : Nat) : Prop := if up = true then b < a else a < b

/-- The operand block of a swap step is in range (R235). -/
abbrev SwapBlockOk (s : State) (b : Reg) : Prop :=
  IsPrice (s.val b) ∧ IsPrice (s.val (b + 1)) ∧ s.val (b + 2) < 2 ^ 128 ∧ s.val (b + 3) < 2 ^ 128 ∧
    s.val (b + 4) < 2 ^ 128

/-- A nullifier and a commitment pass the note check (R273). -/
abbrev NoteOk (nf cm : Nat) : Prop :=
  nf ≠ 0 ∧ nf < Config.fieldP ∧ cm ≠ 0 ∧ cm < Config.fieldP ∧ cm ≠ Config.emptyLeaf

/-- The sibling at level `j` of the path (R25). -/
def State.sibling (s : State) (j : Nat) : Nat := if h : j < 32 then (s.path[j]'h).toNat else 0

/-- `ComputeRoot(leaf, idx)`, bit by bit of the index, as R292 writes its loop. -/
def State.rootOf (s : State) (leaf idx : Nat) : Nat :=
  (List.range Config.treeHeight).foldl (fun h i =>
    if idx.testBit i then Config.nodeHash (s.sibling i) h else Config.nodeHash h (s.sibling i)) leaf

/-- Every path entry that a command reads is a felt (R292). -/
abbrev PathOk (s : State) : Prop := ∀ j < Config.treeHeight, s.sibling j < Config.fieldP

/-- The pending batch is due at time `now` (R296). -/
abbrev Due (x : Tree) (now : Word64) : Prop :=
  x.pend ≠ [] ∧ (Config.batchSize ≤ x.pend.length ∨ x.pendT0.toNat + Config.flushDelay.toNat ≤ now.toNat)

/-- A tree with roots promoted into its history ring, oldest first (R297, R298). -/
def promoted (x : Tree) (roots : List Nat) : Tree := roots.foldl Tree.push x

/-- A tree after the lazy flush at time `now` (R296, R298). -/
def flushed (x : Tree) (now : Word64) : Tree := if Due x now then { promoted x x.pend with pend := [] } else x

/-- A root is known for a tree (R46, R295). -/
abbrev Known (x : Tree) (r : Nat) : Prop := r = x.root ∨ r ∈ x.pend ∨ 0 < refCount x.refcnt r

/-- The tree after an INSERT at time `now` whose new root is `r`: the due batch is flushed, the root made live, the index
advanced, the root buffered, and a batch that is full then is flushed (R300). -/
def afterInsert (x : Tree) (r : Nat) (now : Word64) : Tree :=
  let y := flushed x now
  let z := { y with root := r, next := x.next + 1, pendT0 := if y.pend = [] then now else y.pendT0 }
  if Config.batchSize ≤ y.pend.length + 1 then { promoted z (y.pend ++ [r]) with pend := [] }
  else { z with pend := y.pend ++ [r] }

/-- INSERT into tree `t` (R291). -/
def insertAt (t : TreeId) (rd rs1 : Reg) : Instr :=
  match t with
  | .t0 => .insertT0 rd rs1
  | .t1 => .insertT1 rd rs1
  | .tp => .insertTP rd rs1

/-- KNOWN for tree `t` (R291). -/
def knownAt (t : TreeId) (rs1 : Reg) : Instr :=
  match t with
  | .t0 => .knownT0 rs1
  | .t1 => .knownT1 rs1
  | .tp => .knownTP rs1

/-- VERIFY for tree `t` (R291). -/
def verifyAt (t : TreeId) (rs1 rs2 rs3 : Reg) : Instr :=
  match t with
  | .t0 => .verifyT0 rs1 rs2 rs3
  | .t1 => .verifyT1 rs1 rs2 rs3
  | .tp => .verifyTP rs1 rs2 rs3

/-- FLUSH of tree `t` (R291). -/
def flushAt (t : TreeId) : Instr :=
  match t with
  | .t0 => .flushT0
  | .t1 => .flushT1
  | .tp => .flushTP

/-! ### The operand checks of a command -/

/-- The fault of a check that fails; none when it passes. -/
def faultOf {α : Type} (c : Cmd α) : Option Trap :=
  match c with
  | .ok _ => none
  | .error e => some e

/-- The operand checks of a command in the order its rule lists them, each as the fault it raises, if any: the register
operands in order, then the path entries (R125, R335). -/
def operandFaults (i : Instr) (s : State) : List (Option Trap) :=
  match i with
  | .nop => []
  | .add128 _ a b => [faultOf (opndU 128 a s), faultOf (opndU 128 b s)]
  | .add256 _ a b => [faultOf (opndU 256 a s), faultOf (opndU 256 b s)]
  | .add512 _ a b => [faultOf (opndU 512 a s), faultOf (opndU 512 b s)]
  | .sub128 _ a b _ => [faultOf (opndU 128 a s), faultOf (opndU 128 b s)]
  | .sub256 _ a b _ => [faultOf (opndU 256 a s), faultOf (opndU 256 b s)]
  | .sub512 _ a b _ => [faultOf (opndU 512 a s), faultOf (opndU 512 b s)]
  | .mul128 _ a b => [faultOf (opndU 128 a s), faultOf (opndU 128 b s)]
  | .mul256 _ a b => [faultOf (opndU 256 a s), faultOf (opndU 256 b s)]
  | .divf _ n d q => [faultOf (opndU 512 n s), faultOf (opndU 256 d s), faultOf (opndU 256 q s)]
  | .divc _ n d q => [faultOf (opndU 512 n s), faultOf (opndU 256 d s), faultOf (opndU 256 q s)]
  | .muldiv _ a b d _ => [faultOf (opndU 256 a s), faultOf (opndU 256 b s), faultOf (opndU 256 d s)]
  | .t2p _ t => [faultOf (opndTick maxTick t s)]
  | .p2t _ p => [faultOf (opndPrice p s)]
  | .tdec _ t cur => [faultOf (opndTick (if cur then maxTick + 1 else maxTick) t s)]
  | .amt0 _ a b l _ => [faultOf (opndPrice a s), faultOf (opndPrice b s), faultOf (opndU 128 l s)]
  | .amt1 _ a b l _ => [faultOf (opndPrice a s), faultOf (opndPrice b s), faultOf (opndU 128 l s)]
  | .ladd _ l d => [faultOf (opndU 128 l s), faultOf (opndDelta d s)]
  | .fgchk v => [faultOf (opndFg v s)]
  | .fgchkMono v p => [faultOf (opndFg v s), faultOf (opndFg p s)]
  | .nxp0 _ p l a _ => [faultOf (opndPrice p s), faultOf (opndU 128 l s), faultOf (opndU 128 a s)]
  | .nxp1 _ p l a _ => [faultOf (opndPrice p s), faultOf (opndU 128 l s), faultOf (opndU 128 a s)]
  | .swapi _ b _ => [faultOf (opndPrice b s), faultOf (opndPrice (b + 1) s), faultOf (opndU 128 (b + 2) s),
      faultOf (opndU 128 (b + 3) s), faultOf (opndU 128 (b + 4) s)]
  | .swapo _ b _ => [faultOf (opndPrice b s), faultOf (opndPrice (b + 1) s), faultOf (opndU 128 (b + 2) s),
      faultOf (opndU 128 (b + 3) s), faultOf (opndU 128 (b + 4) s)]
  | .ntok _ b => [faultOf (opndTokid b s), faultOf (opndU 128 (b + 1) s), faultOf (opndFelt (b + 2) s),
      faultOf (opndFelt (b + 3) s)]
  | .npos _ b => [faultOf (opndFelt b s), faultOf (opndFelt (b + 1) s), faultOf (opndTick maxTick (b + 2) s),
      faultOf (opndTick maxTick (b + 3) s), faultOf (opndU 128 (b + 4) s), faultOf (opndFg (b + 5) s),
      faultOf (opndFg (b + 6) s)]
  | .insertT0 _ c => [faultOf (opndFelt c s), faultOf (pathCheck s)]
  | .insertT1 _ c => [faultOf (opndFelt c s), faultOf (pathCheck s)]
  | .insertTP _ c => [faultOf (opndFelt c s), faultOf (pathCheck s)]
  | .knownT0 r => [faultOf (opndFelt r s)]
  | .knownT1 r => [faultOf (opndFelt r s)]
  | .knownTP r => [faultOf (opndFelt r s)]
  | .verifyT0 c i d => [faultOf (opndFelt c s), faultOf (opndIndex i s), faultOf (opndIndex d s), faultOf (pathCheck s)]
  | .verifyT1 c i d => [faultOf (opndFelt c s), faultOf (opndIndex i s), faultOf (opndIndex d s), faultOf (pathCheck s)]
  | .verifyTP c i d => [faultOf (opndFelt c s), faultOf (opndIndex i s), faultOf (opndIndex d s), faultOf (pathCheck s)]
  | .nullify n => [faultOf (opndFelt n s)]
  | .flushT0 => []
  | .flushT1 => []
  | .flushTP => []

/-- The first fault of a list of checks. -/
def firstFault (checks : List (Option Trap)) : Option Trap := checks.findSome? id

/-! ### The encoding table of R100 -/

/-- A row of R100: which MODE bits are named and which register fields are used. FGCHK's RS2 counts as used; with
MONO = 0 it is not (R95). -/
structure RowShape where
  named : BitVec 8
  rd    : Bool
  rs1   : Bool
  rs2   : Bool
  rs3   : Bool
deriving DecidableEq, Repr

/-- R100, row by row; none for a reserved opcode (R101). -/
def rowShape (opc : BitVec 8) : Option RowShape :=
  match opc.toNat with
  | 0x00 => some ⟨0, false, false, false, false⟩
  | 0x10 => some ⟨3, true, true, true, false⟩
  | 0x11 => some ⟨7, true, true, true, false⟩
  | 0x12 => some ⟨3, true, true, true, false⟩
  | 0x13 => some ⟨0, true, true, true, true⟩
  | 0x14 => some ⟨0, true, true, true, true⟩
  | 0x15 => some ⟨1, true, true, true, true⟩
  | 0x20 => some ⟨0, true, true, false, false⟩
  | 0x21 => some ⟨0, true, true, false, false⟩
  | 0x22 => some ⟨1, true, true, false, false⟩
  | 0x30 => some ⟨1, true, true, true, true⟩
  | 0x31 => some ⟨1, true, true, true, true⟩
  | 0x32 => some ⟨0, true, true, true, false⟩
  | 0x33 => some ⟨1, false, true, true, false⟩
  | 0x40 => some ⟨1, true, true, true, true⟩
  | 0x41 => some ⟨1, true, true, true, true⟩
  | 0x42 => some ⟨1, true, true, false, false⟩
  | 0x43 => some ⟨1, true, true, false, false⟩
  | 0x50 => some ⟨0, true, true, false, false⟩
  | 0x51 => some ⟨0, true, true, false, false⟩
  | 0x60 => some ⟨3, true, true, false, false⟩
  | 0x61 => some ⟨3, false, true, false, false⟩
  | 0x62 => some ⟨3, false, true, true, true⟩
  | 0x63 => some ⟨0, false, true, false, false⟩
  | 0x64 => some ⟨3, false, false, false, false⟩
  | _ => none

/-- The opcodes that R101 reserves, by its ranges. -/
abbrev ReservedOpcode (opc : Nat) : Prop :=
  (0x01 ≤ opc ∧ opc ≤ 0x0F) ∨ (0x16 ≤ opc ∧ opc ≤ 0x1F) ∨ (0x23 ≤ opc ∧ opc ≤ 0x2F) ∨ (0x34 ≤ opc ∧ opc ≤ 0x3F) ∨
    (0x44 ≤ opc ∧ opc ≤ 0x4F) ∨ (0x52 ≤ opc ∧ opc ≤ 0x5F) ∨ (0x65 ≤ opc ∧ opc ≤ 0xFF)

/-- The offsets, multiples of 8, that R61 to R64 assign to a register. -/
abbrev AssignedOffset (o : Nat) : Prop :=
  o < 0x850 ∨ (0x860 ≤ o ∧ o < 0x8A0) ∨ (0x900 ≤ o ∧ o < 0x9C0)

/-- The registers of the window whose write is ignored (R63, R64), by offset. -/
abbrev ReadOnlyOffset (o : Nat) : Prop :=
  (0x810 ≤ o ∧ o ≤ 0x820) ∨ (0x830 ≤ o ∧ o < 0x850) ∨ (0x860 ≤ o ∧ o < 0x8A0) ∨ (0x900 ≤ o ∧ o < 0x9C0)

/-! ### What a command reads -/

/-- The operand registers a command reads, in the order of its operand checks (R22, R93, R100). -/
def sources : Instr → List Reg
  | .nop => []
  | .add128 _ a b => [a, b]
  | .add256 _ a b => [a, b]
  | .add512 _ a b => [a, b]
  | .sub128 _ a b _ => [a, b]
  | .sub256 _ a b _ => [a, b]
  | .sub512 _ a b _ => [a, b]
  | .mul128 _ a b => [a, b]
  | .mul256 _ a b => [a, b]
  | .divf _ n d q => [n, d, q]
  | .divc _ n d q => [n, d, q]
  | .muldiv _ a b d _ => [a, b, d]
  | .t2p _ t => [t]
  | .p2t _ p => [p]
  | .tdec _ t _ => [t]
  | .amt0 _ a b l _ => [a, b, l]
  | .amt1 _ a b l _ => [a, b, l]
  | .ladd _ l d => [l, d]
  | .fgchk v => [v]
  | .fgchkMono v p => [v, p]
  | .nxp0 _ p l a _ => [p, l, a]
  | .nxp1 _ p l a _ => [p, l, a]
  | .swapi _ b _ => [b, b + 1, b + 2, b + 3, b + 4]
  | .swapo _ b _ => [b, b + 1, b + 2, b + 3, b + 4]
  | .ntok _ b => [b, b + 1, b + 2, b + 3]
  | .npos _ b => [b, b + 1, b + 2, b + 3, b + 4, b + 5, b + 6]
  | .insertT0 _ c => [c]
  | .insertT1 _ c => [c]
  | .insertTP _ c => [c]
  | .knownT0 r => [r]
  | .knownT1 r => [r]
  | .knownTP r => [r]
  | .verifyT0 c i d => [c, i, d]
  | .verifyT1 c i d => [c, i, d]
  | .verifyTP c i d => [c, i, d]
  | .nullify n => [n]
  | .flushT0 => []
  | .flushT1 => []
  | .flushTP => []

/-- The commands that read the path buffer: INSERT and VERIFY (R25). -/
def readsPath : Instr → Bool
  | .insertT0 _ _ => true
  | .insertT1 _ _ => true
  | .insertTP _ _ => true
  | .verifyT0 _ _ _ => true
  | .verifyT1 _ _ _ => true
  | .verifyTP _ _ _ => true
  | _ => false

/-- Two states have the same ledger (R40 to R48). -/
abbrev SameLedger (s u : State) : Prop := (∀ t, s.tree t = u.tree t) ∧ s.nset = u.nset ∧ s.ncount = u.ncount

/-- Two states agree on what R122 lets the outcome of command `i` depend on: the operand registers it reads, the path
entries it reads (the first TREE_HEIGHT, R25), NOW and the ledger state. -/
abbrev SameInputs (i : Instr) (s u : State) : Prop :=
  (∀ r ∈ sources i, s.reg r = u.reg r) ∧ (readsPath i = true → ∀ j < Config.treeHeight, s.sibling j = u.sibling j) ∧
    s.now = u.now ∧ SameLedger s u

/-! ### The register window -/

/-- A host read of `n` bytes at offset `a` of the window (R60). -/
def readAt (a : BitVec 12) (n : Nat) : Access := .read (Config.zlcBase + a.toNat) n

/-- A host write of `n` bytes at offset `a` of the window (R60). -/
def writeAt (a : BitVec 12) (n : Nat) (v : Word64) : Access := .write (Config.zlcBase + a.toNat) n v

/-- The bits of a word read from STATUS (R33), its BUSY bit being `busy`. -/
abbrev StatusBits (x : Word64) (busy : Bool) (t : Status) : Prop :=
  x.getLsbD 0 = busy ∧ x.getLsbD 1 = t.err ∧ x.getLsbD 2 = t.reent ∧ x.getLsbD 3 = t.wign ∧ x.getLsbD 4 = t.buserr ∧
    x.extractLsb' 5 59 = 0

/-- What the identification and configuration registers read as (R51, R63). -/
abbrev ConstantsRead (s : State) : Prop :=
  hostAccess (readAt 0x838 8) s = { s with readData := 0x000000005A4C4337 } ∧
  hostAccess (readAt 0x840 8) s =
    { s with readData := BitVec.ofNat 64 (Config.treeHeight + Config.batchSize * 2 ^ 16 + 256 * 2 ^ 32) } ∧
  hostAccess (readAt 0x848 8) s = { s with readData := Config.flushDelay } ∧
  ∀ k : Fin 4,
    hostAccess (readAt (BitVec.ofNat 12 (0x860 + 8 * k.val)) 8) s =
      { s with readData := BitVec.ofNat 64 (Config.fieldP / 2 ^ (64 * k.val)) } ∧
    hostAccess (readAt (BitVec.ofNat 12 (0x880 + 8 * k.val)) 8) s =
      { s with readData := BitVec.ofNat 64 (Config.maxFeeGrowth / 2 ^ (64 * k.val)) }

end Sys2Proof.Machine
end

