-- ==== Sys2Proof/Certificates/Slice0/Obligations.lean ====
section
/-! DEFINITION. The statements for the provers, in the order of the spec's files. -/

open Sys2Proof Sys2Proof.Machine

/-! ### Encoding (30_encoding.md) -/

/-- R104, R107: a CMD value decodes to a command exactly when the command is well formed and the value is its encoding. -/
def Obligations.DecodeAndEncodeAgree : Prop :=
  ∀ (v : Word64) (i : Instr), decode v = .ok i ↔ i.wellFormed = true ∧ encodeCmd i = v

/-- R100, R107: words written out from the table decode to the commands they stand for. -/
def Obligations.WrittenWordsDecode : Prop :=
  decode 0x00000000 = .ok .nop ∧ decode 0x10401001 = .ok (.add256 4 0 1) ∧
  decode 0x11532005 = .ok (.sub256 5 3 2 true) ∧ decode 0x13870000 = .ok (.divf 8 7 0 0) ∧
  decode 0x22870000 = .ok (.tdec 8 7 false) ∧ decode 0x30301201 = .ok (.amt0 3 0 1 2 true) ∧
  decode 0x33001001 = .ok (.fgchkMono 0 1) ∧ decode 0x42500000 = .ok (.swapi 5 0 false) ∧
  decode 0x50800000 = .ok (.ntok 8 0) ∧ decode 0x60100000 = .ok (.insertT0 1 0) ∧
  decode 0x62003302 = .ok (.verifyTP 0 3 3) ∧ decode 0x64000001 = .ok .flushT1

/-- R101: a command with a reserved opcode takes ILLEGAL_OPCODE and has no other effect. -/
def Obligations.ReservedOpcodeIsIllegalOpcode : Prop :=
  ∀ (s : State) (v : Word64), v.extractLsb' 32 32 = 0 → ReservedOpcode (v.extractLsb' 24 8).toNat →
    runCommand v s = .next (faulted s .ILLEGAL_OPCODE 0xFF)

/-- R90, R93 to R95, R98, R99, R102, R103: nonzero high bits, an unnamed MODE bit, a nonzero unused field, an illegal WID
or TREE, and a block that leaves W0..W15 each take ILLEGAL_FIELD and have no other effect. -/
def Obligations.IllegalFieldsAreRejected : Prop :=
  ∀ (s : State) (v : Word64),
    (v.extractLsb' 32 32 ≠ 0 → runCommand v s = .next (faulted s .ILLEGAL_FIELD 0xFF)) ∧
    (v.extractLsb' 32 32 = 0 →
      let opc := v.extractLsb' 24 8
      let rd := v.extractLsb' 20 4
      let rs1 := v.extractLsb' 16 4
      let rs2 := v.extractLsb' 12 4
      let rs3 := v.extractLsb' 8 4
      let mode := v.extractLsb' 0 8
      let wid := v.extractLsb' 0 2
      (∀ r, rowShape opc = some r →
        (mode &&& ~~~ r.named ≠ 0 ∨ (r.rd = false ∧ rd ≠ 0) ∨ (r.rs1 = false ∧ rs1 ≠ 0) ∨ (r.rs2 = false ∧ rs2 ≠ 0) ∨
          (r.rs3 = false ∧ rs3 ≠ 0)) → runCommand v s = .next (faulted s .ILLEGAL_FIELD 0xFF)) ∧
      (opc = 0x33 → mode = 0 → rs2 ≠ 0 → runCommand v s = .next (faulted s .ILLEGAL_FIELD 0xFF)) ∧
      ((opc = 0x10 ∨ opc = 0x11 ∨ opc = 0x12) → wid = 3 → runCommand v s = .next (faulted s .ILLEGAL_FIELD 0xFF)) ∧
      (opc = 0x12 → wid = 2 → runCommand v s = .next (faulted s .ILLEGAL_FIELD 0xFF)) ∧
      ((opc = 0x60 ∨ opc = 0x61 ∨ opc = 0x62 ∨ opc = 0x64) → wid = 3 →
        runCommand v s = .next (faulted s .ILLEGAL_FIELD 0xFF)) ∧
      ((opc = 0x42 ∨ opc = 0x43) → (15 < rs1.toNat + 4 ∨ 15 < rd.toNat + 3) →
        runCommand v s = .next (faulted s .ILLEGAL_FIELD 0xFF)) ∧
      (opc = 0x50 → (15 < rs1.toNat + 3 ∨ 15 < rd.toNat + 1) →
        runCommand v s = .next (faulted s .ILLEGAL_FIELD 0xFF)) ∧
      (opc = 0x51 → (15 < rs1.toNat + 6 ∨ 15 < rd.toNat + 1) →
        runCommand v s = .next (faulted s .ILLEGAL_FIELD 0xFF)))

/-! ### Every command (10_state.md, 40_control.md, 60_exceptions.md) -/

/-- R39, R332 to R334: where CAUSE holds the code, the class and the info of a fault, the value of each of the 25 codes,
and which class a code has. -/
def Obligations.CauseHoldsInfoClassAndCode : Prop :=
  (∀ e : Trap, e.cause.extractLsb' 0 8 = e.code.code ∧ e.cause.extractLsb' 8 3 = e.code.cls ∧
    e.cause.extractLsb' 11 5 = 0 ∧ e.cause.extractLsb' 16 8 = e.info ∧ e.cause.extractLsb' 24 40 = 0) ∧
  (∀ c : FaultCode,
    (c.cls = 1 ↔ 0x01 ≤ c.code.toNat ∧ c.code.toNat ≤ 0x0A) ∧ (c.cls = 3 ↔ 0x20 ≤ c.code.toNat ∧ c.code.toNat ≤ 0x24) ∧
    (c.cls = 4 ↔ 0x30 ≤ c.code.toNat ∧ c.code.toNat ≤ 0x34) ∧ (c.cls = 5 ↔ 0x10 ≤ c.code.toNat ∧ c.code.toNat ≤ 0x12) ∧
    (c.cls = 6 ↔ 0x40 ≤ c.code.toNat ∧ c.code.toNat ≤ 0x41) ∧ c.cls ≠ 2 ∧ c.code ≠ 0) ∧
  (∀ c d : FaultCode, c.code = d.code → c = d) ∧
  FaultCode.RANGE_WIDTH.code = 0x01 ∧ FaultCode.RANGE_FIELD.code = 0x02 ∧ FaultCode.RANGE_TICK.code = 0x03 ∧
  FaultCode.RANGE_DELTA.code = 0x04 ∧ FaultCode.RANGE_PRICE.code = 0x05 ∧ FaultCode.RANGE_FEEGROWTH.code = 0x06 ∧
  FaultCode.RANGE_TOKEN_ID.code = 0x07 ∧ FaultCode.RANGE_INDEX.code = 0x08 ∧
  FaultCode.DIRECTION_MISMATCH.code = 0x09 ∧ FaultCode.NOTE_INVALID.code = 0x0A ∧
  FaultCode.DIV_BY_ZERO.code = 0x10 ∧ FaultCode.DIV_OVERFLOW.code = 0x11 ∧ FaultCode.QUOTIENT_REJECTED.code = 0x12 ∧
  FaultCode.SUB_UNDERFLOW.code = 0x20 ∧ FaultCode.WRONG_DIRECTION.code = 0x21 ∧
  FaultCode.LIQUIDITY_UNDERFLOW.code = 0x22 ∧ FaultCode.LIQUIDITY_OVERFLOW.code = 0x23 ∧
  FaultCode.FEE_GROWTH_DECREASE.code = 0x24 ∧ FaultCode.NULLIFIER_USED.code = 0x30 ∧
  FaultCode.NULLIFIER_ZERO.code = 0x31 ∧ FaultCode.EMPTY_SLOT_MISMATCH.code = 0x32 ∧
  FaultCode.TREE_FULL.code = 0x33 ∧ FaultCode.LEDGER_STORE_FULL.code = 0x34 ∧
  FaultCode.ILLEGAL_OPCODE.code = 0x40 ∧ FaultCode.ILLEGAL_FIELD.code = 0x41 ∧
  (∀ i : Reg, (infoReg i).toNat = i.toNat) ∧ (∀ j < 32, (infoPath j).toNat = 0x80 + j) ∧ infoNone = 0xFF

/-- R121, R128: every command completes, the engine is idle then, and a command that did not fault left ERR and CAUSE 0
and ERRCMD as it was. -/
def Obligations.EveryCommandCompletes : Prop :=
  ∀ (i : Instr) (s : State), ∃ t, exec i s = .next t ∧ t.engine = none ∧
    (t.status.err = false → t.cause = 0 ∧ t.errCmd = s.errCmd)

/-- R127: a command that faulted wrote nothing but ERR, CAUSE and ERRCMD. -/
def Obligations.FaultedCommandWritesNothingElse : Prop :=
  ∀ (i : Instr) (s t : State) (v : Word64), s.engine = some v → exec i s = .next t → t.status.err = true →
    ∃ e : Trap, t = { s with status := { s.status with err := true }, cause := e.cause,
                             errCmd := v.extractLsb' 0 32, engine := none }

/-- R125, R335: a command whose operand checks fail takes the first of their faults, in the order its rule lists them. -/
def Obligations.FirstOperandFaultIsTaken : Prop :=
  ∀ (i : Instr) (s : State) (e : Trap), firstFault (operandFaults i s) = some e →
    exec i s = .next (faulted s e.code e.info)

/-- R22: a command writes no operand register but its destinations. -/
def Obligations.OnlyNamedRegistersAreWritten : Prop :=
  ∀ (i : Instr) (s t : State) (r : Reg), exec i s = .next t → r ∉ destinations i → t.reg r = s.reg r

/-- R27 to R32: a command writes only the flags its rule names. -/
def Obligations.FlagsAreWrittenOnlyByTheirCommands : Prop :=
  ∀ (i : Instr) (s t : State), exec i s = .next t →
    (writesC i = false → t.flags.c = s.flags.c) ∧ (writesOvf i = false → t.flags.ovf = s.flags.ovf) ∧
    (writesLim i = false → t.flags.lim = s.flags.lim) ∧ (writesB i = false → t.flags.b = s.flags.b) ∧
    (writesN i = false → t.flags.n = s.flags.n)

/-- R25, R49, R50, R36 to R38: no command writes PATH, NOW, CMDLAST or a sticky bit of STATUS. That it leaves the agenda,
the read port and the free-value counter alone is the model's own (log 3, log 7, log 11). -/
def Obligations.CommandsLeaveTheHostSideAlone : Prop :=
  ∀ (i : Instr) (s t : State), exec i s = .next t →
    t.path = s.path ∧ t.now = s.now ∧ t.cmdLast = s.cmdLast ∧ t.status.reent = s.status.reent ∧
    t.status.wign = s.status.wign ∧ t.status.buserr = s.status.buserr ∧
    t.agenda = s.agenda ∧ t.readData = s.readData ∧ t.freeIndex = s.freeIndex

/-- R42, R300, R302, R303: ROOT and NEXT of a tree change only by an INSERT into it that does not fault: the root to the one computed
with the new commitment, which is known from then on, and the index by one, the old index being returned. The spec marks
R303 as derived from R300. -/
def Obligations.RootAndNextChangeOnlyByInsert : Prop :=
  (∀ (i : Instr) (s t : State) (k : TreeId), exec i s = .next t → insertsInto i ≠ some k ∨ t.status.err = true →
    (t.tree k).root = (s.tree k).root ∧ (t.tree k).next = (s.tree k).next) ∧
  (∀ (k : TreeId) (rd rs1 : Reg) (s t : State), exec (insertAt k rd rs1) s = .next t → t.status.err = false →
    (t.tree k).root = s.rootOf (s.val rs1) (s.tree k).next ∧ (t.tree k).next = (s.tree k).next + 1 ∧
    t.reg rd = BitVec.ofNat 512 (s.tree k).next) ∧
  (∀ (s : State) (k : TreeId), (s.tree k).isKnown (s.tree k).root = true)

/-- R291, R296, R47, R48: a command changes the ledger state of no tree but the one it names, and only NULLIFY changes
NSET, by one element, and NCOUNT, by one modulo 2^64. -/
def Obligations.LedgerChangesOnlyWhereNamed : Prop :=
  ∀ (i : Instr) (s t : State), exec i s = .next t →
    (∀ k, namesTree i ≠ some k → t.tree k = s.tree k) ∧
    ((∀ rs1, i ≠ .nullify rs1) → t.nset = s.nset ∧ t.ncount = s.ncount) ∧
    (∀ rs1, i = .nullify rs1 → t.status.err = false →
      t.ncount = s.ncount + 1 ∧ s.val rs1 ∉ s.nset ∧ ∀ m, m ∈ t.nset ↔ m = s.val rs1 ∨ m ∈ s.nset)

/-- R122: whether a command faults, with which cause, and every value it writes are decided by the command word, the operand
registers and path entries it reads, NOW and the ledger state: whatever the other registers, FLAGS and STATUS hold. -/
def Obligations.OutcomeDependsOnlyOnTheInputs : Prop :=
  ∀ (i : Instr) (s u s' u' : State), SameInputs i s u → exec i s = .next s' → exec i u = .next u' →
    s'.status.err = u'.status.err ∧ s'.cause = u'.cause ∧ SameLedger s' u' ∧
    (s.engine = u.engine → s.engine ≠ none → s'.status.err = true → s'.errCmd = u'.errCmd) ∧
    (s'.status.err = false →
      (∀ r ∈ destinations i, s'.reg r = u'.reg r) ∧
      (writesC i = true → s'.flags.c = u'.flags.c) ∧ (writesOvf i = true → s'.flags.ovf = u'.flags.ovf) ∧
      (writesLim i = true → s'.flags.lim = u'.flags.lim) ∧ (writesB i = true → s'.flags.b = u'.flags.b) ∧
      (writesN i = true → s'.flags.n = u'.flags.n))

/-- R123: the checks of the unsigned and field operand types, in order, and the value returned. -/
def Obligations.UnsignedOperandTypes : Prop :=
  ∀ (s : State) (i : Reg),
    opndU 128 i s = (if s.val i < 2 ^ 128 then .ok (s.val i) else .error ⟨.RANGE_WIDTH, infoReg i⟩) ∧
    opndU 256 i s = (if s.val i < 2 ^ 256 then .ok (s.val i) else .error ⟨.RANGE_WIDTH, infoReg i⟩) ∧
    opndU 512 i s = .ok (s.val i) ∧
    opndFelt i s = (if 2 ^ 256 ≤ s.val i then .error ⟨.RANGE_WIDTH, infoReg i⟩
      else if s.val i < Config.fieldP then .ok (s.val i) else .error ⟨.RANGE_FIELD, infoReg i⟩) ∧
    opndPrice i s = (if 2 ^ 256 ≤ s.val i then .error ⟨.RANGE_WIDTH, infoReg i⟩
      else if IsPrice (s.val i) then .ok (s.val i) else .error ⟨.RANGE_PRICE, infoReg i⟩) ∧
    opndFg i s = (if 2 ^ 256 ≤ s.val i then .error ⟨.RANGE_WIDTH, infoReg i⟩
      else if s.val i ≤ Config.maxFeeGrowth then .ok (s.val i) else .error ⟨.RANGE_FEEGROWTH, infoReg i⟩) ∧
    opndTokid i s = (if 2 ^ 256 ≤ s.val i then .error ⟨.RANGE_WIDTH, infoReg i⟩
      else if s.val i = 0 ∨ s.val i = 1 then .ok (s.val i) else .error ⟨.RANGE_TOKEN_ID, infoReg i⟩) ∧
    opndIndex i s = (if 2 ^ 256 ≤ s.val i then .error ⟨.RANGE_WIDTH, infoReg i⟩
      else if s.val i < 2 ^ Config.treeHeight then .ok (s.val i) else .error ⟨.RANGE_INDEX, infoReg i⟩)

/-- R124: a tick slot decodes to the tick it encodes, for the ticks in range and no other value; a delta slot likewise. -/
def Obligations.SignedSlotsDecode : Prop :=
  ∀ (s : State) (i : Reg),
    (∀ neg : Nat, neg = maxTick ∨ neg = maxTick + 1 →
      (∀ t : Int, -(neg : Int) ≤ t → t ≤ maxTick → s.val i = slotOf t → opndTick neg i s = .ok t) ∧
      (2 ^ 256 ≤ s.val i → opndTick neg i s = .error ⟨.RANGE_WIDTH, infoReg i⟩) ∧
      (s.val i < 2 ^ 256 → (∀ t : Int, -(neg : Int) ≤ t → t ≤ maxTick → s.val i ≠ slotOf t) →
        opndTick neg i s = .error ⟨.RANGE_TICK, infoReg i⟩)) ∧
    (∀ d : Int, -(2 ^ 128 : Int) < d → d < 2 ^ 128 → s.val i = slotOf d → opndDelta i s = .ok d) ∧
    (2 ^ 256 ≤ s.val i → opndDelta i s = .error ⟨.RANGE_WIDTH, infoReg i⟩) ∧
    (s.val i < 2 ^ 256 → (∀ d : Int, -(2 ^ 128 : Int) < d → d < 2 ^ 128 → s.val i ≠ slotOf d) →
      opndDelta i s = .error ⟨.RANGE_DELTA, infoReg i⟩)

/-- R130: NOP completes and changes nothing but ERR and CAUSE. -/
def Obligations.NopOnlyCompletes : Prop := ∀ s : State, exec .nop s = .next (completed s s.w s.flags)

/-! ### BigIntEngine (41_bigint.md) -/

/-- R141: ADD.128, ADD.256 and ADD.512 write the sum modulo 2^W and its carry. -/
def Obligations.AddWritesSumAndCarry : Prop :=
  ∀ (s : State) (rd rs1 rs2 : Reg),
    let sum := s.val rs1 + s.val rs2
    (s.val rs1 < 2 ^ 128 → s.val rs2 < 2 ^ 128 → exec (.add128 rd rs1 rs2) s =
      .next (completed s (withReg s.w rd (sum % 2 ^ 128)) { s.flags with c := decide (2 ^ 128 ≤ sum) })) ∧
    (s.val rs1 < 2 ^ 256 → s.val rs2 < 2 ^ 256 → exec (.add256 rd rs1 rs2) s =
      .next (completed s (withReg s.w rd (sum % 2 ^ 256)) { s.flags with c := decide (2 ^ 256 ≤ sum) })) ∧
    exec (.add512 rd rs1 rs2) s =
      .next (completed s (withReg s.w rd (sum % 2 ^ 512)) { s.flags with c := decide (2 ^ 512 ≤ sum) })

/-- R143: SUB.128, SUB.256 and SUB.512 write the difference modulo 2^W and the borrow; without UF a borrow is the fault
SUB_UNDERFLOW. -/
def Obligations.SubWritesDifferenceAndBorrow : Prop :=
  ∀ (s : State) (rd rs1 rs2 : Reg) (uf : Bool),
    let a := s.val rs1
    let b := s.val rs2
    let result := fun n : Nat =>
      completed s (withReg s.w rd (((a : Int) - b) % (2 ^ n : Nat)).toNat) { s.flags with c := decide (a < b) }
    ((b ≤ a ∨ uf = true) →
      (a < 2 ^ 128 → b < 2 ^ 128 → exec (.sub128 rd rs1 rs2 uf) s = .next (result 128)) ∧
      (a < 2 ^ 256 → b < 2 ^ 256 → exec (.sub256 rd rs1 rs2 uf) s = .next (result 256)) ∧
      exec (.sub512 rd rs1 rs2 uf) s = .next (result 512)) ∧
    (a < b → uf = false →
      (b < 2 ^ 128 → exec (.sub128 rd rs1 rs2 uf) s = .next (faulted s .SUB_UNDERFLOW 0xFF)) ∧
      (b < 2 ^ 256 → exec (.sub256 rd rs1 rs2 uf) s = .next (faulted s .SUB_UNDERFLOW 0xFF)) ∧
      exec (.sub512 rd rs1 rs2 uf) s = .next (faulted s .SUB_UNDERFLOW 0xFF))

/-- R145: MUL.128 and MUL.256 write the exact product, no bit of which is lost (R146, which the spec marks as derived from
R145), and no flag. -/
def Obligations.MulWritesTheExactProduct : Prop :=
  ∀ (s : State) (rd rs1 rs2 : Reg),
    let done := completed s (withReg s.w rd (s.val rs1 * s.val rs2)) s.flags
    (s.val rs1 < 2 ^ 128 → s.val rs2 < 2 ^ 128 →
      exec (.mul128 rd rs1 rs2) s = .next done ∧ done.val rd = s.val rs1 * s.val rs2) ∧
    (s.val rs1 < 2 ^ 256 → s.val rs2 < 2 ^ 256 →
      exec (.mul256 rd rs1 rs2) s = .next done ∧ done.val rd = s.val rs1 * s.val rs2)

/-- R147, R149, R150: DIVF accepts the floor quotient as its witness, DIVC the ceiling quotient, and neither accepts any
other value. -/
def Obligations.DivisionAcceptsOnlyTheQuotient : Prop :=
  ∀ (s : State) (rd rs1 rs2 rs3 : Reg), s.val rs2 < 2 ^ 256 → s.val rs3 < 2 ^ 256 → s.val rs2 ≠ 0 →
    let floor := rounded (s.val rs1) (s.val rs2) false
    let ceil := rounded (s.val rs1) (s.val rs2) true
    let done := completed s (withReg s.w rd (s.val rs3)) s.flags
    let rejected := faulted s .QUOTIENT_REJECTED (infoReg rs3)
    (floor < 2 ^ 256 →
      (s.val rs3 = floor → exec (.divf rd rs1 rs2 rs3) s = .next done) ∧
      (s.val rs3 ≠ floor → exec (.divf rd rs1 rs2 rs3) s = .next rejected)) ∧
    (ceil < 2 ^ 256 →
      (s.val rs3 = ceil → exec (.divc rd rs1 rs2 rs3) s = .next done) ∧
      (s.val rs3 ≠ ceil → exec (.divc rd rs1 rs2 rs3) s = .next rejected))

/-- R148: DIVF and DIVC report a zero divisor first, then a quotient that does not fit 256 bits, whatever the witness. -/
def Obligations.DivisionChecksComeInOrder : Prop :=
  ∀ (s : State) (rd rs1 rs2 rs3 : Reg), s.val rs2 < 2 ^ 256 → s.val rs3 < 2 ^ 256 →
    (s.val rs2 = 0 →
      exec (.divf rd rs1 rs2 rs3) s = .next (faulted s .DIV_BY_ZERO (infoReg rs2)) ∧
      exec (.divc rd rs1 rs2 rs3) s = .next (faulted s .DIV_BY_ZERO (infoReg rs2))) ∧
    (s.val rs2 ≠ 0 →
      (2 ^ 256 ≤ rounded (s.val rs1) (s.val rs2) false →
        exec (.divf rd rs1 rs2 rs3) s = .next (faulted s .DIV_OVERFLOW 0xFF)) ∧
      (2 ^ 256 ≤ rounded (s.val rs1) (s.val rs2) true →
        exec (.divc rd rs1 rs2 rs3) s = .next (faulted s .DIV_OVERFLOW 0xFF)))

/-- R151, R152: MULDIV writes the exact product divided and rounded as asked, or takes the division's fault. -/
def Obligations.MuldivRoundsAsAsked : Prop :=
  ∀ (s : State) (rd rs1 rs2 rs3 : Reg) (rup : Bool),
    let q := rounded (s.val rs1 * s.val rs2) (s.val rs3) rup
    s.val rs1 < 2 ^ 256 → s.val rs2 < 2 ^ 256 → s.val rs3 < 2 ^ 256 →
    (s.val rs3 ≠ 0 → q < 2 ^ 256 →
      exec (.muldiv rd rs1 rs2 rs3 rup) s = .next (completed s (withReg s.w rd q) s.flags)) ∧
    (s.val rs3 = 0 → exec (.muldiv rd rs1 rs2 rs3 rup) s = .next (faulted s .DIV_BY_ZERO (infoReg rs3))) ∧
    (s.val rs3 ≠ 0 → 2 ^ 256 ≤ q → exec (.muldiv rd rs1 rs2 rs3 rup) s = .next (faulted s .DIV_OVERFLOW 0xFF))

/-! ### TickMath (42_tickmath.md) -/

/-- R172, R173: T2P writes the price of its tick, computed as R172 writes it, and rejects the current-tick sentinel; the
prices of tick 0 and of the two ends are those of R8 and R173. -/
def Obligations.T2pWritesThePriceOfTheTick : Prop :=
  (∀ (s : State) (rd rs1 : Reg),
    (∀ t : Int, -(maxTick : Int) ≤ t → t ≤ maxTick → s.val rs1 = slotOf t →
      exec (.t2p rd rs1) s = .next (completed s (withReg s.w rd (priceOf t)) s.flags)) ∧
    (s.val rs1 = slotOf (-(maxTick : Int) - 1) →
      exec (.t2p rd rs1) s = .next (faulted s .RANGE_TICK (infoReg rs1)))) ∧
  priceOf 0 = 2 ^ 128 ∧ priceOf (-(maxTick : Int)) = minSqrtRatio ∧ priceOf maxTick = maxSqrtRatio

/-- R176: P2T writes the slot of the greatest tick whose price does not exceed its operand. -/
def Obligations.P2tWritesTheGreatestTick : Prop :=
  ∀ (s : State) (rd rs1 : Reg), IsPrice (s.val rs1) →
    ∃ t : Int, -(maxTick : Int) ≤ t ∧ t ≤ maxTick ∧ priceOf t ≤ s.val rs1 ∧
      (∀ u : Int, -(maxTick : Int) ≤ u → u ≤ maxTick → priceOf u ≤ s.val rs1 → u ≤ t) ∧
      exec (.p2t rd rs1) s = .next (completed s (withReg s.w rd (slotOf t)) s.flags)

/-- R173, R176: P2T of T2P of a tick is the tick. The spec marks this round trip, R177, as derived under the monotonicity
of T, which it does not assume (I9). -/
def Obligations.PriceOfATickGoesBackToTheTick : Prop :=
  ∀ (s : State) (rd rd' rs1 : Reg) (t : Int), -(maxTick : Int) ≤ t → t ≤ maxTick → s.val rs1 = slotOf t →
    ∃ u v, exec (.t2p rd rs1) s = .next u ∧ exec (.p2t rd' rd) u = .next v ∧ v.status.err = false ∧
      v.val rd' = slotOf t

/-- R178: TDEC writes the magnitude and the sign of a tick; with CUR, and only with it, it takes the tick one below the
lowest. -/
def Obligations.TdecWritesMagnitudeAndSign : Prop :=
  ∀ (s : State) (rd rs1 : Reg) (cur : Bool) (t : Int), s.val rs1 = slotOf t →
    (-(maxTick : Int) ≤ t → t ≤ maxTick → exec (.tdec rd rs1 cur) s =
      .next (completed s (withReg s.w rd t.natAbs) { s.flags with n := decide (t < 0) })) ∧
    (t = -(maxTick : Int) - 1 →
      exec (.tdec rd rs1 true) s = .next (completed s (withReg s.w rd 88722884) { s.flags with n := true }) ∧
      exec (.tdec rd rs1 false) s = .next (faulted s .RANGE_TICK (infoReg rs1))) ∧
    (t = (maxTick : Int) + 1 → exec (.tdec rd rs1 cur) s = .next (faulted s .RANGE_TICK (infoReg rs1)))

/-! ### LiquidityMath (43_liquidity.md) -/

/-- R201 to R204: AMT0 writes the amount of its two chained divisions and AMT1 that of its single one, or 0 and OVF when it
does not fit 128 bits; neither ever takes a division fault. -/
def Obligations.AmountsBetweenTwoPrices : Prop :=
  ∀ (s : State) (rd rs1 rs2 rs3 : Reg) (rup : Bool), IsPrice (s.val rs1) → IsPrice (s.val rs2) → s.val rs3 < 2 ^ 128 →
    let result := fun r : Nat =>
      completed s (withReg s.w rd (if 2 ^ 128 ≤ r then 0 else r)) { s.flags with ovf := decide (2 ^ 128 ≤ r) }
    exec (.amt0 rd rs1 rs2 rs3 rup) s = .next (result (amount0Of (s.val rs1) (s.val rs2) (s.val rs3) rup)) ∧
    exec (.amt1 rd rs1 rs2 rs3 rup) s = .next (result (amount1Of (s.val rs1) (s.val rs2) (s.val rs3) rup))

/-- R205, R206: LADD writes liquidity plus delta, or takes LIQUIDITY_UNDERFLOW or LIQUIDITY_OVERFLOW with INFO naming the
delta's register. -/
def Obligations.LaddAppliesTheDelta : Prop :=
  ∀ (s : State) (rd rs1 rs2 : Reg) (d : Int), s.val rs1 < 2 ^ 128 → -(2 ^ 128 : Int) < d → d < 2 ^ 128 →
    s.val rs2 = slotOf d →
    (∀ m : Nat, (s.val rs1 : Int) + d = m → m < 2 ^ 128 →
      exec (.ladd rd rs1 rs2) s = .next (completed s (withReg s.w rd m) s.flags)) ∧
    ((s.val rs1 : Int) + d < 0 →
      exec (.ladd rd rs1 rs2) s = .next (faulted s .LIQUIDITY_UNDERFLOW (infoReg rs2))) ∧
    (2 ^ 128 ≤ (s.val rs1 : Int) + d →
      exec (.ladd rd rs1 rs2) s = .next (faulted s .LIQUIDITY_OVERFLOW (infoReg rs2)))

/-- R207: FGCHK passes a value up to MAX_FEE_GROWTH and, with MONO, one not below the previous value; it writes no
register and no flag. -/
def Obligations.FgchkChecksBoundAndOrder : Prop :=
  ∀ (s : State) (rs1 rs2 : Reg),
    (s.val rs1 ≤ Config.maxFeeGrowth →
      exec (.fgchk rs1) s = .next (completed s s.w s.flags) ∧
      (s.val rs2 ≤ s.val rs1 → exec (.fgchkMono rs1 rs2) s = .next (completed s s.w s.flags)) ∧
      (s.val rs2 ≤ Config.maxFeeGrowth → exec (.fgchkMono rs1 rs2) s =
        .next (if s.val rs1 < s.val rs2 then faulted s .FEE_GROWTH_DECREASE (infoReg rs1)
          else completed s s.w s.flags)) ∧
      (Config.maxFeeGrowth < s.val rs2 → s.val rs2 < 2 ^ 256 →
        exec (.fgchkMono rs1 rs2) s = .next (faulted s .RANGE_FEEGROWTH (infoReg rs2)))) ∧
    (Config.maxFeeGrowth < s.val rs1 → s.val rs1 < 2 ^ 256 →
      exec (.fgchk rs1) s = .next (faulted s .RANGE_FEEGROWTH (infoReg rs1)) ∧
      exec (.fgchkMono rs1 rs2) s = .next (faulted s .RANGE_FEEGROWTH (infoReg rs1)))

/-! ### SwapStep (44_swapstep.md) -/

/-- R231 to R234: NXP0 writes the price after an amount of token0 is added or removed and NXP1 that of token1, or 0 and OVF
when there is none. The spec marks the formulas as general knowledge (I15, log 21). -/
def Obligations.NextPricesFromAmounts : Prop :=
  ∀ (s : State) (rd rs1 rs2 rs3 : Reg) (addf : Bool), IsPrice (s.val rs1) → s.val rs2 < 2 ^ 128 → s.val rs3 < 2 ^ 128 →
    let result := fun r : Option Nat =>
      completed s (withReg s.w rd (r.getD 0)) { s.flags with ovf := r.isNone }
    exec (.nxp0 rd rs1 rs2 rs3 addf) s = .next (result (next0Of (s.val rs1) (s.val rs2) (s.val rs3) addf)) ∧
    exec (.nxp1 rd rs1 rs2 rs3 addf) s = .next (result (next1Of (s.val rs1) (s.val rs2) (s.val rs3) addf))

/-- R231 to R234: adding token0 does not raise the price and removing it does not lower it; with token1 the other way; and a
price that is not an overflow is in range. It rests on the formulas of I15 (log 21). -/
def Obligations.NextPriceMovesWithTheAmount : Prop :=
  ∀ (s t : State) (rd rs1 rs2 rs3 : Reg) (addf : Bool),
    (exec (.nxp0 rd rs1 rs2 rs3 addf) s = .next t → t.status.err = false → t.flags.ovf = false →
      IsPrice (t.val rd) ∧ (addf = true → t.val rd ≤ s.val rs1) ∧ (addf = false → s.val rs1 ≤ t.val rd)) ∧
    (exec (.nxp1 rd rs1 rs2 rs3 addf) s = .next t → t.status.err = false → t.flags.ovf = false →
      IsPrice (t.val rd) ∧ (addf = true → s.val rs1 ≤ t.val rd) ∧ (addf = false → t.val rd ≤ s.val rs1))

/-- R239: the early exits of SWAPI and SWAPO, in their order: no amount or no distance, a limit on the wrong side, no
liquidity. -/
def Obligations.SwapStepsLeaveEarly : Prop :=
  ∀ (s : State) (rd b : Reg) (up : Bool) (i : Instr), i = .swapi rd b up ∨ i = .swapo rd b up → SwapBlockOk s b →
    let start := s.val b
    let limit := s.val (b + 1)
    let liq := s.val (b + 2)
    let amount := s.val (b + 3)
    ((amount = 0 ∨ limit = start) → exec i s =
      .next (completed s (withRegs s.w rd [start, 0, 0, 0]) { s.flags with lim := false, ovf := false })) ∧
    (amount ≠ 0 → Beyond up start limit → exec i s = .next (faulted s .WRONG_DIRECTION (infoReg (b + 1)))) ∧
    (amount ≠ 0 → Beyond up limit start → liq = 0 → exec i s =
      .next (completed s (withRegs s.w rd [limit, 0, 0, 0]) { s.flags with lim := true, ovf := false }))

/-- R240 to R242: SWAPI past the early exits, first unlimited, then limited. The tentative price is that of R232 or R234,
formulas which the spec marks as general knowledge (I15, log 21). -/
def Obligations.SwapiTakesOneStep : Prop :=
  ∀ (s : State) (rd b : Reg) (up : Bool), SwapBlockOk s b →
    let start := s.val b
    let limit := s.val (b + 1)
    let liq := s.val (b + 2)
    let amount := s.val (b + 3)
    let f := s.val (b + 4)
    let fee := rounded (amount * f) (2 ^ 128) true
    let target := if up = true then next1Of start liq (amount - fee) true else next0Of start liq (amount - fee) true
    amount ≠ 0 → Beyond up limit start → liq ≠ 0 →
    (∀ p, target = some p → ¬ Beyond up p limit →
      let out := outputOf up p start liq
      exec (.swapi rd b up) s = .next (completed s
        (withRegs s.w rd (if 2 ^ 128 ≤ out then [0, 0, 0, 0] else [p, amount, out, fee]))
        { s.flags with lim := false, ovf := decide (2 ^ 128 ≤ out) })) ∧
    ((∀ p, target = some p → Beyond up p limit) →
      let net := inputOf up limit start liq
      let out := outputOf up limit start liq
      let gross := grossOf net f
      let tooBig := 2 ^ 128 ≤ net ∨ 2 ^ 128 ≤ out ∨ 2 ^ 128 ≤ gross
      exec (.swapi rd b up) s = .next (completed s
        (withRegs s.w rd (if tooBig then [0, 0, 0, 0] else [limit, gross, out, gross - net]))
        { s.flags with lim := true, ovf := decide tooBig }))

/-- R250: SWAPO past the early exits, first unlimited, then limited. The spec marks R250 and the formulas
of R232 and R234 as general knowledge (I15, I16, log 21). -/
def Obligations.SwapoTakesOneStep : Prop :=
  ∀ (s : State) (rd b : Reg) (up : Bool), SwapBlockOk s b →
    let start := s.val b
    let limit := s.val (b + 1)
    let liq := s.val (b + 2)
    let amount := s.val (b + 3)
    let f := s.val (b + 4)
    let target := if up = true then next0Of start liq amount false else next1Of start liq amount false
    amount ≠ 0 → Beyond up limit start → liq ≠ 0 →
    (∀ p, target = some p → ¬ Beyond up p limit →
      let net := inputOf up p start liq
      let gross := grossOf net f
      let tooBig := 2 ^ 128 ≤ net ∨ 2 ^ 128 ≤ gross
      exec (.swapo rd b up) s = .next (completed s
        (withRegs s.w rd (if tooBig then [0, 0, 0, 0] else [p, gross, amount, gross - net]))
        { s.flags with lim := false, ovf := decide tooBig })) ∧
    ((∀ p, target = some p → Beyond up p limit) →
      let net := inputOf up limit start liq
      let out := outputOf up limit start liq
      let gross := grossOf net f
      let tooBig := 2 ^ 128 ≤ net ∨ 2 ^ 128 ≤ out ∨ 2 ^ 128 ≤ gross
      exec (.swapo rd b up) s = .next (completed s
        (withRegs s.w rd (if tooBig then [0, 0, 0, 0] else [limit, gross, out, gross - net]))
        { s.flags with lim := true, ovf := decide tooBig }))

/-- R243, R251: a swap step that does not overflow moves the price in its direction, and never past the limit.
The spec names it as a property to be proved (I10). It rests on the formulas of I15 and I16 (log 21). -/
def Obligations.SwapPriceNeverCrossesTheLimit : Prop :=
  ∀ (s t : State) (rd b : Reg) (up : Bool) (i : Instr), i = .swapi rd b up ∨ i = .swapo rd b up →
    exec i s = .next t → t.status.err = false → t.flags.ovf = false →
    ¬ Beyond up (s.val b) (t.val rd) ∧ (t.val rd = s.val b ∨ ¬ Beyond up (t.val rd) (s.val (b + 1)))

/-- R243, R251: in a swap step that does not overflow the fee is at most the amount in; an unlimited step whose limit is not
its start price uses the whole amount asked for, and a limited one at most that. The spec
names these as properties to be proved (I10). They rest on the formulas of I15 and I16 (log 21). -/
def Obligations.SwapAmountsStayWithinTheRequest : Prop :=
  ∀ (s t : State) (rd b : Reg) (up : Bool),
    (∀ i, i = .swapi rd b up ∨ i = .swapo rd b up → exec i s = .next t → t.status.err = false → t.flags.ovf = false →
      t.val (rd + 3) ≤ t.val (rd + 1)) ∧
    (exec (.swapi rd b up) s = .next t → t.status.err = false → t.flags.ovf = false →
      (t.flags.lim = false → s.val (b + 1) ≠ s.val b → t.val (rd + 1) = s.val (b + 3)) ∧
      (t.flags.lim = true → t.val (rd + 1) ≤ s.val (b + 3))) ∧
    (exec (.swapo rd b up) s = .next t → t.status.err = false → t.flags.ovf = false →
      (t.flags.lim = false → s.val (b + 1) ≠ s.val b → t.val (rd + 2) = s.val (b + 3)) ∧
      (t.flags.lim = true → t.val (rd + 2) ≤ s.val (b + 3)))

/-! ### NoteModel (45_notes.md) -/

/-- R271, R273: NTOK writes the nullifier and the commitment of a token note when both pass the note check, and otherwise
takes NOTE_INVALID. -/
def Obligations.NtokHashesAndChecks : Prop :=
  ∀ (s : State) (rd b : Reg), s.val b < 2 → s.val (b + 1) < 2 ^ 128 → s.val (b + 2) < Config.fieldP →
    s.val (b + 3) < Config.fieldP →
    let nf := Config.hash [Config.tagProtocol, Config.typeToken, s.val b, s.val (b + 2), s.val (b + 3)]
    let cm := Config.hash [Config.tagProtocol, Config.typeToken, s.val b, s.val (b + 1), s.val (b + 2), nf]
    exec (.ntok rd b) s =
      .next (if NoteOk nf cm then completed s (withRegs s.w rd [nf, cm]) s.flags else faulted s .NOTE_INVALID 0xFF)

/-- R273 to R275: NPOS writes the nullifier and the commitment of a position note when both pass the note check, and
otherwise takes NOTE_INVALID. The nine fields after the tags stand in the order of POSITION_LAYOUT, a rearrangement of
them (log 16). -/
def Obligations.NposHashesAndChecks : Prop :=
  Config.positionLayout.Perm (List.range 9) ∧
  ∀ (s : State) (rd b : Reg) (tl tu : Int), s.val b < Config.fieldP → s.val (b + 1) < Config.fieldP →
    -(maxTick : Int) ≤ tl → tl ≤ maxTick → s.val (b + 2) = slotOf tl →
    -(maxTick : Int) ≤ tu → tu ≤ maxTick → s.val (b + 3) = slotOf tu →
    s.val (b + 4) < 2 ^ 128 → s.val (b + 5) ≤ Config.maxFeeGrowth → s.val (b + 6) ≤ Config.maxFeeGrowth →
    let nf := Config.hash [Config.tagProtocol, Config.typePosition, s.val b, s.val (b + 1)]
    let fields := [Config.tickFelt tl, Config.tickFelt tu, s.val (b + 4), s.val (b + 5) % 2 ^ 128,
      s.val (b + 5) / 2 ^ 128, s.val (b + 6) % 2 ^ 128, s.val (b + 6) / 2 ^ 128, s.val b, nf]
    let cm := Config.hash ([Config.tagProtocol, Config.typePosition] ++
      Config.positionLayout.map fun i => fields.getD i 0)
    exec (.npos rd b) s =
      .next (if NoteOk nf cm then completed s (withRegs s.w rd [nf, cm]) s.flags else faulted s .NOTE_INVALID 0xFF)

/-! ### ShieldedLedger (46_ledger.md) -/

/-- R300: INSERT.T0, INSERT.T1 and INSERT.TP append a commitment: the tree becomes the one R300 describes and the leaf index
is returned. -/
def Obligations.InsertAppendsToTheTree : Prop :=
  ∀ (s : State) (k : TreeId) (rd rs1 : Reg),
    let x := s.tree k
    s.val rs1 < Config.fieldP → PathOk s → s.val rs1 ≠ 0 → s.val rs1 ≠ Config.emptyLeaf →
    x.next ≠ 2 ^ Config.treeHeight → s.rootOf Config.emptyLeaf x.next = x.root →
    exec (insertAt k rd rs1) s = .next ((completed s (withReg s.w rd x.next) s.flags).setTree k
      (afterInsert x (s.rootOf (s.val rs1) x.next) s.now))

/-- R292, R300, R335: the faults of INSERT after its commitment operand, in their order. -/
def Obligations.InsertChecksComeInOrder : Prop :=
  ∀ (s : State) (k : TreeId) (rd rs1 : Reg),
    let x := s.tree k
    s.val rs1 < Config.fieldP →
    (∀ j < Config.treeHeight, Config.fieldP ≤ s.sibling j → (∀ m < j, s.sibling m < Config.fieldP) →
      exec (insertAt k rd rs1) s = .next (faulted s .RANGE_FIELD (infoPath j))) ∧
    (PathOk s →
      ((s.val rs1 = 0 ∨ s.val rs1 = Config.emptyLeaf) →
        exec (insertAt k rd rs1) s = .next (faulted s .NOTE_INVALID (infoReg rs1))) ∧
      (s.val rs1 ≠ 0 → s.val rs1 ≠ Config.emptyLeaf →
        (x.next = 2 ^ Config.treeHeight →
          exec (insertAt k rd rs1) s = .next (faulted s .TREE_FULL 0xFF)) ∧
        (x.next ≠ 2 ^ Config.treeHeight → s.rootOf Config.emptyLeaf x.next ≠ x.root →
          exec (insertAt k rd rs1) s = .next (faulted s .EMPTY_SLOT_MISMATCH 0xFF))))

/-- R305, R295: KNOWN.T0, KNOWN.T1 and KNOWN.TP flush a due batch and then tell whether the root is known; for a sound tree
the history window is what the ring's slots hold. -/
def Obligations.KnownTellsWhetherARootIsKnown : Prop :=
  ∀ (s : State) (k : TreeId) (rs1 : Reg), s.val rs1 < Config.fieldP →
    let y := flushed (s.tree k) s.now
    exec (knownAt k rs1) s =
      .next ((completed s s.w { s.flags with b := decide (Known y (s.val rs1)) }).setTree k y) ∧
    (TreeSound (s.tree k) s.now → (0 < refCount y.refcnt (s.val rs1) ↔ ∃ n : Fin 256, y.hist[n.val] = some (s.val rs1)))

/-- R310, R311: VERIFY.T0, VERIFY.T1 and VERIFY.TP tell whether the root of a membership path is known, and take
DIRECTION_MISMATCH when the directions are not the index. -/
def Obligations.VerifyTellsWhetherAPathIsKnown : Prop :=
  ∀ (s : State) (k : TreeId) (rs1 rs2 rs3 : Reg), s.val rs1 < Config.fieldP → s.val rs2 < 2 ^ Config.treeHeight →
    s.val rs3 < 2 ^ Config.treeHeight → PathOk s →
    let y := flushed (s.tree k) s.now
    (s.val rs3 = s.val rs2 → exec (verifyAt k rs1 rs2 rs3) s =
      .next ((completed s s.w
        { s.flags with b := decide (Known y (s.rootOf (s.val rs1) (s.val rs2))) }).setTree k y)) ∧
    (s.val rs3 ≠ s.val rs2 →
      exec (verifyAt k rs1 rs2 rs3) s = .next (faulted s .DIRECTION_MISMATCH (infoReg rs3)))

/-- R300, R302, R310: a commitment that INSERT has appended verifies at the returned index with the same path. -/
def Obligations.InsertedCommitmentVerifies : Prop :=
  ∀ (s t : State) (k : TreeId) (rd rs1 : Reg), rd ≠ rs1 → (s.tree k).next < 2 ^ Config.treeHeight →
    exec (insertAt k rd rs1) s = .next t → t.status.err = false →
    ∃ u, exec (verifyAt k rs1 rd rd) t = .next u ∧ u.status.err = false ∧ u.flags.b = true

/-- R315, R296, R298: FLUSH.T0, FLUSH.T1 and FLUSH.TP promote the pending batch when it is due and do nothing else, and a
second FLUSH changes nothing. -/
def Obligations.FlushPromotesADueBatch : Prop :=
  ∀ (s : State) (k : TreeId),
    exec (flushAt k) s = .next ((completed s s.w s.flags).setTree k (flushed (s.tree k) s.now)) ∧
    ∀ t, exec (flushAt k) s = .next t → exec (flushAt k) t = .next t

/-- R297: what one ring push does to the ring, and that it changes nothing else of the tree. The premises hold of every
sound tree. -/
def Obligations.RingPushEvictsTheOldest : Prop :=
  ∀ (x : Tree) (r : Nat), refWf x.refcnt →
    (x.hcnt = 256 → ∃ old, x.hist[x.head.val]'x.head.isLt = some old ∧ 0 < refCount x.refcnt old) →
    (x.push r).hist = x.hist.set x.head.val (some r) x.head.isLt ∧
    (x.push r).head.val = (x.head.val + 1) % 256 ∧
    (x.push r).hcnt = (if x.hcnt = 256 then 256 else x.hcnt + 1) ∧
    (∀ q, refCount (x.push r).refcnt q + (if x.hcnt = 256 ∧ x.hist[x.head.val]'x.head.isLt = some q then 1 else 0) =
      refCount x.refcnt q + (if q = r then 1 else 0)) ∧
    (x.push r).root = x.root ∧ (x.push r).next = x.next ∧ (x.push r).pend = x.pend ∧ (x.push r).pendT0 = x.pendT0

/-- R320: NULLIFY marks a nullifier used once; zero, a used one and a full store are faults, in this order. -/
def Obligations.NullifyMarksOnce : Prop :=
  ∀ (s : State) (rs1 : Reg), s.val rs1 < Config.fieldP →
    (s.val rs1 ≠ 0 → s.val rs1 ∉ s.nset → Config.nullifierCapacity ≠ some s.nset.length →
      ∃ marked, exec (.nullify rs1) s = .next { completed s s.w s.flags with nset := marked, ncount := s.ncount + 1 } ∧
        (∀ m, m ∈ marked ↔ m = s.val rs1 ∨ m ∈ s.nset) ∧ (nsetWf s.nset → nsetWf marked)) ∧
    (s.val rs1 = 0 → exec (.nullify rs1) s = .next (faulted s .NULLIFIER_ZERO (infoReg rs1))) ∧
    (s.val rs1 ≠ 0 → s.val rs1 ∈ s.nset →
      exec (.nullify rs1) s = .next (faulted s .NULLIFIER_USED (infoReg rs1))) ∧
    (s.val rs1 ≠ 0 → s.val rs1 ∉ s.nset → ∃ t, exec (.nullify rs1) s = .next t ∧
      (if Config.nullifierCapacity = some s.nset.length then t = faulted s .LEDGER_STORE_FULL 0xFF
        else t.status.err = false))

/-! ### Steps, host accesses and reset (20_memory.md, 70_reset_and_hazards.md) -/

/-- R4, R72, R120: when the engine has the turn, the step is the command that the accepted value decodes to, or the decoder's
fault; when a host access is next, the step performs it and nothing else. The agenda, and that an idle engine's turn
changes nothing else, are the model's own (log 3, log 4). -/
def Obligations.StepRunsTheDecodedCommand : Prop :=
  (∀ (s : State) (rest : List Event) (u : State), (s.agenda = [] ∧ u = s) ∨
      (s.agenda = .engine :: rest ∧ u = { s with agenda := rest }) →
    (∀ v i, s.engine = some v → decode v = .ok i → step s = exec i u) ∧
    (∀ v e, s.engine = some v → decode v = .error e →
      step s = .next (faulted u (if e = .reservedOpcode then .ILLEGAL_OPCODE else .ILLEGAL_FIELD) 0xFF)) ∧
    (s.engine = none → step s = .next u)) ∧
  (∀ (s : State) (a : Access) (rest : List Event), s.agenda = .host a :: rest →
    step s = .next (hostAccess a { s with agenda := rest }))

/-- R70, R71: a CMD write while idle is accepted, whatever its value: CMDLAST and BUSY are set and nothing else, and the
engine's next turn runs the command or, for a value that does not decode, takes the decoder's fault. The order of the turns
comes from the agenda, the model's own (log 3). -/
def Obligations.AcceptedCommandRuns : Prop :=
  ∀ (s : State) (v : Word64) (rest : List Event), s.engine = none → s.agenda = .host (writeAt 0x800 8 v) :: rest →
    ∃ t, step s = .next t ∧ t = { s with cmdLast := v.extractLsb' 0 32, engine := some v, agenda := rest } ∧
      t.busy = true ∧
      ∀ rest', rest = .engine :: rest' →
        (∀ i, decode v = .ok i → step t = exec i { t with agenda := rest' }) ∧
        (∀ e, decode v = .error e → step t = .next
          (faulted { t with agenda := rest' } (if e = .reservedOpcode then .ILLEGAL_OPCODE else .ILLEGAL_FIELD) 0xFF))

/-- R61, R62: while the engine is idle a limb of an operand register or of a path entry reads as its 64 bits, and a write of
it changes those 64 bits and nothing else. -/
def Obligations.LimbsAreReadAndWritten : Prop :=
  ∀ (s : State) (v : Word64), s.engine = none →
    (∀ (i : Fin 16) (k : Fin 8),
      let off : BitVec 12 := BitVec.ofNat 12 (64 * i.val + 8 * k.val)
      hostAccess (readAt off 8) s = { s with readData := s.w[i.val].extractLsb' (64 * k.val) 64 } ∧
      ∃ x : Word512, hostAccess (writeAt off 8 v) s = { s with w := s.w.set i.val x } ∧
        ∀ m : Fin 8, x.extractLsb' (64 * m.val) 64 = if m = k then v else s.w[i.val].extractLsb' (64 * m.val) 64) ∧
    (∀ (j : Fin 32) (k : Fin 4),
      let off : BitVec 12 := BitVec.ofNat 12 (0x400 + 32 * j.val + 8 * k.val)
      hostAccess (readAt off 8) s = { s with readData := s.path[j.val].extractLsb' (64 * k.val) 64 } ∧
      ∃ x : Word256, hostAccess (writeAt off 8 v) s = { s with path := s.path.set j.val x } ∧
        ∀ m : Fin 4, x.extractLsb' (64 * m.val) 64 = if m = k then v else s.path[j.val].extractLsb' (64 * m.val) 64)

/-- R33, R49, R63, R64: a STATUS write clears the sticky bits written as 1; a NOW write while idle never lowers NOW; a write
to a read-only register is ignored. -/
def Obligations.ControlRegisterWrites : Prop :=
  ∀ (s : State) (v : Word64),
    hostAccess (writeAt 0x808 8 v) s = { s with status :=
      { err := s.status.err, reent := s.status.reent && !v.getLsbD 2, wign := s.status.wign && !v.getLsbD 3,
        buserr := s.status.buserr && !v.getLsbD 4 } } ∧
    (s.engine = none → hostAccess (writeAt 0x828 8 v) s = { s with now := if s.now ≤ v then v else s.now }) ∧
    (∀ a : BitVec 12, a.toNat % 8 = 0 → ReadOnlyOffset a.toNat → hostAccess (writeAt a 8 v) s = s)

/-- R33, R34, R36, R37, R51, R79, R380 to R382: while a command runs, a CMD write is lost and sets REENT, a write of an operand, a path
entry or NOW is lost and sets WIGN, STATUS reads with BUSY 1, the constants read as they are, and a read of any other
assigned register returns a free value and changes no state of the block (log 7). -/
def Obligations.AccessesWhileBusy : Prop :=
  ∀ (s : State) (c v : Word64) (a : BitVec 12), s.engine = some c → a.toNat % 8 = 0 →
    hostAccess (writeAt 0x800 8 v) s = { s with status := { s.status with reent := true } } ∧
    ((a.toNat < 0x800 ∨ a.toNat = 0x828) →
      hostAccess (writeAt a 8 v) s = { s with status := { s.status with wign := true } }) ∧
    (∃ x : Word64, hostAccess (readAt 0x808 8) s = { s with readData := x } ∧ StatusBits x true s.status) ∧
    ConstantsRead s ∧
    (a.toNat < 0x800 ∨ a.toNat = 0x800 ∨ (0x810 ≤ a.toNat ∧ a.toNat ≤ 0x830) ∨
        (0x900 ≤ a.toNat ∧ a.toNat < 0x9C0) →
      hostAccess (readAt a 8) s =
        { s with readData := Config.busyRead s.freeIndex, freeIndex := s.freeIndex + 1 })

/-- R26, R33, R34, R39, R48 to R51, R63, R64: what the control, configuration and tree registers read as while the engine is
idle; a read changes nothing but the read port, which is the model's own (log 11). -/
def Obligations.RegistersReadAsSpecified : Prop :=
  ∀ s : State, s.engine = none →
    (∃ x : Word64, hostAccess (readAt 0x808 8) s = { s with readData := x } ∧ StatusBits x false s.status) ∧
    (∃ x : Word64, hostAccess (readAt 0x820 8) s = { s with readData := x } ∧ x.getLsbD 0 = s.flags.c ∧
      x.getLsbD 1 = s.flags.ovf ∧ x.getLsbD 2 = s.flags.lim ∧ x.getLsbD 3 = s.flags.b ∧ x.getLsbD 4 = s.flags.n ∧
      x.extractLsb' 5 59 = 0) ∧
    hostAccess (readAt 0x800 8) s = { s with readData := s.cmdLast.setWidth 64 } ∧
    hostAccess (readAt 0x810 8) s = { s with readData := s.cause } ∧
    hostAccess (readAt 0x818 8) s = { s with readData := s.errCmd.setWidth 64 } ∧
    hostAccess (readAt 0x828 8) s = { s with readData := s.now } ∧
    hostAccess (readAt 0x830 8) s = { s with readData := s.ncount } ∧
    ConstantsRead s ∧
    (∀ t base, (t, base) ∈ [(TreeId.t0, 0x900), (TreeId.t1, 0x940), (TreeId.tp, 0x980)] →
      (∀ k : Fin 4, (s.tree t).root < 2 ^ 256 → hostAccess (readAt (BitVec.ofNat 12 (base + 8 * k.val)) 8) s =
        { s with readData := BitVec.ofNat 64 ((s.tree t).root / 2 ^ (64 * k.val)) }) ∧
      hostAccess (readAt (BitVec.ofNat 12 (base + 0x20)) 8) s = { s with readData := BitVec.ofNat 64 (s.tree t).next } ∧
      hostAccess (readAt (BitVec.ofNat 12 (base + 0x28)) 8) s =
        { s with readData := BitVec.ofNat 64 (s.tree t).pend.length } ∧
      hostAccess (readAt (BitVec.ofNat 12 (base + 0x30)) 8) s = { s with readData := (s.tree t).pendT0 } ∧
      hostAccess (readAt (BitVec.ofNat 12 (base + 0x38)) 8) s = { s with readData := BitVec.ofNat 64 (s.tree t).hcnt })

/-- R60, R65, R66: an access that is not 8 bytes at a multiple of 8 reads 0 or is ignored and sets BUSERR; an unassigned
offset reads 0, ignores writes and sets nothing; the window is the 4096 bytes from ZLC_BASE on. That the first holds of
unassigned offsets too, that both hold while busy, and that an access outside the window leaves the block as it is, are the
model's reading (log 24, log 8, log 9, log 22). -/
def Obligations.MalformedAndReservedAccesses : Prop :=
  ∀ (s : State) (v : Word64) (n : Nat),
    (∀ a : BitVec 12,
      (n ≠ 8 ∨ a.toNat % 8 ≠ 0 →
        hostAccess (readAt a n) s = { s with readData := 0, status := { s.status with buserr := true } } ∧
        hostAccess (writeAt a n v) s = { s with status := { s.status with buserr := true } }) ∧
      (a.toNat % 8 = 0 → ¬ AssignedOffset a.toNat →
        hostAccess (readAt a 8) s = { s with readData := 0 } ∧ hostAccess (writeAt a 8 v) s = s)) ∧
    (∀ address : Nat, address < Config.zlcBase ∨ Config.zlcBase + 0x1000 ≤ address →
      hostAccess (.read address n) s = s ∧ hostAccess (.write address n v) s = s)

/-- R370, R372: a reset puts every piece of state that has a reset value at it, abandoning a command in flight. ZERO_ROOT is
Z[TREE_HEIGHT], where Z[0] is EMPTY_LEAF and each Z[k + 1] is the hash of two Z[k] (R41). -/
def Obligations.ResetRestoresEveryResetValue : Prop :=
  (∀ (s : State) (rest : List Event), s.agenda = .reset :: rest →
    ∃ t, step s = .next t ∧ t.engine = none ∧ t.flags = ⟨false, false, false, false, false⟩ ∧
      t.status = ⟨false, false, false, false⟩ ∧ t.cause = 0 ∧ t.errCmd = 0 ∧ t.now = 0 ∧ t.cmdLast = 0 ∧
      t.nset = [] ∧ t.ncount = 0 ∧
      ∀ k, (t.tree k).root = Config.zeroRoot ∧ (t.tree k).next = 0 ∧ (t.tree k).pend = [] ∧ (t.tree k).pendT0 = 0 ∧
        (t.tree k).head = 0 ∧ (t.tree k).hcnt = 0 ∧ (∀ r, refCount (t.tree k).refcnt r = 0) ∧
        ∀ n : Fin 256, (t.tree k).hist[n.val] = none) ∧
  (∃ z : Nat → Nat, z 0 = Config.emptyLeaf ∧ (∀ k, z (k + 1) = Config.nodeHash (z k) (z k)) ∧
    z Config.treeHeight = Config.zeroRoot)

/-- R321, R373: a nullifier once marked used stays used through every step that is not a reset. -/
def Obligations.UsedNullifiersStayUsed : Prop :=
  ∀ (s t : State), step s = .next t → (∀ rest, s.agenda ≠ .reset :: rest) →
    (∀ n ∈ s.nset, n ∈ t.nset) ∧ s.now ≤ t.now ∧ ∀ k, (s.tree k).next ≤ (t.tree k).next

/-- R40 to R48: every step keeps the ledger sound: felts stay felts, the ring, its counters and its reference counts agree,
a batch stays below BATCH_SIZE, NSET stays in canonical form and NCOUNT counts it. -/
def Obligations.EveryStepKeepsTheLedgerSound : Prop := ∀ s t : State, LedgerSound s → step s = .next t → LedgerSound t

/-- Every step keeps ERR and CAUSE in agreement, and CMDLAST in agreement with the command in flight. -/
def Obligations.EveryStepKeepsTheRegistersInAgreement : Prop :=
  ∀ s t : State, step s = .next t → (causeAgrees s → causeAgrees t) ∧ (engineAgrees s → engineAgrees t)

/-- R370: the invariants hold at reset. -/
def Obligations.ResetMeetsTheInvariants : Prop :=
  LedgerSound State.reset ∧ causeAgrees State.reset ∧ engineAgrees State.reset

/-- R293, which the spec marks as derived from R292: under a path whose siblings are the roots of empty subtrees, ComputeRoot
of EMPTY_LEAF is ZERO_ROOT at every index; so an INSERT with that path after a reset meets its empty-slot check. -/
def Obligations.EmptyTreeHasTheZeroRoot : Prop :=
  ∀ (s : State) (z : Nat → Nat), z 0 = Config.emptyLeaf → (∀ k, z (k + 1) = Config.nodeHash (z k) (z k)) →
    (∀ j < Config.treeHeight, s.sibling j = z j) →
    (∀ idx < 2 ^ Config.treeHeight, s.rootOf Config.emptyLeaf idx = Config.zeroRoot) ∧
    ∀ (t : State) (k : TreeId) (rd rs1 : Reg), s.tree0 = Tree.reset → s.tree1 = Tree.reset → s.treeP = Tree.reset →
      s.val rs1 < Config.fieldP → s.val rs1 ≠ 0 → s.val rs1 ≠ Config.emptyLeaf →
      exec (insertAt k rd rs1) s = .next t → t.status.err = false ∧ t.val rd = 0
end

