-- ==== Sys2Proof/Laws/State.lean ====
section
/-! SUPPORT. One lemma for each field of State under each update, so that no proof unfolds a record update. -/

set_option Elab.async false

namespace Sys2Proof.Machine

/-! ### setReg -/

@[simp] theorem setReg_w (s : State) (i : Reg) (v : Word512) : (s.setReg i v).w = s.w.set i.toNat v i.isLt := rfl
@[simp] theorem setReg_path (s : State) (i : Reg) (v : Word512) : (s.setReg i v).path = s.path := rfl
@[simp] theorem setReg_flags (s : State) (i : Reg) (v : Word512) : (s.setReg i v).flags = s.flags := rfl
@[simp] theorem setReg_status (s : State) (i : Reg) (v : Word512) : (s.setReg i v).status = s.status := rfl
@[simp] theorem setReg_cause (s : State) (i : Reg) (v : Word512) : (s.setReg i v).cause = s.cause := rfl
@[simp] theorem setReg_errCmd (s : State) (i : Reg) (v : Word512) : (s.setReg i v).errCmd = s.errCmd := rfl
@[simp] theorem setReg_cmdLast (s : State) (i : Reg) (v : Word512) : (s.setReg i v).cmdLast = s.cmdLast := rfl
@[simp] theorem setReg_now (s : State) (i : Reg) (v : Word512) : (s.setReg i v).now = s.now := rfl
@[simp] theorem setReg_tree0 (s : State) (i : Reg) (v : Word512) : (s.setReg i v).tree0 = s.tree0 := rfl
@[simp] theorem setReg_tree1 (s : State) (i : Reg) (v : Word512) : (s.setReg i v).tree1 = s.tree1 := rfl
@[simp] theorem setReg_treeP (s : State) (i : Reg) (v : Word512) : (s.setReg i v).treeP = s.treeP := rfl
@[simp] theorem setReg_nset (s : State) (i : Reg) (v : Word512) : (s.setReg i v).nset = s.nset := rfl
@[simp] theorem setReg_ncount (s : State) (i : Reg) (v : Word512) : (s.setReg i v).ncount = s.ncount := rfl
@[simp] theorem setReg_engine (s : State) (i : Reg) (v : Word512) : (s.setReg i v).engine = s.engine := rfl
@[simp] theorem setReg_agenda (s : State) (i : Reg) (v : Word512) : (s.setReg i v).agenda = s.agenda := rfl
@[simp] theorem setReg_readData (s : State) (i : Reg) (v : Word512) : (s.setReg i v).readData = s.readData := rfl
@[simp] theorem setReg_freeIndex (s : State) (i : Reg) (v : Word512) : (s.setReg i v).freeIndex = s.freeIndex := rfl
@[simp] theorem setReg_tree (s : State) (i : Reg) (v : Word512) (t : TreeId) : (s.setReg i v).tree t = s.tree t := by cases t <;> rfl

/-! ### setRegNat -/

@[simp] theorem setRegNat_w (s : State) (i : Reg) (v : Nat) : (s.setRegNat i v).w = s.w.set i.toNat (BitVec.ofNat 512 v) i.isLt := rfl
@[simp] theorem setRegNat_path (s : State) (i : Reg) (v : Nat) : (s.setRegNat i v).path = s.path := rfl
@[simp] theorem setRegNat_flags (s : State) (i : Reg) (v : Nat) : (s.setRegNat i v).flags = s.flags := rfl
@[simp] theorem setRegNat_status (s : State) (i : Reg) (v : Nat) : (s.setRegNat i v).status = s.status := rfl
@[simp] theorem setRegNat_cause (s : State) (i : Reg) (v : Nat) : (s.setRegNat i v).cause = s.cause := rfl
@[simp] theorem setRegNat_errCmd (s : State) (i : Reg) (v : Nat) : (s.setRegNat i v).errCmd = s.errCmd := rfl
@[simp] theorem setRegNat_cmdLast (s : State) (i : Reg) (v : Nat) : (s.setRegNat i v).cmdLast = s.cmdLast := rfl
@[simp] theorem setRegNat_now (s : State) (i : Reg) (v : Nat) : (s.setRegNat i v).now = s.now := rfl
@[simp] theorem setRegNat_tree0 (s : State) (i : Reg) (v : Nat) : (s.setRegNat i v).tree0 = s.tree0 := rfl
@[simp] theorem setRegNat_tree1 (s : State) (i : Reg) (v : Nat) : (s.setRegNat i v).tree1 = s.tree1 := rfl
@[simp] theorem setRegNat_treeP (s : State) (i : Reg) (v : Nat) : (s.setRegNat i v).treeP = s.treeP := rfl
@[simp] theorem setRegNat_nset (s : State) (i : Reg) (v : Nat) : (s.setRegNat i v).nset = s.nset := rfl
@[simp] theorem setRegNat_ncount (s : State) (i : Reg) (v : Nat) : (s.setRegNat i v).ncount = s.ncount := rfl
@[simp] theorem setRegNat_engine (s : State) (i : Reg) (v : Nat) : (s.setRegNat i v).engine = s.engine := rfl
@[simp] theorem setRegNat_agenda (s : State) (i : Reg) (v : Nat) : (s.setRegNat i v).agenda = s.agenda := rfl
@[simp] theorem setRegNat_readData (s : State) (i : Reg) (v : Nat) : (s.setRegNat i v).readData = s.readData := rfl
@[simp] theorem setRegNat_freeIndex (s : State) (i : Reg) (v : Nat) : (s.setRegNat i v).freeIndex = s.freeIndex := rfl
@[simp] theorem setRegNat_tree (s : State) (i : Reg) (v : Nat) (t : TreeId) : (s.setRegNat i v).tree t = s.tree t := by cases t <;> rfl

/-! ### setC -/

@[simp] theorem setC_w (s : State) (v : Bool) : (s.setC v).w = s.w := rfl
@[simp] theorem setC_path (s : State) (v : Bool) : (s.setC v).path = s.path := rfl
@[simp] theorem setC_flags (s : State) (v : Bool) : (s.setC v).flags = { s.flags with c := v } := rfl
@[simp] theorem setC_status (s : State) (v : Bool) : (s.setC v).status = s.status := rfl
@[simp] theorem setC_cause (s : State) (v : Bool) : (s.setC v).cause = s.cause := rfl
@[simp] theorem setC_errCmd (s : State) (v : Bool) : (s.setC v).errCmd = s.errCmd := rfl
@[simp] theorem setC_cmdLast (s : State) (v : Bool) : (s.setC v).cmdLast = s.cmdLast := rfl
@[simp] theorem setC_now (s : State) (v : Bool) : (s.setC v).now = s.now := rfl
@[simp] theorem setC_tree0 (s : State) (v : Bool) : (s.setC v).tree0 = s.tree0 := rfl
@[simp] theorem setC_tree1 (s : State) (v : Bool) : (s.setC v).tree1 = s.tree1 := rfl
@[simp] theorem setC_treeP (s : State) (v : Bool) : (s.setC v).treeP = s.treeP := rfl
@[simp] theorem setC_nset (s : State) (v : Bool) : (s.setC v).nset = s.nset := rfl
@[simp] theorem setC_ncount (s : State) (v : Bool) : (s.setC v).ncount = s.ncount := rfl
@[simp] theorem setC_engine (s : State) (v : Bool) : (s.setC v).engine = s.engine := rfl
@[simp] theorem setC_agenda (s : State) (v : Bool) : (s.setC v).agenda = s.agenda := rfl
@[simp] theorem setC_readData (s : State) (v : Bool) : (s.setC v).readData = s.readData := rfl
@[simp] theorem setC_freeIndex (s : State) (v : Bool) : (s.setC v).freeIndex = s.freeIndex := rfl
@[simp] theorem setC_reg (s : State) (v : Bool) (r : Reg) : (s.setC v).reg r = s.reg r := rfl
@[simp] theorem setC_tree (s : State) (v : Bool) (t : TreeId) : (s.setC v).tree t = s.tree t := by cases t <;> rfl

/-! ### setOvf -/

@[simp] theorem setOvf_w (s : State) (v : Bool) : (s.setOvf v).w = s.w := rfl
@[simp] theorem setOvf_path (s : State) (v : Bool) : (s.setOvf v).path = s.path := rfl
@[simp] theorem setOvf_flags (s : State) (v : Bool) : (s.setOvf v).flags = { s.flags with ovf := v } := rfl
@[simp] theorem setOvf_status (s : State) (v : Bool) : (s.setOvf v).status = s.status := rfl
@[simp] theorem setOvf_cause (s : State) (v : Bool) : (s.setOvf v).cause = s.cause := rfl
@[simp] theorem setOvf_errCmd (s : State) (v : Bool) : (s.setOvf v).errCmd = s.errCmd := rfl
@[simp] theorem setOvf_cmdLast (s : State) (v : Bool) : (s.setOvf v).cmdLast = s.cmdLast := rfl
@[simp] theorem setOvf_now (s : State) (v : Bool) : (s.setOvf v).now = s.now := rfl
@[simp] theorem setOvf_tree0 (s : State) (v : Bool) : (s.setOvf v).tree0 = s.tree0 := rfl
@[simp] theorem setOvf_tree1 (s : State) (v : Bool) : (s.setOvf v).tree1 = s.tree1 := rfl
@[simp] theorem setOvf_treeP (s : State) (v : Bool) : (s.setOvf v).treeP = s.treeP := rfl
@[simp] theorem setOvf_nset (s : State) (v : Bool) : (s.setOvf v).nset = s.nset := rfl
@[simp] theorem setOvf_ncount (s : State) (v : Bool) : (s.setOvf v).ncount = s.ncount := rfl
@[simp] theorem setOvf_engine (s : State) (v : Bool) : (s.setOvf v).engine = s.engine := rfl
@[simp] theorem setOvf_agenda (s : State) (v : Bool) : (s.setOvf v).agenda = s.agenda := rfl
@[simp] theorem setOvf_readData (s : State) (v : Bool) : (s.setOvf v).readData = s.readData := rfl
@[simp] theorem setOvf_freeIndex (s : State) (v : Bool) : (s.setOvf v).freeIndex = s.freeIndex := rfl
@[simp] theorem setOvf_reg (s : State) (v : Bool) (r : Reg) : (s.setOvf v).reg r = s.reg r := rfl
@[simp] theorem setOvf_tree (s : State) (v : Bool) (t : TreeId) : (s.setOvf v).tree t = s.tree t := by cases t <;> rfl

/-! ### setLim -/

@[simp] theorem setLim_w (s : State) (v : Bool) : (s.setLim v).w = s.w := rfl
@[simp] theorem setLim_path (s : State) (v : Bool) : (s.setLim v).path = s.path := rfl
@[simp] theorem setLim_flags (s : State) (v : Bool) : (s.setLim v).flags = { s.flags with lim := v } := rfl
@[simp] theorem setLim_status (s : State) (v : Bool) : (s.setLim v).status = s.status := rfl
@[simp] theorem setLim_cause (s : State) (v : Bool) : (s.setLim v).cause = s.cause := rfl
@[simp] theorem setLim_errCmd (s : State) (v : Bool) : (s.setLim v).errCmd = s.errCmd := rfl
@[simp] theorem setLim_cmdLast (s : State) (v : Bool) : (s.setLim v).cmdLast = s.cmdLast := rfl
@[simp] theorem setLim_now (s : State) (v : Bool) : (s.setLim v).now = s.now := rfl
@[simp] theorem setLim_tree0 (s : State) (v : Bool) : (s.setLim v).tree0 = s.tree0 := rfl
@[simp] theorem setLim_tree1 (s : State) (v : Bool) : (s.setLim v).tree1 = s.tree1 := rfl
@[simp] theorem setLim_treeP (s : State) (v : Bool) : (s.setLim v).treeP = s.treeP := rfl
@[simp] theorem setLim_nset (s : State) (v : Bool) : (s.setLim v).nset = s.nset := rfl
@[simp] theorem setLim_ncount (s : State) (v : Bool) : (s.setLim v).ncount = s.ncount := rfl
@[simp] theorem setLim_engine (s : State) (v : Bool) : (s.setLim v).engine = s.engine := rfl
@[simp] theorem setLim_agenda (s : State) (v : Bool) : (s.setLim v).agenda = s.agenda := rfl
@[simp] theorem setLim_readData (s : State) (v : Bool) : (s.setLim v).readData = s.readData := rfl
@[simp] theorem setLim_freeIndex (s : State) (v : Bool) : (s.setLim v).freeIndex = s.freeIndex := rfl
@[simp] theorem setLim_reg (s : State) (v : Bool) (r : Reg) : (s.setLim v).reg r = s.reg r := rfl
@[simp] theorem setLim_tree (s : State) (v : Bool) (t : TreeId) : (s.setLim v).tree t = s.tree t := by cases t <;> rfl

/-! ### setB -/

@[simp] theorem setB_w (s : State) (v : Bool) : (s.setB v).w = s.w := rfl
@[simp] theorem setB_path (s : State) (v : Bool) : (s.setB v).path = s.path := rfl
@[simp] theorem setB_flags (s : State) (v : Bool) : (s.setB v).flags = { s.flags with b := v } := rfl
@[simp] theorem setB_status (s : State) (v : Bool) : (s.setB v).status = s.status := rfl
@[simp] theorem setB_cause (s : State) (v : Bool) : (s.setB v).cause = s.cause := rfl
@[simp] theorem setB_errCmd (s : State) (v : Bool) : (s.setB v).errCmd = s.errCmd := rfl
@[simp] theorem setB_cmdLast (s : State) (v : Bool) : (s.setB v).cmdLast = s.cmdLast := rfl
@[simp] theorem setB_now (s : State) (v : Bool) : (s.setB v).now = s.now := rfl
@[simp] theorem setB_tree0 (s : State) (v : Bool) : (s.setB v).tree0 = s.tree0 := rfl
@[simp] theorem setB_tree1 (s : State) (v : Bool) : (s.setB v).tree1 = s.tree1 := rfl
@[simp] theorem setB_treeP (s : State) (v : Bool) : (s.setB v).treeP = s.treeP := rfl
@[simp] theorem setB_nset (s : State) (v : Bool) : (s.setB v).nset = s.nset := rfl
@[simp] theorem setB_ncount (s : State) (v : Bool) : (s.setB v).ncount = s.ncount := rfl
@[simp] theorem setB_engine (s : State) (v : Bool) : (s.setB v).engine = s.engine := rfl
@[simp] theorem setB_agenda (s : State) (v : Bool) : (s.setB v).agenda = s.agenda := rfl
@[simp] theorem setB_readData (s : State) (v : Bool) : (s.setB v).readData = s.readData := rfl
@[simp] theorem setB_freeIndex (s : State) (v : Bool) : (s.setB v).freeIndex = s.freeIndex := rfl
@[simp] theorem setB_reg (s : State) (v : Bool) (r : Reg) : (s.setB v).reg r = s.reg r := rfl
@[simp] theorem setB_tree (s : State) (v : Bool) (t : TreeId) : (s.setB v).tree t = s.tree t := by cases t <;> rfl

/-! ### setN -/

@[simp] theorem setN_w (s : State) (v : Bool) : (s.setN v).w = s.w := rfl
@[simp] theorem setN_path (s : State) (v : Bool) : (s.setN v).path = s.path := rfl
@[simp] theorem setN_flags (s : State) (v : Bool) : (s.setN v).flags = { s.flags with n := v } := rfl
@[simp] theorem setN_status (s : State) (v : Bool) : (s.setN v).status = s.status := rfl
@[simp] theorem setN_cause (s : State) (v : Bool) : (s.setN v).cause = s.cause := rfl
@[simp] theorem setN_errCmd (s : State) (v : Bool) : (s.setN v).errCmd = s.errCmd := rfl
@[simp] theorem setN_cmdLast (s : State) (v : Bool) : (s.setN v).cmdLast = s.cmdLast := rfl
@[simp] theorem setN_now (s : State) (v : Bool) : (s.setN v).now = s.now := rfl
@[simp] theorem setN_tree0 (s : State) (v : Bool) : (s.setN v).tree0 = s.tree0 := rfl
@[simp] theorem setN_tree1 (s : State) (v : Bool) : (s.setN v).tree1 = s.tree1 := rfl
@[simp] theorem setN_treeP (s : State) (v : Bool) : (s.setN v).treeP = s.treeP := rfl
@[simp] theorem setN_nset (s : State) (v : Bool) : (s.setN v).nset = s.nset := rfl
@[simp] theorem setN_ncount (s : State) (v : Bool) : (s.setN v).ncount = s.ncount := rfl
@[simp] theorem setN_engine (s : State) (v : Bool) : (s.setN v).engine = s.engine := rfl
@[simp] theorem setN_agenda (s : State) (v : Bool) : (s.setN v).agenda = s.agenda := rfl
@[simp] theorem setN_readData (s : State) (v : Bool) : (s.setN v).readData = s.readData := rfl
@[simp] theorem setN_freeIndex (s : State) (v : Bool) : (s.setN v).freeIndex = s.freeIndex := rfl
@[simp] theorem setN_reg (s : State) (v : Bool) (r : Reg) : (s.setN v).reg r = s.reg r := rfl
@[simp] theorem setN_tree (s : State) (v : Bool) (t : TreeId) : (s.setN v).tree t = s.tree t := by cases t <;> rfl

/-! ### succeed -/

@[simp] theorem succeed_w (s : State) : s.succeed.w = s.w := rfl
@[simp] theorem succeed_path (s : State) : s.succeed.path = s.path := rfl
@[simp] theorem succeed_flags (s : State) : s.succeed.flags = s.flags := rfl
@[simp] theorem succeed_status (s : State) : s.succeed.status = { s.status with err := false } := rfl
@[simp] theorem succeed_cause (s : State) : s.succeed.cause = 0 := rfl
@[simp] theorem succeed_errCmd (s : State) : s.succeed.errCmd = s.errCmd := rfl
@[simp] theorem succeed_cmdLast (s : State) : s.succeed.cmdLast = s.cmdLast := rfl
@[simp] theorem succeed_now (s : State) : s.succeed.now = s.now := rfl
@[simp] theorem succeed_tree0 (s : State) : s.succeed.tree0 = s.tree0 := rfl
@[simp] theorem succeed_tree1 (s : State) : s.succeed.tree1 = s.tree1 := rfl
@[simp] theorem succeed_treeP (s : State) : s.succeed.treeP = s.treeP := rfl
@[simp] theorem succeed_nset (s : State) : s.succeed.nset = s.nset := rfl
@[simp] theorem succeed_ncount (s : State) : s.succeed.ncount = s.ncount := rfl
@[simp] theorem succeed_engine (s : State) : s.succeed.engine = none := rfl
@[simp] theorem succeed_agenda (s : State) : s.succeed.agenda = s.agenda := rfl
@[simp] theorem succeed_readData (s : State) : s.succeed.readData = s.readData := rfl
@[simp] theorem succeed_freeIndex (s : State) : s.succeed.freeIndex = s.freeIndex := rfl
@[simp] theorem succeed_reg (s : State) (r : Reg) : s.succeed.reg r = s.reg r := rfl
@[simp] theorem succeed_tree (s : State) (t : TreeId) : s.succeed.tree t = s.tree t := by cases t <;> rfl

/-! ### takeFault -/

@[simp] theorem takeFault_w (s : State) (e : Trap) : (s.takeFault e).w = s.w := rfl
@[simp] theorem takeFault_path (s : State) (e : Trap) : (s.takeFault e).path = s.path := rfl
@[simp] theorem takeFault_flags (s : State) (e : Trap) : (s.takeFault e).flags = s.flags := rfl
@[simp] theorem takeFault_status (s : State) (e : Trap) : (s.takeFault e).status = { s.status with err := true } := rfl
@[simp] theorem takeFault_cause (s : State) (e : Trap) : (s.takeFault e).cause = e.cause := rfl
@[simp] theorem takeFault_errCmd (s : State) (e : Trap) : (s.takeFault e).errCmd = s.inFlightWord := rfl
@[simp] theorem takeFault_cmdLast (s : State) (e : Trap) : (s.takeFault e).cmdLast = s.cmdLast := rfl
@[simp] theorem takeFault_now (s : State) (e : Trap) : (s.takeFault e).now = s.now := rfl
@[simp] theorem takeFault_tree0 (s : State) (e : Trap) : (s.takeFault e).tree0 = s.tree0 := rfl
@[simp] theorem takeFault_tree1 (s : State) (e : Trap) : (s.takeFault e).tree1 = s.tree1 := rfl
@[simp] theorem takeFault_treeP (s : State) (e : Trap) : (s.takeFault e).treeP = s.treeP := rfl
@[simp] theorem takeFault_nset (s : State) (e : Trap) : (s.takeFault e).nset = s.nset := rfl
@[simp] theorem takeFault_ncount (s : State) (e : Trap) : (s.takeFault e).ncount = s.ncount := rfl
@[simp] theorem takeFault_engine (s : State) (e : Trap) : (s.takeFault e).engine = none := rfl
@[simp] theorem takeFault_agenda (s : State) (e : Trap) : (s.takeFault e).agenda = s.agenda := rfl
@[simp] theorem takeFault_readData (s : State) (e : Trap) : (s.takeFault e).readData = s.readData := rfl
@[simp] theorem takeFault_freeIndex (s : State) (e : Trap) : (s.takeFault e).freeIndex = s.freeIndex := rfl
@[simp] theorem takeFault_reg (s : State) (e : Trap) (r : Reg) : (s.takeFault e).reg r = s.reg r := rfl
@[simp] theorem takeFault_tree (s : State) (e : Trap) (t : TreeId) : (s.takeFault e).tree t = s.tree t := by cases t <;> rfl

/-! ### setPath -/

@[simp] theorem setPath_w (s : State) (j : BitVec 5) (v : Word256) : (s.setPath j v).w = s.w := rfl
@[simp] theorem setPath_path (s : State) (j : BitVec 5) (v : Word256) : (s.setPath j v).path = s.path.set j.toNat v j.isLt := rfl
@[simp] theorem setPath_flags (s : State) (j : BitVec 5) (v : Word256) : (s.setPath j v).flags = s.flags := rfl
@[simp] theorem setPath_status (s : State) (j : BitVec 5) (v : Word256) : (s.setPath j v).status = s.status := rfl
@[simp] theorem setPath_cause (s : State) (j : BitVec 5) (v : Word256) : (s.setPath j v).cause = s.cause := rfl
@[simp] theorem setPath_errCmd (s : State) (j : BitVec 5) (v : Word256) : (s.setPath j v).errCmd = s.errCmd := rfl
@[simp] theorem setPath_cmdLast (s : State) (j : BitVec 5) (v : Word256) : (s.setPath j v).cmdLast = s.cmdLast := rfl
@[simp] theorem setPath_now (s : State) (j : BitVec 5) (v : Word256) : (s.setPath j v).now = s.now := rfl
@[simp] theorem setPath_tree0 (s : State) (j : BitVec 5) (v : Word256) : (s.setPath j v).tree0 = s.tree0 := rfl
@[simp] theorem setPath_tree1 (s : State) (j : BitVec 5) (v : Word256) : (s.setPath j v).tree1 = s.tree1 := rfl
@[simp] theorem setPath_treeP (s : State) (j : BitVec 5) (v : Word256) : (s.setPath j v).treeP = s.treeP := rfl
@[simp] theorem setPath_nset (s : State) (j : BitVec 5) (v : Word256) : (s.setPath j v).nset = s.nset := rfl
@[simp] theorem setPath_ncount (s : State) (j : BitVec 5) (v : Word256) : (s.setPath j v).ncount = s.ncount := rfl
@[simp] theorem setPath_engine (s : State) (j : BitVec 5) (v : Word256) : (s.setPath j v).engine = s.engine := rfl
@[simp] theorem setPath_agenda (s : State) (j : BitVec 5) (v : Word256) : (s.setPath j v).agenda = s.agenda := rfl
@[simp] theorem setPath_readData (s : State) (j : BitVec 5) (v : Word256) : (s.setPath j v).readData = s.readData := rfl
@[simp] theorem setPath_freeIndex (s : State) (j : BitVec 5) (v : Word256) : (s.setPath j v).freeIndex = s.freeIndex := rfl
@[simp] theorem setPath_reg (s : State) (j : BitVec 5) (v : Word256) (r : Reg) : (s.setPath j v).reg r = s.reg r := rfl
@[simp] theorem setPath_tree (s : State) (j : BitVec 5) (v : Word256) (t : TreeId) : (s.setPath j v).tree t = s.tree t := by cases t <;> rfl

/-! ### accept -/

@[simp] theorem accept_w (s : State) (v : Word64) : (s.accept v).w = s.w := rfl
@[simp] theorem accept_path (s : State) (v : Word64) : (s.accept v).path = s.path := rfl
@[simp] theorem accept_flags (s : State) (v : Word64) : (s.accept v).flags = s.flags := rfl
@[simp] theorem accept_status (s : State) (v : Word64) : (s.accept v).status = s.status := rfl
@[simp] theorem accept_cause (s : State) (v : Word64) : (s.accept v).cause = s.cause := rfl
@[simp] theorem accept_errCmd (s : State) (v : Word64) : (s.accept v).errCmd = s.errCmd := rfl
@[simp] theorem accept_cmdLast (s : State) (v : Word64) : (s.accept v).cmdLast = v.extractLsb' 0 32 := rfl
@[simp] theorem accept_now (s : State) (v : Word64) : (s.accept v).now = s.now := rfl
@[simp] theorem accept_tree0 (s : State) (v : Word64) : (s.accept v).tree0 = s.tree0 := rfl
@[simp] theorem accept_tree1 (s : State) (v : Word64) : (s.accept v).tree1 = s.tree1 := rfl
@[simp] theorem accept_treeP (s : State) (v : Word64) : (s.accept v).treeP = s.treeP := rfl
@[simp] theorem accept_nset (s : State) (v : Word64) : (s.accept v).nset = s.nset := rfl
@[simp] theorem accept_ncount (s : State) (v : Word64) : (s.accept v).ncount = s.ncount := rfl
@[simp] theorem accept_engine (s : State) (v : Word64) : (s.accept v).engine = some v := rfl
@[simp] theorem accept_agenda (s : State) (v : Word64) : (s.accept v).agenda = s.agenda := rfl
@[simp] theorem accept_readData (s : State) (v : Word64) : (s.accept v).readData = s.readData := rfl
@[simp] theorem accept_freeIndex (s : State) (v : Word64) : (s.accept v).freeIndex = s.freeIndex := rfl
@[simp] theorem accept_reg (s : State) (v : Word64) (r : Reg) : (s.accept v).reg r = s.reg r := rfl
@[simp] theorem accept_tree (s : State) (v : Word64) (t : TreeId) : (s.accept v).tree t = s.tree t := by cases t <;> rfl

/-! ### flagIgnoredWrite -/

@[simp] theorem flagIgnoredWrite_w (s : State) : s.flagIgnoredWrite.w = s.w := rfl
@[simp] theorem flagIgnoredWrite_path (s : State) : s.flagIgnoredWrite.path = s.path := rfl
@[simp] theorem flagIgnoredWrite_flags (s : State) : s.flagIgnoredWrite.flags = s.flags := rfl
@[simp] theorem flagIgnoredWrite_status (s : State) : s.flagIgnoredWrite.status = { s.status with wign := true } := rfl
@[simp] theorem flagIgnoredWrite_cause (s : State) : s.flagIgnoredWrite.cause = s.cause := rfl
@[simp] theorem flagIgnoredWrite_errCmd (s : State) : s.flagIgnoredWrite.errCmd = s.errCmd := rfl
@[simp] theorem flagIgnoredWrite_cmdLast (s : State) : s.flagIgnoredWrite.cmdLast = s.cmdLast := rfl
@[simp] theorem flagIgnoredWrite_now (s : State) : s.flagIgnoredWrite.now = s.now := rfl
@[simp] theorem flagIgnoredWrite_tree0 (s : State) : s.flagIgnoredWrite.tree0 = s.tree0 := rfl
@[simp] theorem flagIgnoredWrite_tree1 (s : State) : s.flagIgnoredWrite.tree1 = s.tree1 := rfl
@[simp] theorem flagIgnoredWrite_treeP (s : State) : s.flagIgnoredWrite.treeP = s.treeP := rfl
@[simp] theorem flagIgnoredWrite_nset (s : State) : s.flagIgnoredWrite.nset = s.nset := rfl
@[simp] theorem flagIgnoredWrite_ncount (s : State) : s.flagIgnoredWrite.ncount = s.ncount := rfl
@[simp] theorem flagIgnoredWrite_engine (s : State) : s.flagIgnoredWrite.engine = s.engine := rfl
@[simp] theorem flagIgnoredWrite_agenda (s : State) : s.flagIgnoredWrite.agenda = s.agenda := rfl
@[simp] theorem flagIgnoredWrite_readData (s : State) : s.flagIgnoredWrite.readData = s.readData := rfl
@[simp] theorem flagIgnoredWrite_freeIndex (s : State) : s.flagIgnoredWrite.freeIndex = s.freeIndex := rfl
@[simp] theorem flagIgnoredWrite_reg (s : State) (r : Reg) : s.flagIgnoredWrite.reg r = s.reg r := rfl
@[simp] theorem flagIgnoredWrite_tree (s : State) (t : TreeId) : s.flagIgnoredWrite.tree t = s.tree t := by cases t <;> rfl

/-! ### flagReentry -/

@[simp] theorem flagReentry_w (s : State) : s.flagReentry.w = s.w := rfl
@[simp] theorem flagReentry_path (s : State) : s.flagReentry.path = s.path := rfl
@[simp] theorem flagReentry_flags (s : State) : s.flagReentry.flags = s.flags := rfl
@[simp] theorem flagReentry_status (s : State) : s.flagReentry.status = { s.status with reent := true } := rfl
@[simp] theorem flagReentry_cause (s : State) : s.flagReentry.cause = s.cause := rfl
@[simp] theorem flagReentry_errCmd (s : State) : s.flagReentry.errCmd = s.errCmd := rfl
@[simp] theorem flagReentry_cmdLast (s : State) : s.flagReentry.cmdLast = s.cmdLast := rfl
@[simp] theorem flagReentry_now (s : State) : s.flagReentry.now = s.now := rfl
@[simp] theorem flagReentry_tree0 (s : State) : s.flagReentry.tree0 = s.tree0 := rfl
@[simp] theorem flagReentry_tree1 (s : State) : s.flagReentry.tree1 = s.tree1 := rfl
@[simp] theorem flagReentry_treeP (s : State) : s.flagReentry.treeP = s.treeP := rfl
@[simp] theorem flagReentry_nset (s : State) : s.flagReentry.nset = s.nset := rfl
@[simp] theorem flagReentry_ncount (s : State) : s.flagReentry.ncount = s.ncount := rfl
@[simp] theorem flagReentry_engine (s : State) : s.flagReentry.engine = s.engine := rfl
@[simp] theorem flagReentry_agenda (s : State) : s.flagReentry.agenda = s.agenda := rfl
@[simp] theorem flagReentry_readData (s : State) : s.flagReentry.readData = s.readData := rfl
@[simp] theorem flagReentry_freeIndex (s : State) : s.flagReentry.freeIndex = s.freeIndex := rfl
@[simp] theorem flagReentry_reg (s : State) (r : Reg) : s.flagReentry.reg r = s.reg r := rfl
@[simp] theorem flagReentry_tree (s : State) (t : TreeId) : s.flagReentry.tree t = s.tree t := by cases t <;> rfl

/-! ### flagBusError -/

@[simp] theorem flagBusError_w (s : State) : s.flagBusError.w = s.w := rfl
@[simp] theorem flagBusError_path (s : State) : s.flagBusError.path = s.path := rfl
@[simp] theorem flagBusError_flags (s : State) : s.flagBusError.flags = s.flags := rfl
@[simp] theorem flagBusError_status (s : State) : s.flagBusError.status = { s.status with buserr := true } := rfl
@[simp] theorem flagBusError_cause (s : State) : s.flagBusError.cause = s.cause := rfl
@[simp] theorem flagBusError_errCmd (s : State) : s.flagBusError.errCmd = s.errCmd := rfl
@[simp] theorem flagBusError_cmdLast (s : State) : s.flagBusError.cmdLast = s.cmdLast := rfl
@[simp] theorem flagBusError_now (s : State) : s.flagBusError.now = s.now := rfl
@[simp] theorem flagBusError_tree0 (s : State) : s.flagBusError.tree0 = s.tree0 := rfl
@[simp] theorem flagBusError_tree1 (s : State) : s.flagBusError.tree1 = s.tree1 := rfl
@[simp] theorem flagBusError_treeP (s : State) : s.flagBusError.treeP = s.treeP := rfl
@[simp] theorem flagBusError_nset (s : State) : s.flagBusError.nset = s.nset := rfl
@[simp] theorem flagBusError_ncount (s : State) : s.flagBusError.ncount = s.ncount := rfl
@[simp] theorem flagBusError_engine (s : State) : s.flagBusError.engine = s.engine := rfl
@[simp] theorem flagBusError_agenda (s : State) : s.flagBusError.agenda = s.agenda := rfl
@[simp] theorem flagBusError_readData (s : State) : s.flagBusError.readData = s.readData := rfl
@[simp] theorem flagBusError_freeIndex (s : State) : s.flagBusError.freeIndex = s.freeIndex := rfl
@[simp] theorem flagBusError_reg (s : State) (r : Reg) : s.flagBusError.reg r = s.reg r := rfl
@[simp] theorem flagBusError_tree (s : State) (t : TreeId) : s.flagBusError.tree t = s.tree t := by cases t <;> rfl

/-! ### setTree -/

@[simp] theorem setTree_w (s : State) (t : TreeId) (x : Tree) : (s.setTree t x).w = s.w := by cases t <;> rfl
@[simp] theorem setTree_path (s : State) (t : TreeId) (x : Tree) : (s.setTree t x).path = s.path := by cases t <;> rfl
@[simp] theorem setTree_flags (s : State) (t : TreeId) (x : Tree) : (s.setTree t x).flags = s.flags := by cases t <;> rfl
@[simp] theorem setTree_status (s : State) (t : TreeId) (x : Tree) : (s.setTree t x).status = s.status := by cases t <;> rfl
@[simp] theorem setTree_cause (s : State) (t : TreeId) (x : Tree) : (s.setTree t x).cause = s.cause := by cases t <;> rfl
@[simp] theorem setTree_errCmd (s : State) (t : TreeId) (x : Tree) : (s.setTree t x).errCmd = s.errCmd := by cases t <;> rfl
@[simp] theorem setTree_cmdLast (s : State) (t : TreeId) (x : Tree) : (s.setTree t x).cmdLast = s.cmdLast := by cases t <;> rfl
@[simp] theorem setTree_now (s : State) (t : TreeId) (x : Tree) : (s.setTree t x).now = s.now := by cases t <;> rfl
@[simp] theorem setTree_nset (s : State) (t : TreeId) (x : Tree) : (s.setTree t x).nset = s.nset := by cases t <;> rfl
@[simp] theorem setTree_ncount (s : State) (t : TreeId) (x : Tree) : (s.setTree t x).ncount = s.ncount := by cases t <;> rfl
@[simp] theorem setTree_engine (s : State) (t : TreeId) (x : Tree) : (s.setTree t x).engine = s.engine := by cases t <;> rfl
@[simp] theorem setTree_agenda (s : State) (t : TreeId) (x : Tree) : (s.setTree t x).agenda = s.agenda := by cases t <;> rfl
@[simp] theorem setTree_readData (s : State) (t : TreeId) (x : Tree) : (s.setTree t x).readData = s.readData := by cases t <;> rfl
@[simp] theorem setTree_freeIndex (s : State) (t : TreeId) (x : Tree) : (s.setTree t x).freeIndex = s.freeIndex := by cases t <;> rfl
@[simp] theorem setTree_reg (s : State) (t : TreeId) (x : Tree) (r : Reg) : (s.setTree t x).reg r = s.reg r := by cases t <;> rfl
@[simp] theorem setTree_tree_same (s : State) (t : TreeId) (x : Tree) : (s.setTree t x).tree t = x := by cases t <;> rfl

theorem setTree_tree_other (s : State) (t u : TreeId) (x : Tree) (h : u ≠ t) : (s.setTree t x).tree u = s.tree u := by
  cases t <;> cases u <;> first | rfl | exact absurd rfl h

/-! ### Operand registers -/

@[simp] theorem setReg_reg_same (s : State) (i : Reg) (v : Word512) : (s.setReg i v).reg i = v := by
  simp [State.reg, State.setReg]

theorem setReg_reg_other (s : State) (i r : Reg) (v : Word512) (h : r ≠ i) : (s.setReg i v).reg r = s.reg r := by
  simp only [State.reg, State.setReg]
  exact Vector.getElem_set_ne _ _ (fun e => h (BitVec.eq_of_toNat_eq e).symm)

@[simp] theorem setRegNat_reg_same (s : State) (i : Reg) (v : Nat) :
    (s.setRegNat i v).reg i = BitVec.ofNat 512 v := setReg_reg_same s i _

theorem setRegNat_reg_other (s : State) (i r : Reg) (v : Nat) (h : r ≠ i) : (s.setRegNat i v).reg r = s.reg r :=
  setReg_reg_other s i r _ h

/-! ### Path entries -/

@[simp] theorem setPath_pathEntry_same (s : State) (j : BitVec 5) (v : Word256) : (s.setPath j v).pathEntry j = v := by
  simp [State.pathEntry, State.setPath]

theorem setPath_pathEntry_other (s : State) (j k : BitVec 5) (v : Word256) (h : k ≠ j) :
    (s.setPath j v).pathEntry k = s.pathEntry k := by
  simp only [State.pathEntry, State.setPath]
  exact Vector.getElem_set_ne _ _ (fun e => h (BitVec.eq_of_toNat_eq e).symm)

end Sys2Proof.Machine
end

