-- ==== Sys2Proof/Laws/Commands.lean ====
section
/-! SUPPORT. What the shared operations of a command can do, once each: how a command completes, what each operand type
accepts, and what each family's pseudocode writes when it raises nothing. -/

set_option Elab.async false

namespace Sys2Proof.Machine

/-! ### Sequencing and completion -/

@[simp] theorem cmd_bind_ok {α β : Type} (a : α) (f : α → Cmd β) : (Except.ok a >>= f : Cmd β) = f a := rfl

@[simp] theorem cmd_bind_error {α β : Type} (e : Trap) (f : α → Cmd β) :
    (Except.error e >>= f : Cmd β) = .error e := rfl

@[simp] theorem cmd_pure {α : Type} (a : α) : (pure a : Cmd α) = .ok a := rfl

@[simp] theorem raise_eq {α : Type} (c : FaultCode) (i : BitVec 8) : (raise c i : Cmd α) = .error ⟨c, i⟩ := rfl

/-- A sequence that raises nothing: both of its parts raise nothing. -/
theorem cmd_bind_eq_ok {α β : Type} (x : Cmd α) (f : α → Cmd β) (b : β) :
    (x >>= f) = .ok b ↔ ∃ a, x = .ok a ∧ f a = .ok b := by
  cases x <;> simp

/-- A command always completes. -/
theorem finish_completes (s : State) (r : Cmd State) : ∃ t, finish s r = .next t := ⟨_, rfl⟩

theorem finish_ok (s u : State) : finish s (.ok u) = .next u.succeed := rfl

theorem finish_error (s : State) (e : Trap) : finish s (.error e) = .next (s.takeFault e) := rfl

/-- A completed command applied all of its writes, or took the fault it raised and made none of them. -/
theorem finish_cases (s t : State) (r : Cmd State) (h : finish s r = .next t) :
    (∃ u, r = .ok u ∧ t = u.succeed) ∨ (∃ e, r = .error e ∧ t = s.takeFault e) := by
  cases r with
  | ok u => exact .inl ⟨u, rfl, by simpa [finish] using h.symm⟩
  | error e => exact .inr ⟨e, rfl, by simpa [finish] using h.symm⟩

/-! ### Operand types -/

theorem opndU_eq_ok (n : Nat) (i : Reg) (s : State) (v : Nat) :
    opndU n i s = .ok v ↔ (s.reg i).toNat = v ∧ v < 2 ^ n := by
  unfold opndU
  split
  · constructor
    · intro h
      cases h
      exact ⟨rfl, ‹_›⟩
    · rintro ⟨rfl, -⟩
      rfl
  · simp only [raise_eq, reduceCtorEq, false_iff, not_and]
    rintro rfl
    assumption

theorem opndU_of_lt (n : Nat) (i : Reg) (s : State) (h : (s.reg i).toNat < 2 ^ n) :
    opndU n i s = .ok (s.reg i).toNat := (opndU_eq_ok n i s _).2 ⟨rfl, h⟩

/-- The 512-bit operand type accepts every register. -/
theorem opndU_512 (i : Reg) (s : State) : opndU 512 i s = .ok (s.reg i).toNat := opndU_of_lt _ _ _ (s.reg i).isLt

theorem opndChecked_eq_ok (ok : Nat → Bool) (c : FaultCode) (i : Reg) (s : State) (v : Nat) :
    opndChecked ok c i s = .ok v ↔ (s.reg i).toNat = v ∧ v < 2 ^ 256 ∧ ok v = true := by
  unfold opndChecked
  cases h : opndU 256 i s with
  | error e =>
    simp only [reduceCtorEq, false_iff, not_and]
    intro h1 h2
    rw [(opndU_eq_ok 256 i s v).2 ⟨h1, h2⟩] at h
    cases h
  | ok u =>
    obtain ⟨h1, h2⟩ := (opndU_eq_ok 256 i s u).1 h
    by_cases hu : ok u = true
    · simp only [hu, if_true, Except.ok.injEq]
      constructor
      · rintro rfl
        exact ⟨h1, h2, hu⟩
      · rintro ⟨rfl, -⟩
        exact h1.symm
    · simp only [hu, if_false, raise_eq, reduceCtorEq, false_iff, not_and]
      rintro rfl - h
      rw [h1] at h
      exact absurd h hu

theorem opndChecked_of (ok : Nat → Bool) (c : FaultCode) (i : Reg) (s : State) (h : (s.reg i).toNat < 2 ^ 256)
    (hok : ok (s.reg i).toNat = true) : opndChecked ok c i s = .ok (s.reg i).toNat :=
  (opndChecked_eq_ok ok c i s _).2 ⟨rfl, h, hok⟩

theorem fieldP_lt : Config.fieldP < 2 ^ 256 := by
  have := Nat.mod_lt Config.fieldPRaw (show 2 ^ 256 - 2 ^ 128 - 1 > 0 by norm_num)
  simp only [Config.fieldP, Config.within]
  omega

theorem lt_fieldP : 2 ^ 128 < Config.fieldP := by
  simp only [Config.fieldP, Config.within]
  omega

theorem maxFeeGrowth_lt : Config.maxFeeGrowth < Config.fieldP :=
  Nat.mod_lt _ (by have := lt_fieldP; omega)

theorem emptyLeaf_felt : Config.emptyLeaf < Config.fieldP := by
  have h := lt_fieldP
  have := Nat.mod_lt Config.emptyLeafRaw (show Config.fieldP - 1 > 0 by omega)
  simp only [Config.emptyLeaf, Config.within]
  omega

theorem emptyLeaf_ne_zero : Config.emptyLeaf ≠ 0 := by simp [Config.emptyLeaf, Config.within]

theorem nodeHash_felt (l r : Nat) : Config.nodeHash l r < Config.fieldP :=
  Nat.mod_lt _ (by have := lt_fieldP; omega)

theorem treeHeight_range : 1 ≤ Config.treeHeight ∧ Config.treeHeight ≤ 32 := by
  have := Nat.mod_lt Config.treeHeightRaw (show 32 > 0 by norm_num)
  simp only [Config.treeHeight, Config.within]
  omega

theorem batchSize_range : 1 ≤ Config.batchSize ∧ Config.batchSize ≤ 256 := by
  have := Nat.mod_lt Config.batchSizeRaw (show 256 > 0 by norm_num)
  simp only [Config.batchSize, Config.within]
  omega

theorem opndFelt_eq_ok (i : Reg) (s : State) (v : Nat) :
    opndFelt i s = .ok v ↔ (s.reg i).toNat = v ∧ v < Config.fieldP := by
  rw [opndFelt, opndChecked_eq_ok]
  have := fieldP_lt
  simp only [decide_eq_true_eq]
  constructor
  · rintro ⟨a, -, c⟩
    exact ⟨a, c⟩
  · rintro ⟨a, c⟩
    exact ⟨a, by omega, c⟩

theorem opndPrice_eq_ok (i : Reg) (s : State) (v : Nat) :
    opndPrice i s = .ok v ↔ (s.reg i).toNat = v ∧ minSqrtRatio ≤ v ∧ v ≤ maxSqrtRatio := by
  rw [opndPrice, opndChecked_eq_ok]
  simp only [priceInRange, Bool.and_eq_true, decide_eq_true_eq]
  constructor
  · rintro ⟨a, -, c⟩
    exact ⟨a, c⟩
  · rintro ⟨a, c⟩
    refine ⟨a, lt_of_le_of_lt c.2 ?_, c⟩
    unfold maxSqrtRatio
    norm_num

theorem opndFg_eq_ok (i : Reg) (s : State) (v : Nat) :
    opndFg i s = .ok v ↔ (s.reg i).toNat = v ∧ v ≤ Config.maxFeeGrowth := by
  rw [opndFg, opndChecked_eq_ok]
  have h1 := fieldP_lt
  have h2 := maxFeeGrowth_lt
  simp only [decide_eq_true_eq]
  constructor
  · rintro ⟨a, -, c⟩
    exact ⟨a, c⟩
  · rintro ⟨a, c⟩
    exact ⟨a, by omega, c⟩

theorem opndTokid_eq_ok (i : Reg) (s : State) (v : Nat) :
    opndTokid i s = .ok v ↔ (s.reg i).toNat = v ∧ v < 2 := by
  rw [opndTokid, opndChecked_eq_ok]
  simp only [decide_eq_true_eq]
  constructor
  · rintro ⟨a, -, c⟩
    exact ⟨a, c⟩
  · rintro ⟨a, c⟩
    exact ⟨a, by omega, c⟩

theorem opndIndex_eq_ok (i : Reg) (s : State) (v : Nat) :
    opndIndex i s = .ok v ↔ (s.reg i).toNat = v ∧ v < 2 ^ Config.treeHeight := by
  rw [opndIndex, opndChecked_eq_ok]
  have h : 2 ^ Config.treeHeight < 2 ^ 256 := Nat.pow_lt_pow_right (by norm_num) (by have := treeHeight_range; omega)
  simp only [decide_eq_true_eq]
  constructor
  · rintro ⟨a, -, c⟩
    exact ⟨a, c⟩
  · rintro ⟨a, c⟩
    exact ⟨a, by omega, c⟩

/-- A decoded tick lies between its bounds. -/
theorem opndTick_ok (neg : Nat) (i : Reg) (s : State) (t : Int) (h : opndTick neg i s = .ok t) :
    (s.reg i).toNat < 2 ^ 256 ∧ signExtended128 (s.reg i).toNat = true ∧ t = intOfBits 128 (s.reg i).toNat ∧
      -(neg : Int) ≤ t ∧ t ≤ maxTick := by
  unfold opndTick at h
  cases hu : opndU 256 i s with
  | error e => simp [hu] at h
  | ok u =>
    obtain ⟨rfl, h2⟩ := (opndU_eq_ok 256 i s u).1 hu
    simp only [hu] at h
    split at h
    · cases h
    · next hs =>
      split at h
      · cases h
      · next ht =>
        cases h
        exact ⟨h2, by simpa using hs, rfl, by omega, by omega⟩

/-- A decoded delta has magnitude below `2^128`. -/
theorem opndDelta_ok (i : Reg) (s : State) (d : Int) (h : opndDelta i s = .ok d) :
    (s.reg i).toNat < 2 ^ 256 ∧ d = intOfBits 256 (s.reg i).toNat ∧ -(2 ^ 128 : Int) < d ∧ d < 2 ^ 128 := by
  unfold opndDelta at h
  cases hu : opndU 256 i s with
  | error e => simp [hu] at h
  | ok u =>
    obtain ⟨rfl, h2⟩ := (opndU_eq_ok 256 i s u).1 hu
    simp only [hu] at h
    split at h
    · cases h
    · next hd =>
      cases h
      exact ⟨h2, rfl, by omega, by omega⟩

/-- The slot of a tick decodes to that tick (R124). -/
theorem opndTick_of_slot (neg : Nat) (i : Reg) (s : State) (t : Int) (h1 : -(neg : Int) ≤ t) (h2 : t ≤ maxTick)
    (hneg : neg ≤ maxTick + 1) (hr : (s.reg i).toNat = encTick t) : opndTick neg i s = .ok t := by
  simp only [maxTick] at h2 hneg
  have hb : encTick t < 2 ^ 256 := by unfold encTick; omega
  have hx : signExtended128 (encTick t) = true := by
    unfold signExtended128 encTick
    rw [beq_iff_eq]
    split <;> omega
  have hi : intOfBits 128 (encTick t) = t := by
    unfold intOfBits encTick
    split <;> omega
  have hnot : ¬ (t > (maxTick : Int) ∨ t < -(neg : Int)) := by simp only [maxTick]; omega
  rw [opndTick, opndU_of_lt 256 i s (by rw [hr]; exact hb)]
  simp only [hr, hx, hi, Bool.true_eq_false, if_false, if_neg hnot]

/-! ### What each family writes -/

theorem addCmd_ok (n : Nat) (rd rs1 rs2 : Reg) (s u : State) (h : addCmd n rd rs1 rs2 s = .ok u) :
    ∃ a b, (s.reg rs1).toNat = a ∧ a < 2 ^ n ∧ (s.reg rs2).toNat = b ∧ b < 2 ^ n ∧
      u = (s.setRegNat rd ((a + b) % 2 ^ n)).setC (carryOut n (a + b)) := by
  simp only [addCmd, cmd_bind_eq_ok, opndU_eq_ok, cmd_pure] at h
  obtain ⟨a, ⟨h1, h2⟩, b, ⟨h3, h4⟩, h⟩ := h
  cases h
  exact ⟨a, b, h1, h2, h3, h4, rfl⟩

theorem subCmd_ok (n : Nat) (rd rs1 rs2 : Reg) (uf : Bool) (s u : State) (h : subCmd n rd rs1 rs2 uf s = .ok u) :
    ∃ a b, (s.reg rs1).toNat = a ∧ a < 2 ^ n ∧ (s.reg rs2).toNat = b ∧ b < 2 ^ n ∧ (b ≤ a ∨ uf = true) ∧
      u = (s.setRegNat rd ((a + 2 ^ n - b) % 2 ^ n)).setC (borrowOut a b) := by
  simp only [subCmd, cmd_bind_eq_ok, opndU_eq_ok, cmd_pure, raise_eq] at h
  obtain ⟨a, ⟨h1, h2⟩, b, ⟨h3, h4⟩, h⟩ := h
  split at h
  · cases h
  · next hc =>
    cases h
    refine ⟨a, b, h1, h2, h3, h4, ?_, rfl⟩
    by_contra hx
    exact hc ⟨by omega, by simpa using fun e => hx (.inr e)⟩

theorem mulCmd_ok (n : Nat) (rd rs1 rs2 : Reg) (s u : State) (h : mulCmd n rd rs1 rs2 s = .ok u) :
    ∃ a b, (s.reg rs1).toNat = a ∧ a < 2 ^ n ∧ (s.reg rs2).toNat = b ∧ b < 2 ^ n ∧ u = s.setRegNat rd (a * b) := by
  simp only [mulCmd, cmd_bind_eq_ok, opndU_eq_ok, cmd_pure] at h
  obtain ⟨a, ⟨h1, h2⟩, b, ⟨h3, h4⟩, h⟩ := h
  cases h
  exact ⟨a, b, h1, h2, h3, h4, rfl⟩

theorem divCheck_ok (acc : Bool) (quo d : Nat) (rs2 rs3 : Reg) :
    divCheck acc quo d rs2 rs3 = .ok () ↔ d ≠ 0 ∧ quo < 2 ^ 256 ∧ acc = true := by
  unfold divCheck
  split
  · simp [*]
  · split
    · simp; omega
    · cases acc <;> simp
      omega

/-- DIVF writes a witness that met the floor identity. -/
theorem divfCmd_ok (rd rs1 rs2 rs3 : Reg) (s u : State) (h : divfCmd rd rs1 rs2 rs3 s = .ok u) :
    ∃ d q, (s.reg rs2).toNat = d ∧ d < 2 ^ 256 ∧ (s.reg rs3).toNat = q ∧ q < 2 ^ 256 ∧ d ≠ 0 ∧
      (s.reg rs1).toNat / d < 2 ^ 256 ∧ floorAccepts (s.reg rs1).toNat d q = true ∧ u = s.setRegNat rd q := by
  simp only [divfCmd, opndU_512, cmd_bind_ok, cmd_bind_eq_ok, opndU_eq_ok, cmd_pure] at h
  obtain ⟨d, ⟨h1, h2⟩, q, ⟨h3, h4⟩, _, hc, h⟩ := h
  obtain ⟨h5, h6, h7⟩ := (divCheck_ok _ _ _ _ _).1 hc
  cases h
  exact ⟨d, q, h1, h2, h3, h4, h5, h6, h7, rfl⟩

/-- DIVC writes a witness that met the ceiling identity. -/
theorem divcCmd_ok (rd rs1 rs2 rs3 : Reg) (s u : State) (h : divcCmd rd rs1 rs2 rs3 s = .ok u) :
    ∃ d q, (s.reg rs2).toNat = d ∧ d < 2 ^ 256 ∧ (s.reg rs3).toNat = q ∧ q < 2 ^ 256 ∧ d ≠ 0 ∧
      cdiv (s.reg rs1).toNat d < 2 ^ 256 ∧ ceilAccepts (s.reg rs1).toNat d q = true ∧ u = s.setRegNat rd q := by
  simp only [divcCmd, opndU_512, cmd_bind_ok, cmd_bind_eq_ok, opndU_eq_ok, cmd_pure] at h
  obtain ⟨d, ⟨h1, h2⟩, q, ⟨h3, h4⟩, _, hc, h⟩ := h
  obtain ⟨h5, h6, h7⟩ := (divCheck_ok _ _ _ _ _).1 hc
  cases h
  exact ⟨d, q, h1, h2, h3, h4, h5, h6, h7, rfl⟩

theorem mulDiv_eq_ok (a b d : Nat) (rup : Bool) (info : BitVec 8) (q : Nat) :
    mulDiv a b d rup info = .ok q ↔ d ≠ 0 ∧ quotient (a * b) d rup < 2 ^ 256 ∧ q = quotient (a * b) d rup := by
  unfold mulDiv
  split
  · simp [*]
  · split
    · simp; omega
    · simp only [Except.ok.injEq]
      constructor
      · rintro rfl
        exact ⟨by assumption, by omega, rfl⟩
      · rintro ⟨-, -, rfl⟩
        rfl

theorem muldivCmd_ok (rd rs1 rs2 rs3 : Reg) (rup : Bool) (s u : State) (h : muldivCmd rd rs1 rs2 rs3 rup s = .ok u) :
    ∃ q, u = s.setRegNat rd q := by
  simp only [muldivCmd, cmd_bind_eq_ok, cmd_pure] at h
  obtain ⟨-, -, -, -, -, -, q, -, h⟩ := h
  cases h
  exact ⟨q, rfl⟩

theorem t2pCmd_ok (rd rs1 : Reg) (s u : State) (h : t2pCmd rd rs1 s = .ok u) :
    ∃ t, opndTick maxTick rs1 s = .ok t ∧ u = s.setRegNat rd (tickToPrice t) := by
  simp only [t2pCmd, cmd_bind_eq_ok, cmd_pure] at h
  obtain ⟨t, ht, h⟩ := h
  cases h
  exact ⟨t, ht, rfl⟩

theorem p2tCmd_ok (rd rs1 : Reg) (s u : State) (h : p2tCmd rd rs1 s = .ok u) :
    ∃ p, opndPrice rs1 s = .ok p ∧ u = s.setRegNat rd (encTick (priceToTick p)) := by
  simp only [p2tCmd, cmd_bind_eq_ok, cmd_pure] at h
  obtain ⟨t, ht, h⟩ := h
  cases h
  exact ⟨t, ht, rfl⟩

theorem tdecCmd_ok (rd rs1 : Reg) (cur : Bool) (s u : State) (h : tdecCmd rd rs1 cur s = .ok u) :
    ∃ t, opndTick (if cur then maxTick + 1 else maxTick) rs1 s = .ok t ∧
      u = (s.setRegNat rd t.natAbs).setN (decide (t < 0)) := by
  simp only [tdecCmd, cmd_bind_eq_ok, cmd_pure] at h
  obtain ⟨t, ht, h⟩ := h
  cases h
  exact ⟨t, ht, rfl⟩

theorem amt0Cmd_ok (rd rs1 rs2 rs3 : Reg) (rup : Bool) (s u : State) (h : amt0Cmd rd rs1 rs2 rs3 rup s = .ok u) :
    ∃ pA pB liq r, opndPrice rs1 s = .ok pA ∧ opndPrice rs2 s = .ok pB ∧ opndU 128 rs3 s = .ok liq ∧
      amount0 pA pB liq rup = .ok r ∧ u = (s.setRegNat rd (guarded r.2 r.1)).setOvf r.2 := by
  simp only [amt0Cmd, cmd_bind_eq_ok, cmd_pure] at h
  obtain ⟨pA, hA, pB, hB, liq, hL, r, hr, h⟩ := h
  cases h
  exact ⟨pA, pB, liq, r, hA, hB, hL, hr, rfl⟩

theorem amt1Cmd_ok (rd rs1 rs2 rs3 : Reg) (rup : Bool) (s u : State) (h : amt1Cmd rd rs1 rs2 rs3 rup s = .ok u) :
    ∃ pA pB liq, opndPrice rs1 s = .ok pA ∧ opndPrice rs2 s = .ok pB ∧ opndU 128 rs3 s = .ok liq ∧
      u = (s.setRegNat rd (guarded (amount1 pA pB liq rup).2 (amount1 pA pB liq rup).1)).setOvf
        (amount1 pA pB liq rup).2 := by
  simp only [amt1Cmd, cmd_bind_eq_ok, cmd_pure] at h
  obtain ⟨pA, hA, pB, hB, liq, hL, h⟩ := h
  cases h
  exact ⟨pA, pB, liq, hA, hB, hL, rfl⟩

theorem laddCmd_ok (rd rs1 rs2 : Reg) (s u : State) (h : laddCmd rd rs1 rs2 s = .ok u) :
    ∃ liq d, opndU 128 rs1 s = .ok liq ∧ opndDelta rs2 s = .ok d ∧ 0 ≤ (liq : Int) + d ∧ (liq : Int) + d < 2 ^ 128 ∧
      u = s.setRegNat rd ((liq : Int) + d).toNat := by
  simp only [laddCmd, cmd_bind_eq_ok, cmd_pure, raise_eq] at h
  obtain ⟨liq, hL, d, hd, h⟩ := h
  split at h
  · cases h
  · split at h
    · cases h
    · cases h
      exact ⟨liq, d, hL, hd, by omega, by omega, rfl⟩

theorem fgchkCmd_ok (rs1 : Reg) (s u : State) (h : fgchkCmd rs1 s = .ok u) : u = s := by
  simp only [fgchkCmd, cmd_bind_eq_ok, cmd_pure] at h
  obtain ⟨_, -, h⟩ := h
  cases h
  rfl

theorem fgchkMonoCmd_ok (rs1 rs2 : Reg) (s u : State) (h : fgchkMonoCmd rs1 rs2 s = .ok u) : u = s := by
  simp only [fgchkMonoCmd, cmd_bind_eq_ok, cmd_pure, raise_eq] at h
  obtain ⟨_, -, _, -, h⟩ := h
  split at h
  · cases h
  · cases h
    rfl

theorem nxpCmd_ok (next : Nat → Nat → Nat → Bool → Nat × Bool) (rd rs1 rs2 rs3 : Reg) (addf : Bool) (s u : State)
    (h : nxpCmd next rd rs1 rs2 rs3 addf s = .ok u) :
    ∃ p liq a, opndPrice rs1 s = .ok p ∧ opndU 128 rs2 s = .ok liq ∧ opndU 128 rs3 s = .ok a ∧
      u = (s.setRegNat rd (guarded (next p liq a addf).2 (next p liq a addf).1)).setOvf (next p liq a addf).2 := by
  simp only [nxpCmd, cmd_bind_eq_ok, cmd_pure] at h
  obtain ⟨p, hp, liq, hL, a, ha, h⟩ := h
  cases h
  exact ⟨p, liq, a, hp, hL, ha, rfl⟩

theorem swapCmd_ok (step : Bool → SwapOperands → Cmd SwapResult) (rd rs1 : Reg) (up : Bool) (s u : State)
    (h : swapCmd step rd rs1 up s = .ok u) :
    ∃ o r, swapOperands rs1 s = .ok o ∧ swapResult step up rs1 o = .ok r ∧ u = writeSwap rd r s := by
  simp only [swapCmd, cmd_bind_eq_ok, cmd_pure] at h
  obtain ⟨o, ho, r, hr, h⟩ := h
  cases h
  exact ⟨o, r, ho, hr, rfl⟩

theorem writeNote_ok (rd : Reg) (nf cm : Nat) (s u : State) (h : writeNote rd nf cm s = .ok u) :
    noteValid nf cm = true ∧ u = (s.setRegNat rd nf).setRegNat (rd + 1) cm := by
  unfold writeNote at h
  split at h
  · next hv =>
    cases h
    exact ⟨hv, rfl⟩
  · cases h

theorem ntokCmd_ok (rd rs1 : Reg) (s u : State) (h : ntokCmd rd rs1 s = .ok u) :
    ∃ nf cm, noteValid nf cm = true ∧ u = (s.setRegNat rd nf).setRegNat (rd + 1) cm := by
  simp only [ntokCmd, cmd_bind_eq_ok] at h
  obtain ⟨_, -, _, -, _, -, _, -, h⟩ := h
  exact ⟨_, _, writeNote_ok _ _ _ _ _ h⟩

theorem nposCmd_ok (rd rs1 : Reg) (s u : State) (h : nposCmd rd rs1 s = .ok u) :
    ∃ nf cm, noteValid nf cm = true ∧ u = (s.setRegNat rd nf).setRegNat (rd + 1) cm := by
  simp only [nposCmd, cmd_bind_eq_ok] at h
  obtain ⟨_, -, _, -, _, -, _, -, _, -, _, -, _, -, h⟩ := h
  exact ⟨_, _, writeNote_ok _ _ _ _ _ h⟩

theorem pathCheckFrom_eq_ok (j : Nat) (ps : List Nat) :
    pathCheckFrom j ps = .ok () ↔ ∀ p ∈ ps, p < Config.fieldP := by
  induction ps generalizing j with
  | nil => simp [pathCheckFrom]
  | cons p ps ih =>
    unfold pathCheckFrom
    split
    · simp [*]
    · simp [*]

theorem pathCheck_eq_ok (s : State) : pathCheck s = .ok () ↔ ∀ p ∈ pathEntries s, p < Config.fieldP :=
  pathCheckFrom_eq_ok 0 _

theorem insertCmd_ok (t : TreeId) (rd rs1 : Reg) (s u : State) (h : insertCmd t rd rs1 s = .ok u) :
    ∃ c, opndFelt rs1 s = .ok c ∧ c ≠ 0 ∧ c ≠ Config.emptyLeaf ∧ (∀ p ∈ pathEntries s, p < Config.fieldP) ∧
      (s.tree t).next ≠ 2 ^ Config.treeHeight ∧
      computeRoot (pathEntries s) Config.emptyLeaf (s.tree t).next = (s.tree t).root ∧
      u = (s.setTree t
        (((s.tree t).maybeFlush s.now).append (computeRoot (pathEntries s) c (s.tree t).next) s.now)).setRegNat rd
          (s.tree t).next := by
  simp only [insertCmd, cmd_bind_eq_ok, cmd_pure, raise_eq] at h
  obtain ⟨c, hc, ⟨⟩, hp, h⟩ := h
  split at h
  · cases h
  · next h1 =>
    split at h
    · cases h
    · next h2 =>
      split at h
      · cases h
      · next h3 =>
        cases h
        push Not at h1 h3
        exact ⟨c, hc, h1.1, h1.2, (pathCheck_eq_ok s).1 hp, h2, h3, rfl⟩

theorem knownCmd_ok (t : TreeId) (rs1 : Reg) (s u : State) (h : knownCmd t rs1 s = .ok u) :
    ∃ r, opndFelt rs1 s = .ok r ∧ u = queryKnown t r s := by
  simp only [knownCmd, cmd_bind_eq_ok, cmd_pure] at h
  obtain ⟨r, hr, h⟩ := h
  cases h
  exact ⟨r, hr, rfl⟩

theorem verifyCmd_ok (t : TreeId) (rs1 rs2 rs3 : Reg) (s u : State) (h : verifyCmd t rs1 rs2 rs3 s = .ok u) :
    ∃ c idx, opndFelt rs1 s = .ok c ∧ opndIndex rs2 s = .ok idx ∧ opndIndex rs3 s = .ok idx ∧
      (∀ p ∈ pathEntries s, p < Config.fieldP) ∧ u = queryKnown t (computeRoot (pathEntries s) c idx) s := by
  simp only [verifyCmd, cmd_bind_eq_ok, cmd_pure, raise_eq] at h
  obtain ⟨c, hc, idx, hi, dirs, hd, ⟨⟩, hp, h⟩ := h
  split at h
  · cases h
  · next hx =>
    push Not at hx
    subst hx
    cases h
    exact ⟨c, _, hc, hi, hd, (pathCheck_eq_ok s).1 hp, rfl⟩

theorem flushCmd_ok (t : TreeId) (s u : State) (h : flushCmd t s = .ok u) :
    u = s.setTree t ((s.tree t).maybeFlush s.now) := by
  cases h
  rfl

theorem nullifyCmd_ok (rs1 : Reg) (s u : State) (h : nullifyCmd rs1 s = .ok u) :
    ∃ n, opndFelt rs1 s = .ok n ∧ n ≠ 0 ∧ n ∉ s.nset ∧ Config.nullifierCapacity ≠ some s.nset.length ∧
      u = { s with nset := nsetInsert n s.nset, ncount := s.ncount + 1 } := by
  simp only [nullifyCmd, cmd_bind_eq_ok, cmd_pure, raise_eq] at h
  obtain ⟨n, hn, h⟩ := h
  split at h
  · cases h
  · next h1 =>
    split at h
    · cases h
    · next h2 =>
      split at h
      · cases h
      · next h3 =>
        cases h
        exact ⟨n, hn, h1, by simpa using h2, h3, rfl⟩

/-- A query writes the tree it flushes and FLAGS.B. -/
@[simp] theorem queryKnown_reg (t : TreeId) (r : Nat) (s : State) (i : Reg) : (queryKnown t r s).reg i = s.reg i := by
  simp [queryKnown]

@[simp] theorem writeSwap_flags (rd : Reg) (r : SwapResult) (s : State) :
    (writeSwap rd r s).flags = { s.flags with lim := r.limited, ovf := r.overflow } := rfl

/-- A swap step writes only the operand registers, LIM and OVF. -/
theorem writeSwap_frame (rd : Reg) (r : SwapResult) (s : State) :
    writeSwap rd r s = { s with w := (writeSwap rd r s).w, flags := (writeSwap rd r s).flags } := rfl

end Sys2Proof.Machine
end

