-- ==== Sys2Proof/Laws/Ledger.lean ====
section
/-! SUPPORT. The canonical forms of NSET and REFCNT are kept by every operation on them, and the ring operations keep the
ring sound (46_ledger.md rules R295 to R298). -/

set_option Elab.async false

namespace Sys2Proof.Machine

/-! ### NSET -/

theorem mem_nsetInsert (n k : Nat) (l : List Nat) : k ∈ nsetInsert n l ↔ k = n ∨ k ∈ l := by
  induction l with
  | nil => simp [nsetInsert]
  | cons m l ih =>
    unfold nsetInsert
    split
    · simp
    · split
      · next h => subst h; simp
      · simp only [List.mem_cons, ih]; tauto

theorem nsetInsert_wf (n : Nat) (l : List Nat) (h : nsetWf l) : nsetWf (nsetInsert n l) := by
  induction l with
  | nil => simp [nsetInsert]
  | cons m l ih =>
    obtain ⟨h1, h2⟩ := List.pairwise_cons.1 h
    unfold nsetInsert
    split
    · refine List.pairwise_cons.2 ⟨fun k hk => ?_, h⟩
      rcases List.mem_cons.1 hk with rfl | hk
      · assumption
      · have := h1 k hk; omega
    · split
      · exact h
      · refine List.pairwise_cons.2 ⟨fun k hk => ?_, ih h2⟩
        rcases (mem_nsetInsert n k l).1 hk with rfl | hk
        · omega
        · exact h1 k hk

theorem nsetInsert_length (n : Nat) (l : List Nat) (h : n ∉ l) : (nsetInsert n l).length = l.length + 1 := by
  induction l with
  | nil => simp [nsetInsert]
  | cons m l ih =>
    rw [List.mem_cons, not_or] at h
    unfold nsetInsert
    split
    · rfl
    · split
      · next hnm => exact absurd hnm h.1
      · simp [ih h.2]

/-! ### REFCNT -/

theorem refCount_of_lt (m : List (Nat × Nat)) (r : Nat) (h : ∀ e ∈ m, r < e.1) : refCount m r = 0 := by
  induction m with
  | nil => rfl
  | cons e m ih =>
    have he := h e List.mem_cons_self
    simp only [refCount]
    rw [if_neg (by omega)]
    exact ih fun x hx => h x (List.mem_cons_of_mem _ hx)

theorem refCount_refEntry (k n q : Nat) (rest : List (Nat × Nat)) (h : ∀ e ∈ rest, k < e.1) :
    refCount (refEntry k n rest) q = if q = k then n else refCount rest q := by
  unfold refEntry
  split
  · next hn =>
    split
    · next hq => rw [hq, refCount_of_lt rest k h, hn]
    · rfl
  · simp only [refCount, eq_comm]

theorem refSet_keys (m : List (Nat × Nat)) (r n b : Nat) (h : ∀ e ∈ m, b < e.1) (hr : b < r) :
    ∀ e ∈ refSet m r n, b < e.1 := by
  induction m with
  | nil =>
    intro e he
    simp only [refSet, refEntry] at he
    split at he
    · cases he
    · rw [List.mem_singleton] at he
      subst he
      exact hr
  | cons x m ih =>
    obtain ⟨k, c⟩ := x
    have hk := h (k, c) List.mem_cons_self
    have hm : ∀ e ∈ m, b < e.1 := fun e he => h e (List.mem_cons_of_mem _ he)
    intro e he
    simp only [refSet, refEntry] at he
    split at he
    · split at he
      · exact h e he
      · rcases List.mem_cons.1 he with rfl | he
        · exact hr
        · exact h e he
    · split at he
      · split at he
        · exact hm e he
        · rcases List.mem_cons.1 he with rfl | he
          · exact hr
          · exact hm e he
      · rcases List.mem_cons.1 he with rfl | he
        · exact hk
        · exact ih hm e he

theorem refEntry_wf (k n : Nat) (rest : List (Nat × Nat)) (h : refWf rest) (hk : ∀ e ∈ rest, k < e.1) :
    refWf (refEntry k n rest) := by
  unfold refEntry
  split
  · exact h
  · next hn =>
    refine ⟨List.pairwise_cons.2 ⟨hk, h.1⟩, fun e he => ?_⟩
    rcases List.mem_cons.1 he with rfl | he
    · exact hn
    · exact h.2 e he

/-- A write of REFCNT keeps its canonical form. -/
theorem refSet_wf (m : List (Nat × Nat)) (r n : Nat) (h : refWf m) : refWf (refSet m r n) := by
  induction m with
  | nil => exact refEntry_wf r n [] h (by simp)
  | cons x m ih =>
    obtain ⟨k, c⟩ := x
    obtain ⟨hp, hz⟩ := h
    obtain ⟨h1, h2⟩ := List.pairwise_cons.1 hp
    have hm : refWf m := ⟨h2, fun e he => hz e (List.mem_cons_of_mem _ he)⟩
    simp only [refSet]
    split
    · next hrk =>
      refine refEntry_wf r n _ ⟨hp, hz⟩ fun e he => ?_
      rcases List.mem_cons.1 he with rfl | he
      · exact hrk
      · have := h1 e he; simp only at this; omega
    · split
      · next hrk => subst hrk; exact refEntry_wf r n m hm h1
      · have ih := ih hm
        refine ⟨List.pairwise_cons.2 ⟨refSet_keys m r n k h1 (by omega), ih.1⟩, fun e he => ?_⟩
        rcases List.mem_cons.1 he with rfl | he
        · exact hz _ List.mem_cons_self
        · exact ih.2 e he

/-- Reading REFCNT after a write: the written count at the written root, the old count elsewhere. -/
theorem refCount_refSet (m : List (Nat × Nat)) (r n q : Nat) (h : refWf m) :
    refCount (refSet m r n) q = if q = r then n else refCount m q := by
  induction m with
  | nil => simpa [refSet, refCount] using refCount_refEntry r n q [] (by simp)
  | cons x m ih =>
    obtain ⟨k, c⟩ := x
    obtain ⟨hp, hz⟩ := h
    obtain ⟨h1, h2⟩ := List.pairwise_cons.1 hp
    have hm : refWf m := ⟨h2, fun e he => hz e (List.mem_cons_of_mem _ he)⟩
    simp only [refSet]
    split
    · next hrk =>
      refine refCount_refEntry r n q _ fun e he => ?_
      rcases List.mem_cons.1 he with rfl | he
      · exact hrk
      · have := h1 e he; simp only at this; omega
    · split
      · next hrk =>
        subst hrk
        rw [refCount_refEntry r n q m h1]
        simp only [refCount]
        split
        · rfl
        · next hq => rw [if_neg (fun e => hq e.symm)]
      · next hrk =>
        simp only [refCount]
        split
        · next hk => subst hk; rw [if_neg (by omega)]
        · exact ih hm

/-! ### The ring -/

/-- The part of a tree's soundness that the ring operations concern. -/
structure RingSound (x : Tree) : Prop where
  hist_felt : ∀ r, some r ∈ x.hist.toList → r < Config.fieldP
  hcnt_eq : x.hcnt = occupied x.hist
  ring_fill : x.hcnt < 256 → x.head.val = x.hcnt ∧ ∀ k : Fin 256, (x.hist[k.val]).isSome = decide (k.val < x.hcnt)
  refcnt_wf : refWf x.refcnt
  refcnt_eq : ∀ r, refCount x.refcnt r = holding x.hist r

theorem TreeSound.ring {x : Tree} {now : Word64} (h : TreeSound x now) : RingSound x :=
  ⟨h.hist_felt, h.hcnt_eq, h.ring_fill, h.refcnt_wf, h.refcnt_eq⟩

theorem holding_set (hist : Vector (Option Nat) 256) (i : Nat) (hi : i < 256) (r q : Nat) :
    holding (hist.set i (some r) hi) q =
      holding hist q - (if hist[i] = some q then 1 else 0) + (if r = q then 1 else 0) := by
  unfold holding
  rw [Vector.toList_set, List.count_set (by simpa using hi)]
  simp [beq_iff_eq]

theorem occupied_set (hist : Vector (Option Nat) 256) (i : Nat) (hi : i < 256) (r : Nat) :
    occupied (hist.set i (some r) hi) = occupied hist - (if hist[i].isSome then 1 else 0) + 1 := by
  unfold occupied
  rw [Vector.toList_set, List.countP_set (by simpa using hi)]
  simp

theorem occupied_le (hist : Vector (Option Nat) 256) : occupied hist ≤ 256 := by
  unfold occupied
  refine List.countP_le_length.trans ?_
  simp

theorem slot_of_full (hist : Vector (Option Nat) 256) (h : occupied hist = 256) (i : Nat) (hi : i < 256) :
    ∃ r, hist[i] = some r := by
  have hall : ∀ a ∈ hist.toList, Option.isSome a = true := by
    rw [← List.countP_eq_length]
    simpa [occupied] using h
  have := hall hist[i] (by rw [← Vector.getElem_toList (h := by simpa using hi)]; exact List.getElem_mem _)
  exact Option.isSome_iff_exists.1 this

theorem holding_pos (hist : Vector (Option Nat) 256) (i : Nat) (hi : i < 256) (r : Nat) (h : hist[i] = some r) :
    0 < holding hist r := by
  unfold holding
  rw [List.count_pos_iff, ← h, ← Vector.getElem_toList (h := by simpa using hi)]
  exact List.getElem_mem _

theorem push_pend (x : Tree) (r : Nat) : (x.push r).pend = x.pend := rfl
theorem push_root (x : Tree) (r : Nat) : (x.push r).root = x.root := rfl
theorem push_next (x : Tree) (r : Nat) : (x.push r).next = x.next := rfl
theorem push_pendT0 (x : Tree) (r : Nat) : (x.push r).pendT0 = x.pendT0 := rfl

/-- The ring push keeps the ring sound (R297). -/
theorem push_ringSound (x : Tree) (r : Nat) (h : RingSound x) (hr : r < Config.fieldP) : RingSound (x.push r) := by
  have hle : x.hcnt ≤ 256 := h.hcnt_eq ▸ occupied_le x.hist
  have hfelt : ∀ q, some q ∈ (x.push r).hist.toList → q < Config.fieldP := by
    intro q hq
    simp only [Tree.push, Vector.toList_set] at hq
    rcases List.mem_or_eq_of_mem_set hq with hq | hq
    · exact h.hist_felt q hq
    · cases hq; exact hr
  by_cases hfull : x.hcnt = 256
  · obtain ⟨old, hold⟩ := slot_of_full x.hist (h.hcnt_eq ▸ hfull) x.head.val x.head.isLt
    have hev : evictRef x = refDown x.refcnt old := by simp [evictRef, hold]
    have hwf : refWf (refDown x.refcnt old) := refSet_wf _ _ _ h.refcnt_wf
    refine ⟨hfelt, ?_, ?_, ?_, ?_⟩
    · have h1 := h.hcnt_eq
      simp only [Tree.push, if_pos hfull, occupied_set, hold, Option.isSome_some, if_true]
      omega
    · intro hlt
      simp only [Tree.push, if_pos hfull] at hlt
      omega
    · simp only [Tree.push, if_pos hfull, hev]
      exact refSet_wf _ _ _ hwf
    · intro q
      simp only [Tree.push, if_pos hfull, hev, refUp]
      rw [refCount_refSet _ _ _ _ hwf, holding_set, hold]
      simp only [refDown, refCount_refSet _ _ _ _ h.refcnt_wf, h.refcnt_eq, Option.some.injEq]
      have hpos := holding_pos x.hist _ x.head.isLt old hold
      rcases eq_or_ne q r with rfl | hqr
      · rcases eq_or_ne q old with rfl | hqo
        · simp
        · simp [hqo, hqo.symm]
      · rcases eq_or_ne q old with rfl | hqo
        · simp [hqr, hqr.symm]
        · simp [hqr, hqr.symm, hqo, hqo.symm]
  · have hlt : x.hcnt < 256 := by omega
    obtain ⟨hhead, hslots⟩ := h.ring_fill hlt
    have hnone : x.hist[x.head.val] = none := by
      have := hslots x.head
      rw [decide_eq_false (by omega)] at this
      simpa using this
    refine ⟨hfelt, ?_, ?_, ?_, ?_⟩
    · have h1 := h.hcnt_eq
      simp only [Tree.push, if_neg hfull, occupied_set, hnone, Option.isSome_none, Bool.false_eq_true, if_false]
      omega
    · intro hlt2
      simp only [Tree.push, if_neg hfull] at hlt2 ⊢
      refine ⟨?_, fun k => ?_⟩
      · rw [Fin.val_add]
        simp only [hhead, Fin.val_one]
        omega
      · rw [Vector.getElem_set]
        by_cases hk : x.head.val = k.val
        · rw [if_pos hk]
          simp only [Option.isSome_some]
          exact (decide_eq_true (by omega)).symm
        · rw [if_neg hk, hslots k]
          exact decide_eq_decide.2 (by omega)
    · simp only [Tree.push, if_neg hfull]
      exact refSet_wf _ _ _ h.refcnt_wf
    · intro q
      simp only [Tree.push, if_neg hfull, refUp]
      rw [refCount_refSet _ _ _ _ h.refcnt_wf, holding_set, hnone]
      simp only [h.refcnt_eq, reduceCtorEq, if_false]
      rcases eq_or_ne q r with rfl | hqr
      · simp
      · simp [hqr, hqr.symm]

/-- Pushing a list of roots touches the ring only, and keeps it sound. -/
theorem pushAll_spec (l : List Nat) (x : Tree) (h : RingSound x) (hl : ∀ r ∈ l, r < Config.fieldP) :
    RingSound (l.foldl Tree.push x) ∧ (l.foldl Tree.push x).root = x.root ∧ (l.foldl Tree.push x).next = x.next ∧
      (l.foldl Tree.push x).pendT0 = x.pendT0 := by
  induction l generalizing x with
  | nil => exact ⟨h, rfl, rfl, rfl⟩
  | cons r l ih =>
    have := ih (x.push r) (push_ringSound x r h (hl r List.mem_cons_self))
      fun q hq => hl q (List.mem_cons_of_mem _ hq)
    exact this

@[simp] theorem flush_pend (x : Tree) : x.flush.pend = [] := rfl

theorem pushAll_fields (l : List Nat) (x : Tree) :
    (l.foldl Tree.push x).root = x.root ∧ (l.foldl Tree.push x).next = x.next ∧
      (l.foldl Tree.push x).pendT0 = x.pendT0 := by
  induction l generalizing x with
  | nil => exact ⟨rfl, rfl, rfl⟩
  | cons r l ih => exact ih (x.push r)

@[simp] theorem flush_root (x : Tree) : x.flush.root = x.root := (pushAll_fields x.pend x).1
@[simp] theorem flush_next (x : Tree) : x.flush.next = x.next := (pushAll_fields x.pend x).2.1
@[simp] theorem flush_pendT0 (x : Tree) : x.flush.pendT0 = x.pendT0 := (pushAll_fields x.pend x).2.2

@[simp] theorem maybeFlush_root (x : Tree) (now : Word64) : (x.maybeFlush now).root = x.root := by
  unfold Tree.maybeFlush; split <;> simp

@[simp] theorem maybeFlush_next (x : Tree) (now : Word64) : (x.maybeFlush now).next = x.next := by
  unfold Tree.maybeFlush; split <;> simp

@[simp] theorem append_root (x : Tree) (r : Nat) (now : Word64) : (x.append r now).root = r := by
  unfold Tree.append; dsimp only; split <;> simp

@[simp] theorem append_next (x : Tree) (r : Nat) (now : Word64) : (x.append r now).next = x.next + 1 := by
  unfold Tree.append; dsimp only; split <;> simp

/-- The flush keeps the ring sound (R298). -/
theorem flush_ringSound (x : Tree) (h : RingSound x) (hp : ∀ r ∈ x.pend, r < Config.fieldP) : RingSound x.flush := by
  obtain ⟨a, -, -, -⟩ := pushAll_spec x.pend x h hp
  exact ⟨a.hist_felt, a.hcnt_eq, a.ring_fill, a.refcnt_wf, a.refcnt_eq⟩

/-- A computed root is a felt when the leaf is (R292). -/
theorem computeRoot_felt (ps : List Nat) (node idx : Nat) (h : node < Config.fieldP) :
    computeRoot ps node idx < Config.fieldP := by
  induction ps generalizing node idx with
  | nil => exact h
  | cons p ps ih =>
    simp only [computeRoot]
    refine ih _ _ ?_
    split <;> exact nodeHash_felt _ _

/-! ### The path, as the statements say it -/

theorem computeRoot_fold (ps : List Nat) (node idx : Nat) :
    computeRoot ps node idx = (List.range ps.length).foldl (fun h i =>
      if idx.testBit i then Config.nodeHash (ps.getD i 0) h else Config.nodeHash h (ps.getD i 0)) node := by
  induction ps generalizing node idx with
  | nil => rfl
  | cons p ps ih =>
    rw [computeRoot, ih, List.length_cons, List.range_succ_eq_map, List.foldl_cons, List.foldl_map]
    simp only [Nat.testBit_zero, List.getD_cons_zero, List.getD_cons_succ, Nat.testBit_succ, decide_eq_true_eq]
    congr 1
    rcases Nat.mod_two_eq_zero_or_one idx with h | h <;> simp [h]

theorem pathEntries_length (s : State) : (pathEntries s).length = Config.treeHeight := by
  have := treeHeight_range.2
  simp [pathEntries]
  omega

theorem pathEntries_getD (s : State) (i : Nat) (h : i < Config.treeHeight) : (pathEntries s).getD i 0 = s.sibling i := by
  have := treeHeight_range.2
  have h32 : i < 32 := by omega
  simp only [pathEntries, State.sibling, dif_pos h32, List.getD_eq_getElem?_getD, List.getElem?_map,
    List.getElem?_take, if_pos h]
  simp [h32]

/-- The machine's ComputeRoot over the path buffer is the statements' (R292). -/
theorem computeRoot_eq_rootOf (s : State) (leaf idx : Nat) :
    computeRoot (pathEntries s) leaf idx = s.rootOf leaf idx := by
  rw [computeRoot_fold, pathEntries_length, State.rootOf]
  apply List.foldl_ext
  intro a i hi
  rw [pathEntries_getD s i (List.mem_range.1 hi)]

theorem pathOk_iff (s : State) : PathOk s ↔ ∀ p ∈ pathEntries s, p < Config.fieldP := by
  constructor
  · intro h p hp
    obtain ⟨i, hi, rfl⟩ := List.mem_iff_getElem.1 hp
    rw [pathEntries_length] at hi
    have := pathEntries_getD s i hi
    rw [List.getD_eq_getElem?_getD, List.getElem?_eq_getElem (by rw [pathEntries_length]; exact hi)] at this
    simp at this
    rw [this]
    exact h i hi
  · intro h j hj
    rw [← pathEntries_getD s j hj, List.getD_eq_getElem?_getD,
      List.getElem?_eq_getElem (by rw [pathEntries_length]; exact hj)]
    exact h _ (List.getElem_mem _)

theorem exec_insertAt (t : TreeId) (rd rs1 : Reg) (s : State) :
    exec (insertAt t rd rs1) s = finish s (insertCmd t rd rs1 s) := by cases t <;> rfl

theorem exec_knownAt (t : TreeId) (rs1 : Reg) (s : State) :
    exec (knownAt t rs1) s = finish s (knownCmd t rs1 s) := by cases t <;> rfl

theorem exec_verifyAt (t : TreeId) (rs1 rs2 rs3 : Reg) (s : State) :
    exec (verifyAt t rs1 rs2 rs3) s = finish s (verifyCmd t rs1 rs2 rs3 s) := by cases t <;> rfl

theorem exec_flushAt (t : TreeId) (s : State) : exec (flushAt t) s = finish s (flushCmd t s) := by cases t <;> rfl

end Sys2Proof.Machine
end

