-- ==== Sys2Proof/Laws/PerInstr.lean ====
section
/-! SUPPORT. The round trip of the encoding, command by command: the CMD value of a well-formed command decodes to that
command (30_encoding.md rules R90 to R107). -/

set_option Elab.async false

namespace Sys2Proof

/-- The fields of an assembled command word are the ones it was assembled from. -/
theorem fieldsOf_commandWord (op : Opcode) (rd rs1 rs2 rs3 : Reg) (mode : BitVec 8) :
    fieldsOf (commandWord op rd rs1 rs2 rs3 mode) = ⟨op.bits, rd, rs1, rs2, rs3, mode⟩ := by
  simp only [fieldsOf, commandWord, Fields.mk.injEq]
  refine ⟨?_, ?_, ?_, ?_, ?_, ?_⟩ <;>
  · ext k hk
    simp only [BitVec.getElem_extractLsb', BitVec.getLsbD_append]
    repeat' split
    all_goals first | omega | (rw [← BitVec.getLsbD_eq_getElem]; congr 1; omega)

theorem opcodeOf_bits (op : Opcode) : opcodeOf op.bits = some op := by cases op <;> decide

/-- The high half of an encoded CMD value is 0 and its low half is the command word. -/
theorem decode_encodeCmd_eq (i : Instr) : decode (encodeCmd i) = decodeWord (encode i) := by
  have h1 : (encodeCmd i).extractLsb' 32 32 = 0 := by
    ext k hk
    simp [encodeCmd]
  have h2 : (encodeCmd i).extractLsb' 0 32 = encode i := by
    apply BitVec.eq_of_toNat_eq
    have := (encode i).isLt
    simp only [encodeCmd, BitVec.extractLsb'_toNat, BitVec.toNat_setWidth]
    omega
  rw [decode, if_pos h1, h2]

/-- Decoding a command word is the checks (3) to (5) of R103 on its own fields. -/
theorem decodeWord_commandWord (op : Opcode) (rd rs1 rs2 rs3 : Reg) (mode : BitVec 8) :
    decodeWord (commandWord op rd rs1 rs2 rs3 mode) =
      if modeLegal op mode then
        if unusedZero op ⟨op.bits, rd, rs1, rs2, rs3, mode⟩ then
          if (assemble op ⟨op.bits, rd, rs1, rs2, rs3, mode⟩).wellFormed then
            .ok (assemble op ⟨op.bits, rd, rs1, rs2, rs3, mode⟩) else .error .blockRange
        else .error .unusedField
      else .error .illegalMode := by
  simp only [decodeWord, fieldsOf_commandWord, opcodeOf_bits]

theorem modeBit_bit (b : Bool) : (modeBit b).getLsbD 0 = b := by cases b <;> decide

/-- A well-formed command whose fields are legal and stand for it decodes from its own word. -/
theorem decode_encodeCmd_of (i : Instr) (op : Opcode) (rd rs1 rs2 rs3 : Reg) (mode : BitVec 8)
    (he : encode i = commandWord op rd rs1 rs2 rs3 mode) (hm : modeLegal op mode = true)
    (hu : unusedZero op ⟨op.bits, rd, rs1, rs2, rs3, mode⟩ = true)
    (ha : assemble op ⟨op.bits, rd, rs1, rs2, rs3, mode⟩ = i) (hw : i.wellFormed = true) :
    decode (encodeCmd i) = .ok i := by
  rw [decode_encodeCmd_eq, he, decodeWord_commandWord, if_pos hm, if_pos hu, ha, if_pos hw]

/-- A well-formed command's CMD value decodes to it. -/
def Laws.RoundTrip.Statement (i : Instr) : Prop := i.wellFormed = true → decode (encodeCmd i) = .ok i

theorem Laws.RoundTrip.nop : Laws.RoundTrip.Statement .nop :=
  decode_encodeCmd_of _ .nop 0 0 0 0 0 rfl rfl rfl rfl

theorem Laws.RoundTrip.add128 (rd rs1 rs2 : Reg) : Laws.RoundTrip.Statement (.add128 rd rs1 rs2) :=
  decode_encodeCmd_of _ .add rd rs1 rs2 0 0 rfl rfl rfl rfl

theorem Laws.RoundTrip.add256 (rd rs1 rs2 : Reg) : Laws.RoundTrip.Statement (.add256 rd rs1 rs2) :=
  decode_encodeCmd_of _ .add rd rs1 rs2 0 1 rfl rfl rfl rfl

theorem Laws.RoundTrip.add512 (rd rs1 rs2 : Reg) : Laws.RoundTrip.Statement (.add512 rd rs1 rs2) :=
  decode_encodeCmd_of _ .add rd rs1 rs2 0 2 rfl rfl rfl rfl

theorem Laws.RoundTrip.sub128 (rd rs1 rs2 : Reg) (uf : Bool) : Laws.RoundTrip.Statement (.sub128 rd rs1 rs2 uf) :=
  decode_encodeCmd_of _ .sub rd rs1 rs2 0 (subMode 0 uf) rfl (by cases uf <;> rfl) rfl
    (by cases uf <;> simp [assemble, subMode])

theorem Laws.RoundTrip.sub256 (rd rs1 rs2 : Reg) (uf : Bool) : Laws.RoundTrip.Statement (.sub256 rd rs1 rs2 uf) :=
  decode_encodeCmd_of _ .sub rd rs1 rs2 0 (subMode 1 uf) rfl (by cases uf <;> rfl) rfl
    (by cases uf <;> simp [assemble, subMode])

theorem Laws.RoundTrip.sub512 (rd rs1 rs2 : Reg) (uf : Bool) : Laws.RoundTrip.Statement (.sub512 rd rs1 rs2 uf) :=
  decode_encodeCmd_of _ .sub rd rs1 rs2 0 (subMode 2 uf) rfl (by cases uf <;> rfl) rfl
    (by cases uf <;> simp [assemble, subMode])

theorem Laws.RoundTrip.mul128 (rd rs1 rs2 : Reg) : Laws.RoundTrip.Statement (.mul128 rd rs1 rs2) :=
  decode_encodeCmd_of _ .mul rd rs1 rs2 0 0 rfl rfl rfl rfl

theorem Laws.RoundTrip.mul256 (rd rs1 rs2 : Reg) : Laws.RoundTrip.Statement (.mul256 rd rs1 rs2) :=
  decode_encodeCmd_of _ .mul rd rs1 rs2 0 1 rfl rfl rfl rfl

theorem Laws.RoundTrip.divf (rd rs1 rs2 rs3 : Reg) : Laws.RoundTrip.Statement (.divf rd rs1 rs2 rs3) :=
  decode_encodeCmd_of _ .divf rd rs1 rs2 rs3 0 rfl rfl rfl rfl

theorem Laws.RoundTrip.divc (rd rs1 rs2 rs3 : Reg) : Laws.RoundTrip.Statement (.divc rd rs1 rs2 rs3) :=
  decode_encodeCmd_of _ .divc rd rs1 rs2 rs3 0 rfl rfl rfl rfl

theorem Laws.RoundTrip.muldiv (rd rs1 rs2 rs3 : Reg) (rup : Bool) :
    Laws.RoundTrip.Statement (.muldiv rd rs1 rs2 rs3 rup) :=
  decode_encodeCmd_of _ .muldiv rd rs1 rs2 rs3 (modeBit rup) rfl (by cases rup <;> rfl) rfl
    (congrArg (Instr.muldiv rd rs1 rs2 rs3) (modeBit_bit rup))

theorem Laws.RoundTrip.t2p (rd rs1 : Reg) : Laws.RoundTrip.Statement (.t2p rd rs1) :=
  decode_encodeCmd_of _ .t2p rd rs1 0 0 0 rfl rfl rfl rfl

theorem Laws.RoundTrip.p2t (rd rs1 : Reg) : Laws.RoundTrip.Statement (.p2t rd rs1) :=
  decode_encodeCmd_of _ .p2t rd rs1 0 0 0 rfl rfl rfl rfl

theorem Laws.RoundTrip.tdec (rd rs1 : Reg) (cur : Bool) : Laws.RoundTrip.Statement (.tdec rd rs1 cur) :=
  decode_encodeCmd_of _ .tdec rd rs1 0 0 (modeBit cur) rfl (by cases cur <;> rfl) rfl
    (congrArg (Instr.tdec rd rs1) (modeBit_bit cur))

theorem Laws.RoundTrip.amt0 (rd rs1 rs2 rs3 : Reg) (rup : Bool) :
    Laws.RoundTrip.Statement (.amt0 rd rs1 rs2 rs3 rup) :=
  decode_encodeCmd_of _ .amt0 rd rs1 rs2 rs3 (modeBit rup) rfl (by cases rup <;> rfl) rfl
    (congrArg (Instr.amt0 rd rs1 rs2 rs3) (modeBit_bit rup))

theorem Laws.RoundTrip.amt1 (rd rs1 rs2 rs3 : Reg) (rup : Bool) :
    Laws.RoundTrip.Statement (.amt1 rd rs1 rs2 rs3 rup) :=
  decode_encodeCmd_of _ .amt1 rd rs1 rs2 rs3 (modeBit rup) rfl (by cases rup <;> rfl) rfl
    (congrArg (Instr.amt1 rd rs1 rs2 rs3) (modeBit_bit rup))

theorem Laws.RoundTrip.ladd (rd rs1 rs2 : Reg) : Laws.RoundTrip.Statement (.ladd rd rs1 rs2) :=
  decode_encodeCmd_of _ .ladd rd rs1 rs2 0 0 rfl rfl rfl rfl

theorem Laws.RoundTrip.fgchk (rs1 : Reg) : Laws.RoundTrip.Statement (.fgchk rs1) :=
  decode_encodeCmd_of _ .fgchk 0 rs1 0 0 0 rfl rfl (by simp [unusedZero]) (by simp [assemble])

theorem Laws.RoundTrip.fgchkMono (rs1 rs2 : Reg) : Laws.RoundTrip.Statement (.fgchkMono rs1 rs2) :=
  decode_encodeCmd_of _ .fgchk 0 rs1 rs2 0 1 rfl rfl (by simp [unusedZero]) (by simp [assemble])

theorem Laws.RoundTrip.nxp0 (rd rs1 rs2 rs3 : Reg) (addf : Bool) :
    Laws.RoundTrip.Statement (.nxp0 rd rs1 rs2 rs3 addf) :=
  decode_encodeCmd_of _ .nxp0 rd rs1 rs2 rs3 (modeBit addf) rfl (by cases addf <;> rfl) rfl
    (congrArg (Instr.nxp0 rd rs1 rs2 rs3) (modeBit_bit addf))

theorem Laws.RoundTrip.nxp1 (rd rs1 rs2 rs3 : Reg) (addf : Bool) :
    Laws.RoundTrip.Statement (.nxp1 rd rs1 rs2 rs3 addf) :=
  decode_encodeCmd_of _ .nxp1 rd rs1 rs2 rs3 (modeBit addf) rfl (by cases addf <;> rfl) rfl
    (congrArg (Instr.nxp1 rd rs1 rs2 rs3) (modeBit_bit addf))

theorem Laws.RoundTrip.swapi (rd rs1 : Reg) (up : Bool) : Laws.RoundTrip.Statement (.swapi rd rs1 up) :=
  decode_encodeCmd_of _ .swapi rd rs1 0 0 (modeBit up) rfl (by cases up <;> rfl) rfl
    (congrArg (Instr.swapi rd rs1) (modeBit_bit up))

theorem Laws.RoundTrip.swapo (rd rs1 : Reg) (up : Bool) : Laws.RoundTrip.Statement (.swapo rd rs1 up) :=
  decode_encodeCmd_of _ .swapo rd rs1 0 0 (modeBit up) rfl (by cases up <;> rfl) rfl
    (congrArg (Instr.swapo rd rs1) (modeBit_bit up))

theorem Laws.RoundTrip.ntok (rd rs1 : Reg) : Laws.RoundTrip.Statement (.ntok rd rs1) :=
  decode_encodeCmd_of _ .ntok rd rs1 0 0 0 rfl rfl rfl rfl

theorem Laws.RoundTrip.npos (rd rs1 : Reg) : Laws.RoundTrip.Statement (.npos rd rs1) :=
  decode_encodeCmd_of _ .npos rd rs1 0 0 0 rfl rfl rfl rfl

theorem Laws.RoundTrip.insertT0 (rd rs1 : Reg) : Laws.RoundTrip.Statement (.insertT0 rd rs1) :=
  decode_encodeCmd_of _ .insert rd rs1 0 0 0 rfl rfl rfl rfl

theorem Laws.RoundTrip.insertT1 (rd rs1 : Reg) : Laws.RoundTrip.Statement (.insertT1 rd rs1) :=
  decode_encodeCmd_of _ .insert rd rs1 0 0 1 rfl rfl rfl rfl

theorem Laws.RoundTrip.insertTP (rd rs1 : Reg) : Laws.RoundTrip.Statement (.insertTP rd rs1) :=
  decode_encodeCmd_of _ .insert rd rs1 0 0 2 rfl rfl rfl rfl

theorem Laws.RoundTrip.knownT0 (rs1 : Reg) : Laws.RoundTrip.Statement (.knownT0 rs1) :=
  decode_encodeCmd_of _ .known 0 rs1 0 0 0 rfl rfl rfl rfl

theorem Laws.RoundTrip.knownT1 (rs1 : Reg) : Laws.RoundTrip.Statement (.knownT1 rs1) :=
  decode_encodeCmd_of _ .known 0 rs1 0 0 1 rfl rfl rfl rfl

theorem Laws.RoundTrip.knownTP (rs1 : Reg) : Laws.RoundTrip.Statement (.knownTP rs1) :=
  decode_encodeCmd_of _ .known 0 rs1 0 0 2 rfl rfl rfl rfl

theorem Laws.RoundTrip.verifyT0 (rs1 rs2 rs3 : Reg) : Laws.RoundTrip.Statement (.verifyT0 rs1 rs2 rs3) :=
  decode_encodeCmd_of _ .verify 0 rs1 rs2 rs3 0 rfl rfl rfl rfl

theorem Laws.RoundTrip.verifyT1 (rs1 rs2 rs3 : Reg) : Laws.RoundTrip.Statement (.verifyT1 rs1 rs2 rs3) :=
  decode_encodeCmd_of _ .verify 0 rs1 rs2 rs3 1 rfl rfl rfl rfl

theorem Laws.RoundTrip.verifyTP (rs1 rs2 rs3 : Reg) : Laws.RoundTrip.Statement (.verifyTP rs1 rs2 rs3) :=
  decode_encodeCmd_of _ .verify 0 rs1 rs2 rs3 2 rfl rfl rfl rfl

theorem Laws.RoundTrip.nullify (rs1 : Reg) : Laws.RoundTrip.Statement (.nullify rs1) :=
  decode_encodeCmd_of _ .nullify 0 rs1 0 0 0 rfl rfl rfl rfl

theorem Laws.RoundTrip.flushT0 : Laws.RoundTrip.Statement .flushT0 :=
  decode_encodeCmd_of _ .flush 0 0 0 0 0 rfl rfl rfl rfl

theorem Laws.RoundTrip.flushT1 : Laws.RoundTrip.Statement .flushT1 :=
  decode_encodeCmd_of _ .flush 0 0 0 0 1 rfl rfl rfl rfl

theorem Laws.RoundTrip.flushTP : Laws.RoundTrip.Statement .flushTP :=
  decode_encodeCmd_of _ .flush 0 0 0 0 2 rfl rfl rfl rfl

end Sys2Proof
end

