-- ==== Sys2Proof/Laws/TickMath.lean ====
section
/-! SUPPORT. `T` is strictly increasing over either tick table, so the binary search of P2T finds the greatest tick at or
below a price (42_tickmath.md rules R172, R174, R176). The source claims the monotonicity and the spec leaves it to be
proved (93_implementation_defined.md I9). -/

set_option Elab.async false

namespace Sys2Proof.Machine

/-- The loop with every bit of the magnitude set. -/
def allBitsLoop : List Nat → Nat → Nat
  | [], ratio => ratio
  | c :: cs, ratio => allBitsLoop cs (ratio * c / 2 ^ 128)

theorem ratioLoop_mono (cs : List Nat) (m a b : Nat) (h : a ≤ b) : ratioLoop cs m a ≤ ratioLoop cs m b := by
  induction cs generalizing m a b with
  | nil => simpa [ratioLoop]
  | cons c cs ih =>
    simp only [ratioLoop]
    split
    · exact ih _ _ _ (Nat.div_le_div_right (Nat.mul_le_mul_right c h))
    · exact ih _ _ _ h

/-- The loop is superadditive: the rounding of each multiply-shift loses less on a sum than on its parts. -/
theorem ratioLoop_add (cs : List Nat) (m a b : Nat) :
    ratioLoop cs m a + ratioLoop cs m b ≤ ratioLoop cs m (a + b) := by
  induction cs generalizing m a b with
  | nil => simp [ratioLoop]
  | cons c cs ih =>
    simp only [ratioLoop]
    split
    · refine (ih _ _ _).trans (ratioLoop_mono _ _ _ _ ?_)
      rw [Nat.add_mul]
      exact Nat.div_add_div_le_add_div
    · exact ih _ _ _

theorem mul_shift_le (r c : Nat) (h : c ≤ 2 ^ 128) : r * c / 2 ^ 128 ≤ r :=
  Nat.div_le_of_le_mul (by rw [Nat.mul_comm]; exact Nat.mul_le_mul_right r h)

theorem allBitsLoop_mono (cs : List Nat) (a b : Nat) (h : a ≤ b) : allBitsLoop cs a ≤ allBitsLoop cs b := by
  induction cs generalizing a b with
  | nil => simpa [allBitsLoop]
  | cons c cs ih => exact ih _ _ (Nat.div_le_div_right (Nat.mul_le_mul_right c h))

theorem allBitsLoop_le (cs : List Nat) (hc : ∀ c ∈ cs, c ≤ 2 ^ 128) (m r : Nat) :
    allBitsLoop cs r ≤ ratioLoop cs m r := by
  induction cs generalizing m r with
  | nil => simp [allBitsLoop, ratioLoop]
  | cons c cs ih =>
    have ih := ih fun x hx => hc x (List.mem_cons_of_mem _ hx)
    simp only [allBitsLoop, ratioLoop]
    split
    · exact ih _ _
    · exact (allBitsLoop_mono _ _ _ (mul_shift_le r c (hc c List.mem_cons_self))).trans (ih _ _)

theorem ratioLoop_le (cs : List Nat) (hc : ∀ c ∈ cs, c ≤ 2 ^ 128) (m r : Nat) : ratioLoop cs m r ≤ r := by
  induction cs generalizing m r with
  | nil => simp [ratioLoop]
  | cons c cs ih =>
    have ih := ih fun x hx => hc x (List.mem_cons_of_mem _ hx)
    simp only [ratioLoop]
    split
    · exact (ih _ _).trans (mul_shift_le r c (hc c List.mem_cons_self))
    · exact ih _ _

/-- A closed check of a table: at every level, the magnitude with the lower bits set stays above the magnitude with this
one bit set, by a margin that survives all the later levels. -/
def dropsAt : List Nat → Nat → Bool
  | [], _ => true
  | c :: cs, x =>
    2 ^ 128 * c / 2 ^ 128 ≤ x && 1 ≤ allBitsLoop cs (x - 2 ^ 128 * c / 2 ^ 128) && dropsAt cs (x * c / 2 ^ 128)

/-- A table that passes the check gives a smaller ratio to the next magnitude. -/
theorem ratioLoop_succ_lt (cs : List Nat) (hc : ∀ c ∈ cs, c ≤ 2 ^ 128) (x : Nat) (hx : dropsAt cs x = true) (m : Nat)
    (hm : m + 1 < 2 ^ cs.length) : ratioLoop cs (m + 1) (2 ^ 128) < ratioLoop cs m x := by
  induction cs generalizing x m with
  | nil => simp at hm
  | cons c cs ih =>
    simp only [dropsAt, Bool.and_eq_true, decide_eq_true_eq] at hx
    obtain ⟨⟨hle, hmargin⟩, hrest⟩ := hx
    have hc' : ∀ c ∈ cs, c ≤ 2 ^ 128 := fun x hx => hc x (List.mem_cons_of_mem _ hx)
    rw [List.length_cons, Nat.pow_succ] at hm
    rcases Nat.mod_two_eq_zero_or_one m with h0 | h1
    · have e1 : (m + 1) / 2 = m / 2 := by omega
      have e2 : (m + 1) % 2 = 1 := by omega
      simp only [ratioLoop, e1, e2, h0, if_true, Nat.zero_ne_one, if_false]
      have hsum := ratioLoop_add cs (m / 2) (2 ^ 128 * c / 2 ^ 128) (x - 2 ^ 128 * c / 2 ^ 128)
      rw [Nat.add_sub_cancel' hle] at hsum
      have hpos := allBitsLoop_le cs hc' (m / 2) (x - 2 ^ 128 * c / 2 ^ 128)
      omega
    · have e1 : (m + 1) / 2 = m / 2 + 1 := by omega
      have e2 : (m + 1) % 2 = 0 := by omega
      simp only [ratioLoop, e1, e2, h1, if_true, Nat.zero_ne_one, if_false]
      exact ih hc' _ hrest _ (by omega)

theorem tickConstants_length (table : TickTable) : (tickConstants table).length = 27 := by cases table <;> decide

theorem tickConstants_le (table : TickTable) : ∀ c ∈ tickConstants table, c ≤ 2 ^ 128 := by cases table <;> decide

theorem tickConstants_drop (table : TickTable) : dropsAt (tickConstants table) (2 ^ 128) = true := by
  cases table <;> decide

theorem tickConstants_survive (table : TickTable) : 1 ≤ allBitsLoop (tickConstants table) (2 ^ 128) := by
  cases table <;> decide

/-- The ratio of the next magnitude is smaller. -/
theorem ratio_succ_lt (table : TickTable) (m : Nat) (hm : m < maxTick) :
    ratioLoop (tickConstants table) (m + 1) (2 ^ 128) < ratioLoop (tickConstants table) m (2 ^ 128) :=
  ratioLoop_succ_lt _ (tickConstants_le table) _ (tickConstants_drop table) m
    (by rw [tickConstants_length]; simp only [maxTick] at hm; omega)

theorem ratio_le (table : TickTable) (m : Nat) : ratioLoop (tickConstants table) m (2 ^ 128) ≤ 2 ^ 128 :=
  ratioLoop_le _ (tickConstants_le table) _ _

theorem ratio_pos (table : TickTable) (m : Nat) : 0 < ratioLoop (tickConstants table) m (2 ^ 128) :=
  (tickConstants_survive table).trans (allBitsLoop_le _ (tickConstants_le table) _ _)

/-- Inverting keeps strictness: below `2^128`, a smaller ratio has a strictly greater inverse. -/
theorem inverse_lt (a b : Nat) (ha : 0 < a) (hab : a < b) (hb : b ≤ 2 ^ 128) :
    (2 ^ 256 - 1) / b < (2 ^ 256 - 1) / a := by
  have hq : a ≤ (2 ^ 256 - 1) / b := by
    rw [Nat.le_div_iff_mul_le (by omega)]
    calc a * b ≤ (2 ^ 128 - 1) * 2 ^ 128 := Nat.mul_le_mul (by omega) hb
      _ ≤ 2 ^ 256 - 1 := by norm_num
  rw [← Nat.succ_le_iff, Nat.le_div_iff_mul_le ha]
  have h1 : (2 ^ 256 - 1) / b * b ≤ 2 ^ 256 - 1 := Nat.div_mul_le_self _ _
  calc ((2 ^ 256 - 1) / b).succ * a = (2 ^ 256 - 1) / b * a + a := Nat.succ_mul _ _
    _ ≤ (2 ^ 256 - 1) / b * a + (2 ^ 256 - 1) / b := by omega
    _ = (2 ^ 256 - 1) / b * (a + 1) := by ring
    _ ≤ (2 ^ 256 - 1) / b * b := Nat.mul_le_mul_left _ hab
    _ ≤ 2 ^ 256 - 1 := h1

theorem tickToPriceWith_nonpos (table : TickTable) (m : Nat) :
    tickToPriceWith table (-(m : Int)) = ratioLoop (tickConstants table) m (2 ^ 128) := by
  have h : ¬ (-(m : Int) > 0) := by omega
  rw [tickToPriceWith, if_neg h, Int.natAbs_neg, Int.natAbs_natCast]

theorem tickToPriceWith_pos (table : TickTable) (m : Nat) (hm : 0 < m) :
    tickToPriceWith table (m : Int) = (2 ^ 256 - 1) / ratioLoop (tickConstants table) m (2 ^ 128) := by
  have h : (m : Int) > 0 := by omega
  rw [tickToPriceWith, if_pos h, Int.natAbs_natCast]

theorem ratio_zero (table : TickTable) : ratioLoop (tickConstants table) 0 (2 ^ 128) = 2 ^ 128 := by
  cases table <;> decide

/-- One tick up is a strictly higher price. -/
theorem tickToPriceWith_succ_lt (table : TickTable) (t : Int) (h1 : -(maxTick : Int) ≤ t) (h2 : t < maxTick) :
    tickToPriceWith table t < tickToPriceWith table (t + 1) := by
  rcases lt_or_ge t 0 with hneg | hpos
  · obtain ⟨m, hm⟩ : ∃ m : Nat, t = -((m + 1 : Nat) : Int) := ⟨t.natAbs - 1, by omega⟩
    have e : t + 1 = -((m : Nat) : Int) := by omega
    rw [e, hm, tickToPriceWith_nonpos, tickToPriceWith_nonpos]
    exact ratio_succ_lt table m (by omega)
  · obtain ⟨m, rfl⟩ : ∃ m : Nat, t = m := ⟨t.natAbs, by omega⟩
    have hm : m < maxTick := by omega
    have hlt := ratio_succ_lt table m hm
    rw [show ((m : Int) + 1) = ((m + 1 : Nat) : Int) by omega, tickToPriceWith_pos table (m + 1) (by omega)]
    rcases Nat.eq_zero_or_pos m with rfl | hm0
    · have e0 : tickToPriceWith table ((0 : Nat) : Int) = 2 ^ 128 := by
        rw [← ratio_zero table]
        exact tickToPriceWith_nonpos table 0
      rw [e0]
      have hp := ratio_pos table 1
      rw [ratio_zero] at hlt
      have hstep : 2 ^ 128 < (2 ^ 256 - 1) / ratioLoop (tickConstants table) (0 + 1) (2 ^ 128) := by
        rw [← Nat.succ_le_iff, Nat.le_div_iff_mul_le (by simpa using hp)]
        calc (2 ^ 128).succ * ratioLoop (tickConstants table) (0 + 1) (2 ^ 128)
            ≤ (2 ^ 128).succ * (2 ^ 128 - 1) := Nat.mul_le_mul_left _ (by omega)
          _ ≤ 2 ^ 256 - 1 := by norm_num
      exact hstep
    · rw [tickToPriceWith_pos table m hm0]
      exact inverse_lt _ _ (ratio_pos table _) hlt (ratio_le table m)

/-- A higher tick has a strictly higher price. -/
theorem tickToPriceWith_lt (table : TickTable) (t u : Int) (h1 : -(maxTick : Int) ≤ t) (htu : t < u)
    (h2 : u ≤ maxTick) : tickToPriceWith table t < tickToPriceWith table u := by
  obtain ⟨n, rfl⟩ : ∃ n : Nat, u = t + 1 + n := ⟨(u - t - 1).toNat, by omega⟩
  induction n with
  | zero => simpa using tickToPriceWith_succ_lt table t h1 (by omega)
  | succ n ih =>
    have hstep := tickToPriceWith_succ_lt table (t + 1 + n) (by omega) (by omega)
    have e : t + 1 + ((n + 1 : Nat) : Int) = t + 1 + n + 1 := by omega
    rw [e]
    exact (ih (by omega) (by omega)).trans hstep

theorem tickToPriceWith_le_iff (table : TickTable) (t u : Int) (ht1 : -(maxTick : Int) ≤ t) (ht2 : t ≤ maxTick)
    (hu1 : -(maxTick : Int) ≤ u) (hu2 : u ≤ maxTick) :
    tickToPriceWith table t ≤ tickToPriceWith table u ↔ t ≤ u := by
  constructor
  · intro h
    by_contra hc
    have := tickToPriceWith_lt table u t hu1 (by omega) ht2
    omega
  · intro h
    rcases eq_or_lt_of_le h with rfl | h
    · exact le_rfl
    · exact (tickToPriceWith_lt table t u ht1 h hu2).le

/-- The lowest tick has the lowest price, under either table (R8). -/
theorem tickToPriceWith_min (table : TickTable) : tickToPriceWith table (-(maxTick : Int)) = minSqrtRatio := by
  cases table <;> decide

/-- The highest tick has the highest price, under either table (R8). -/
theorem tickToPriceWith_max (table : TickTable) : tickToPriceWith table (maxTick : Int) = maxSqrtRatio := by
  cases table <;> decide

/-- What the bitwise search finds for a predicate that, once false, stays false: a number where it holds and above which,
up to `last`, it fails. -/
theorem searchUp_spec (ok : Nat → Bool) (last bits base : Nat) (hdown : ∀ a b, a ≤ b → b ≤ last → ok b = true → ok a = true)
    (hbase : base ≤ last) (hok : ok base = true)
    (htop : ∀ k, base + 2 ^ bits ≤ k → k ≤ last → ok k = false) :
    searchUp ok last bits base ≤ last ∧ ok (searchUp ok last bits base) = true ∧
      ∀ k, searchUp ok last bits base < k → k ≤ last → ok k = false := by
  induction bits generalizing base with
  | zero => exact ⟨hbase, hok, fun k h1 h2 => htop k (by simp only [searchUp] at h1; omega) h2⟩
  | succ bits ih =>
    simp only [searchUp]
    have hpow : 2 ^ (bits + 1) = 2 ^ bits + 2 ^ bits := by ring
    split
    · next h => exact ih _ h.1 h.2 fun k h1 h2 => htop k (by omega) h2
    · next h =>
      refine ih _ hbase hok fun k h1 h2 => ?_
      by_contra hk
      exact h ⟨by omega, hdown _ _ h1 h2 (by simpa using hk)⟩

/-- P2T's search answers the greatest tick whose price does not exceed `p` (R176). -/
theorem priceToTickWith_greatest (table : TickTable) (p : Nat) (hp : minSqrtRatio ≤ p) :
    (-(maxTick : Int) ≤ priceToTickWith table p ∧ priceToTickWith table p ≤ maxTick ∧
      tickToPriceWith table (priceToTickWith table p) ≤ p) ∧
      ∀ t : Int, -(maxTick : Int) ≤ t → t ≤ maxTick → tickToPriceWith table t ≤ p → t ≤ priceToTickWith table p := by
  have spec := searchUp_spec (fun k => tickToPriceWith table ((k : Int) - maxTick) ≤ p) (2 * maxTick) 28 0
    (by
      intro a b hab hb h
      simp only [decide_eq_true_eq] at h ⊢
      exact ((tickToPriceWith_le_iff table _ _ (by omega) (by omega) (by omega) (by omega)).2 (by omega)).trans h)
    (Nat.zero_le _)
    (by
      have := tickToPriceWith_min table
      simp only [decide_eq_true_eq]
      rw [show ((0 : Nat) : Int) - (maxTick : Int) = -(maxTick : Int) by omega, this]
      exact hp)
    (by intro k h1 h2; simp only [maxTick] at h2; omega)
  obtain ⟨hle, hok, htop⟩ := spec
  simp only [decide_eq_true_eq, decide_eq_false_iff_not] at hok htop
  refine ⟨⟨by simp only [priceToTickWith]; omega, by simp only [priceToTickWith]; omega, hok⟩, ?_⟩
  intro t h1 h2 h
  by_contra hc
  simp only [priceToTickWith] at hc
  refine htop (t + maxTick).toNat (by omega) (by omega) ?_
  rw [show (((t + maxTick).toNat : Nat) : Int) - (maxTick : Int) = t by omega]
  exact h

/-- The round trip over the model's functions (R177). -/
theorem priceToTickWith_tickToPriceWith (table : TickTable) (t : Int) (h1 : -(maxTick : Int) ≤ t) (h2 : t ≤ maxTick) :
    priceToTickWith table (tickToPriceWith table t) = t := by
  have hmin : minSqrtRatio ≤ tickToPriceWith table t := by
    rw [← tickToPriceWith_min table]
    exact (tickToPriceWith_le_iff table _ _ le_rfl (by omega) h1 h2).2 h1
  obtain ⟨⟨a, b, c⟩, d⟩ := priceToTickWith_greatest table _ hmin
  exact le_antisymm ((tickToPriceWith_le_iff table _ _ a b h1 h2).1 c) (d t h1 h2 le_rfl)

end Sys2Proof.Machine
end

