-- ==== Sys2Proof/Laws/Window.lean ====
section
/-! SUPPORT. The register window: where an offset lies, and what one access of the host can do (20_memory.md). -/

set_option Elab.async false

namespace Sys2Proof.Machine

/-- Every offset of the window is decoded from its address (R60). -/
@[simp] theorem windowOffset_base (a : BitVec 12) : windowOffset (Config.zlcBase + a.toNat) = some a := by
  have h := a.isLt
  unfold windowOffset
  rw [if_pos (by omega), Nat.add_sub_cancel_left, BitVec.ofNat_toNat, BitVec.setWidth_eq]

/-- No other address is decoded (R60). -/
theorem windowOffset_outside (address : Nat) (h : address < Config.zlcBase ∨ Config.zlcBase + 0x1000 ≤ address) :
    windowOffset address = none := by
  unfold windowOffset
  rw [if_neg (by omega)]

@[simp] theorem hostAccess_readAt (a : BitVec 12) (n : Nat) (s : State) :
    hostAccess (readAt a n) s = readWindow a n s := by
  simp only [hostAccess, readAt, windowOffset_base]

@[simp] theorem hostAccess_writeAt (a : BitVec 12) (n : Nat) (v : Word64) (s : State) :
    hostAccess (writeAt a n v) s = writeWindow a n v s := by
  simp only [hostAccess, writeAt, windowOffset_base]

/-- The bits of the STATUS word (R33). -/
theorem statusWord_bits (s : State) : StatusBits s.statusWord s.busy s.status := by
  unfold State.statusWord
  rcases s.status with ⟨a, b, c, d⟩
  cases s.busy <;> cases a <;> cases b <;> cases c <;> cases d <;> decide

/-- A limb of a 256-bit natural (R12). -/
theorem limb_ofNat (n : Nat) (k : Fin 4) (h : n < 2 ^ 256) :
    limb (BitVec.ofNat 256 n) k.val = BitVec.ofNat 64 (n / 2 ^ (64 * k.val)) := by
  apply BitVec.eq_of_toNat_eq
  simp only [limb, BitVec.extractLsb'_toNat, BitVec.toNat_ofNat, Nat.mod_eq_of_lt h, Nat.shiftRight_eq_div_pow]

/-- A read changes nothing but the read port, the free-value counter and BUSERR. -/
theorem readWindow_cases (a : BitVec 12) (n : Nat) (s : State) :
    ∃ x k b, readWindow a n s = { s with readData := x, freeIndex := k, status := { s.status with buserr := b } } := by
  unfold readWindow hostRead
  split
  · split
    · exact ⟨_, _, s.status.buserr, rfl⟩
    · exact ⟨_, s.freeIndex, s.status.buserr, rfl⟩
  · exact ⟨0, s.freeIndex, true, rfl⟩

/-- A write changes one operand or path entry of an idle block, accepts a command, raises NOW, or changes sticky bits. -/
theorem writeWindow_cases (a : BitVec 12) (n : Nat) (v : Word64) (s : State) :
    (∃ r b1 b2, writeWindow a n v s = { s with status := { s.status with reent := r, wign := b1, buserr := b2 } }) ∨
    (s.engine = none ∧ ((∃ i x, writeWindow a n v s = s.setReg i x) ∨ (∃ j x, writeWindow a n v s = s.setPath j x) ∨
      writeWindow a n v s = s.accept v ∨ (s.now.toNat ≤ v.toNat ∧ writeWindow a n v s = { s with now := v }))) := by
  have same : ∃ r b1 b2, s = { s with status := { s.status with reent := r, wign := b1, buserr := b2 } } :=
    ⟨s.status.reent, s.status.wign, s.status.buserr, rfl⟩
  have idle (h : ¬ s.busy = true) : s.engine = none := by
    cases he : s.engine with
    | none => rfl
    | some c => exact absurd (by simp [State.busy, he]) h
  unfold writeWindow
  split
  · cases targetOf a <;> simp only [hostWrite]
    case operand i k =>
      split
      · exact .inl ⟨s.status.reent, true, s.status.buserr, rfl⟩
      · exact .inr ⟨idle ‹_›, .inl ⟨_, _, rfl⟩⟩
    case path j k =>
      split
      · exact .inl ⟨s.status.reent, true, s.status.buserr, rfl⟩
      · exact .inr ⟨idle ‹_›, .inr (.inl ⟨_, _, rfl⟩)⟩
    case cmd =>
      split
      · exact .inl ⟨true, s.status.wign, s.status.buserr, rfl⟩
      · exact .inr ⟨idle ‹_›, .inr (.inr (.inl rfl))⟩
    case status => exact .inl ⟨_, _, _, rfl⟩
    case now =>
      split
      · exact .inl ⟨s.status.reent, true, s.status.buserr, rfl⟩
      · split
        · exact .inr ⟨idle ‹_›, .inr (.inr (.inr ⟨‹_›, rfl⟩))⟩
        · exact .inl same
    all_goals exact .inl same
  · exact .inl ⟨s.status.reent, s.status.wign, true, rfl⟩

end Sys2Proof.Machine
end

