-- ==== Sys2Proof/Tests/Slice0.lean ====
section
/-! SUPPORT. The model's own tests: the well-formedness smoke, one written-out word for each constructor, the test vectors
of spec/95_test_vectors.md (named by their ids), and a witness for the hypotheses of each statement of
Certificates/Slice0/Obligations.lean. -/

set_option Elab.async false

open Sys2Proof Sys2Proof.Machine

namespace Sys2Proof.Tests

/-! ### Small states -/

/-- A tree with root 0, no batch and no history. -/
def blankTree : Tree where
  root   := 0
  next   := 0
  pend   := []
  pendT0 := 0
  hist   := Vector.replicate 256 none
  head   := 0
  hcnt   := 0
  refcnt := []

/-- An idle state with the given operand registers, every other register 0 and nothing to come. -/
def st (ws : List Nat) : State where
  w       := #v[BitVec.ofNat 512 (ws.getD 0 0), BitVec.ofNat 512 (ws.getD 1 0), BitVec.ofNat 512 (ws.getD 2 0),
    BitVec.ofNat 512 (ws.getD 3 0), BitVec.ofNat 512 (ws.getD 4 0), BitVec.ofNat 512 (ws.getD 5 0),
    BitVec.ofNat 512 (ws.getD 6 0), BitVec.ofNat 512 (ws.getD 7 0), BitVec.ofNat 512 (ws.getD 8 0),
    BitVec.ofNat 512 (ws.getD 9 0), 0, 0, 0, 0, 0, 0]
  path    := Vector.replicate 32 0
  flags   := { c := false, ovf := false, lim := false, b := false, n := false }
  status  := { err := false, reent := false, wign := false, buserr := false }
  cause   := 0
  errCmd  := 0
  cmdLast := 0
  now     := 0
  tree0   := blankTree
  tree1   := blankTree
  treeP   := blankTree
  nset    := []
  ncount  := 0
  engine  := none
  agenda  := []
  readData  := 0
  freeIndex := 0

/-- The state after a command; every command completes. -/
def after (i : Instr) (s : State) : State :=
  match exec i s with
  | .next t => t
  | .fault _ => s
  | .refused _ => s

/-- The command faulted with this cause. -/
def faults (i : Instr) (s : State) (cause : Word64) : Bool := (after i s).status.err && (after i s).cause == cause

/-! ### The well-formedness check refuses each ill-formed block -/

theorem test_wf_swapi_source : (Instr.swapi 0 12 false).wellFormed = false := by decide
theorem test_wf_swapi_dest : (Instr.swapi 13 0 false).wellFormed = false := by decide
theorem test_wf_swapo_source : (Instr.swapo 0 12 true).wellFormed = false := by decide
theorem test_wf_swapo_dest : (Instr.swapo 13 0 true).wellFormed = false := by decide
theorem test_wf_ntok_source : (Instr.ntok 0 13).wellFormed = false := by decide
theorem test_wf_ntok_dest : (Instr.ntok 15 0).wellFormed = false := by decide
theorem test_wf_npos_source : (Instr.npos 0 10).wellFormed = false := by decide
theorem test_wf_npos_dest : (Instr.npos 15 0).wellFormed = false := by decide
theorem test_wf_last_blocks : (Instr.swapi 12 11 true).wellFormed = true ∧ (Instr.swapo 12 11 true).wellFormed = true ∧
    (Instr.ntok 14 12).wellFormed = true ∧ (Instr.npos 14 9).wellFormed = true := by decide

/-! ### One word for each constructor, written out from R91, R94 and R100 -/

theorem test_word_nop : decodeTableWord 32 0x00000000 = some .nop := by decide
theorem test_word_add128 : decodeTableWord 32 0x10401000 = some (.add128 4 0 1) := by decide
theorem test_word_add256 : decodeTableWord 32 0x10401001 = some (.add256 4 0 1) := by decide
theorem test_word_add512 : decodeTableWord 32 0x10400002 = some (.add512 4 0 0) := by decide
theorem test_word_sub128 : decodeTableWord 32 0x11501004 = some (.sub128 5 0 1 true) := by decide
theorem test_word_sub256 : decodeTableWord 32 0x11623001 = some (.sub256 6 2 3 false) := by decide
theorem test_word_sub512 : decodeTableWord 32 0x11500002 = some (.sub512 5 0 0 false) := by decide
theorem test_word_mul128 : decodeTableWord 32 0x12701000 = some (.mul128 7 0 1) := by decide
theorem test_word_mul256 : decodeTableWord 32 0x12700001 = some (.mul256 7 0 0) := by decide
theorem test_word_divf : decodeTableWord 32 0x13870100 = some (.divf 8 7 0 1) := by decide
theorem test_word_divc : decodeTableWord 32 0x14970100 = some (.divc 9 7 0 1) := by decide
theorem test_word_muldiv : decodeTableWord 32 0x15301201 = some (.muldiv 3 0 1 2 true) := by decide
theorem test_word_t2p : decodeTableWord 32 0x20300000 = some (.t2p 3 0) := by decide
theorem test_word_p2t : decodeTableWord 32 0x21730000 = some (.p2t 7 3) := by decide
theorem test_word_tdec : decodeTableWord 32 0x22870001 = some (.tdec 8 7 true) := by decide
theorem test_word_amt0 : decodeTableWord 32 0x30534200 = some (.amt0 5 3 4 2 false) := by decide
theorem test_word_amt1 : decodeTableWord 32 0x31634201 = some (.amt1 6 3 4 2 true) := by decide
theorem test_word_ladd : decodeTableWord 32 0x3292A000 = some (.ladd 9 2 10) := by decide
theorem test_word_fgchk : decodeTableWord 32 0x33010000 = some (.fgchk 1) := by decide
theorem test_word_fgchkMono : decodeTableWord 32 0x33001001 = some (.fgchkMono 0 1) := by decide
theorem test_word_nxp0 : decodeTableWord 32 0x40301201 = some (.nxp0 3 0 1 2 true) := by decide
theorem test_word_nxp1 : decodeTableWord 32 0x41301200 = some (.nxp1 3 0 1 2 false) := by decide
theorem test_word_swapi : decodeTableWord 32 0x42900001 = some (.swapi 9 0 true) := by decide
theorem test_word_swapo : decodeTableWord 32 0x43510000 = some (.swapo 5 1 false) := by decide
theorem test_word_ntok : decodeTableWord 32 0x50E00000 = some (.ntok 14 0) := by decide
theorem test_word_npos : decodeTableWord 32 0x51800000 = some (.npos 8 0) := by decide
theorem test_word_insertT0 : decodeTableWord 32 0x60650000 = some (.insertT0 6 5) := by decide
theorem test_word_insertT1 : decodeTableWord 32 0x60650001 = some (.insertT1 6 5) := by decide
theorem test_word_insertTP : decodeTableWord 32 0x60650002 = some (.insertTP 6 5) := by decide
theorem test_word_knownT0 : decodeTableWord 32 0x61020000 = some (.knownT0 2) := by decide
theorem test_word_knownT1 : decodeTableWord 32 0x61020001 = some (.knownT1 2) := by decide
theorem test_word_knownTP : decodeTableWord 32 0x61020002 = some (.knownTP 2) := by decide
theorem test_word_verifyT0 : decodeTableWord 32 0x62058900 = some (.verifyT0 5 8 9) := by decide
theorem test_word_verifyT1 : decodeTableWord 32 0x62058901 = some (.verifyT1 5 8 9) := by decide
theorem test_word_verifyTP : decodeTableWord 32 0x62058902 = some (.verifyTP 5 8 9) := by decide
theorem test_word_nullify : decodeTableWord 32 0x63040000 = some (.nullify 4) := by decide
theorem test_word_flushT0 : decodeTableWord 32 0x64000000 = some .flushT0 := by decide
theorem test_word_flushT1 : decodeTableWord 32 0x64000001 = some .flushT1 := by decide
theorem test_word_flushTP : decodeTableWord 32 0x64000002 = some .flushTP := by decide

/-- The vectors E2 to E13: what the decoder rejects, and as what. -/
theorem test_decode_rejects : decode 0x00000001 = .error .illegalMode ∧ decode 0x01000000 = .error .reservedOpcode ∧
    decode 0x10401003 = .error .illegalMode ∧ decode 0x12401002 = .error .illegalMode ∧
    decode 0x60100003 = .error .illegalMode ∧ decode 0x33001000 = .error .unusedField ∧
    decode 0x425C0000 = .error .blockRange ∧ decode 0x50F00000 = .error .blockRange ∧
    decode 0x0000000100000000 = .error .highBits ∧ decode 0x10401202 = .error .unusedField ∧
    decode 0x01401003 = .error .reservedOpcode := by decide

/-! ### Results -/

/-- E2: a rejected word is a fault with its cause and ERRCMD. -/
theorem test_E2 : ∃ t, step ((st []).withFetchWord 32 1) = .next t ∧ t.cause = 0x00FF0641 ∧ t.errCmd = 1 ∧
    t.status.err = true ∧ t.engine = none := ⟨_, rfl, by decide, by decide, rfl, rfl⟩

theorem test_B1 : (after (.add256 4 0 1) (st [2 ^ 256 - 1, 1])).val 4 = 0 ∧
    (after (.add256 4 0 1) (st [2 ^ 256 - 1, 1])).flags.c = true := by decide +kernel

theorem test_B3 : (after (.add128 4 0 1) (st [2 ^ 128 - 1, 1])).val 4 = 0 ∧
    (after (.add128 4 0 1) (st [2 ^ 128 - 1, 1])).flags.c = true := by decide +kernel

theorem test_B4 : (after (.add512 4 0 0) (st [2 ^ 512 - 1])).val 4 = 2 ^ 512 - 2 ∧
    (after (.add512 4 0 0) (st [2 ^ 512 - 1])).flags.c = true := by decide +kernel

theorem test_B5 : faults (.add128 4 0 1) (st [2 ^ 128, 0]) 0x0101 = true := by decide +kernel

theorem test_B7 : (after (.sub256 5 3 2 true) (st [0, 0, 5, 3])).val 5 = 2 ^ 256 - 2 ∧
    (after (.sub256 5 3 2 true) (st [0, 0, 5, 3])).flags.c = true := by decide +kernel

theorem test_B8 : faults (.sub256 5 3 2 false) (st [0, 0, 5, 3]) 0x00FF0320 = true := by decide +kernel

theorem test_B8a : (after (.sub128 5 0 1 true) (st [0, 1])).val 5 = 2 ^ 128 - 1 := by decide +kernel

theorem test_B8b : (after (.sub512 5 0 0 false) (st [77])).val 5 = 0 := by decide +kernel

theorem test_B8c : (after (.mul256 7 0 0) (st [2 ^ 256 - 1])).val 7 = 2 ^ 512 - 2 ^ 257 + 1 := by decide +kernel

theorem test_B8d : (after (.mul128 7 0 0) (st [2 ^ 128 - 1])).val 7 = 2 ^ 256 - 2 ^ 129 + 1 := by decide +kernel

theorem test_B9 : (after (.divf 8 7 0 1) (st [2, 3, 0, 0, 0, 0, 0, 7])).val 8 = 3 := by decide +kernel

theorem test_B11 : faults (.divf 8 7 0 1) (st [2, 2, 0, 0, 0, 0, 0, 7]) 0x00010512 = true := by decide +kernel

theorem test_B17 : (after (.divc 9 7 0 1) (st [2, 4, 0, 0, 0, 0, 0, 7])).val 9 = 4 := by decide +kernel

/-- B20: the ceiling of the quotient is 2^256. -/
theorem test_B20 : faults (.divc 9 7 0 1) (st [2, 5, 0, 0, 0, 0, 0, 2 ^ 257 - 1]) 0x00FF0511 = true := by decide +kernel

theorem test_B22 : (after (.muldiv 3 0 1 2 true) (st [10, 10, 3])).val 3 = 34 := by decide +kernel

theorem test_B23 : (after (.muldiv 3 0 1 2 true) (st [6, 4, 8])).val 3 = 3 := by decide +kernel

/-- V2, K2: the price of tick 1 under the two tables. -/
theorem test_V2 : tickToPriceWith .FLOOR 1 = 340282537062079388658008856451427006220 ∧
    tickToPriceWith .CEIL 1 = 340282537062079388658008856451427006219 := by decide +kernel

/-- K11 to K13, K16, K17. -/
theorem test_K11 : tickToPriceWith .FLOOR (-1000) = 340112268350713539826535022315348447440 ∧
    tickToPriceWith .FLOOR 500000 = 436931153360787776972622770968307469193 ∧
    tickToPriceWith .FLOOR (-500000) = 265012206949919706017164685513105969764 ∧
    tickToPriceWith .FLOOR 88722882 = 6277097112037982093607560459510404859184006466505191360460 ∧
    tickToPriceWith .FLOOR (-88722882) = 18446757660520251793 := by decide +kernel

/-- K18 to K21: slots that are no tick of T2P. -/
theorem test_K18 : faults (.t2p 3 0) (st [88722884]) 0x0103 = true ∧ faults (.t2p 3 0) (st [2 ^ 127]) 0x0103 = true ∧
    faults (.t2p 3 0) (st [2 ^ 256]) 0x0101 = true ∧ faults (.t2p 3 0) (st [2 ^ 256 - 88722884]) 0x0103 = true := by
  decide +kernel

/-- K31, K34 to K38. -/
theorem test_K34 : priceToTickWith .FLOOR (2 ^ 128 - 1) = -1 ∧
    priceToTickWith .FLOOR 340452550561671819121545674712898155450 = 999 ∧
    priceToTickWith .FLOOR 340452550561671819121545674712898155452 = 1000 ∧
    priceToTickWith .FLOOR minSqrtRatio = -88722883 ∧ priceToTickWith .FLOOR maxSqrtRatio = 88722883 := by decide +kernel

theorem test_K40 : faults (.p2t 3 0) (st [maxSqrtRatio + 1]) 0x0105 = true := by decide +kernel

theorem test_K50 : (after (.tdec 8 7 false) (st [0, 0, 0, 0, 0, 0, 0, 2 ^ 256 - 1000])).val 8 = 1000 ∧
    (after (.tdec 8 7 false) (st [0, 0, 0, 0, 0, 0, 0, 2 ^ 256 - 1000])).flags.n = true := by decide +kernel

theorem test_K54 : faults (.tdec 8 7 false) (st [0, 0, 0, 0, 0, 0, 0, 2 ^ 256 - 88722884]) 0x00070103 = true ∧
    faults (.tdec 8 7 true) (st [0, 0, 0, 0, 0, 0, 0, 2 ^ 256 - 88722884]) 0x00070103 = false := by decide +kernel

/-- Q1: V3 with its ceiling. -/
theorem test_Q1_amt0 :
    (after (.amt0 3 0 1 2 false) (st [2 ^ 128, 339942424496442021441932674757011200255, 10 ^ 6])).val 3 = 1000 ∧
    (after (.amt0 3 0 1 2 true) (st [2 ^ 128, 339942424496442021441932674757011200255, 10 ^ 6])).val 3 = 1001 := by
  decide +kernel

theorem test_Q1_amt1 :
    (after (.amt1 3 0 1 2 false) (st [2 ^ 128, 339942424496442021441932674757011200255, 10 ^ 6])).val 3 = 999 ∧
    (after (.amt1 3 0 1 2 true) (st [2 ^ 128, 339942424496442021441932674757011200255, 10 ^ 6])).val 3 = 1000 := by
  decide +kernel

/-- Q7: the amount of token0 does not fit 128 bits. -/
theorem test_Q7 : (after (.amt0 3 0 1 2 true) (st [minSqrtRatio, 2 ^ 128, 10 ^ 20, 9])).val 3 = 0 ∧
    (after (.amt0 3 0 1 2 true) (st [minSqrtRatio, 2 ^ 128, 10 ^ 20, 9])).flags.ovf = true := by decide +kernel

theorem test_Q22 : faults (.ladd 9 0 1) (st [0, 2 ^ 256 - 1]) 0x00010322 = true := by decide +kernel

theorem test_Q25 : (after (.ladd 9 0 1) (st [1000, 2 ^ 256 - 1000, 0, 0, 0, 0, 0, 0, 0, 5])).val 9 = 0 := by decide +kernel

theorem test_S1 : (after (.nxp0 3 0 1 2 true) (st [2 ^ 128, 10 ^ 18, 10 ^ 14])).val 3 =
    340248342086729790484326174814286782778 := by decide +kernel

theorem test_S8 : (after (.nxp0 3 0 1 2 false) (st [2 ^ 128, 1, 2 ^ 128 - 1, 9])).val 3 = 0 ∧
    (after (.nxp0 3 0 1 2 false) (st [2 ^ 128, 1, 2 ^ 128 - 1, 9])).flags.ovf = true := by decide +kernel

theorem test_S4 : (after (.nxp1 3 0 1 2 false) (st [2 ^ 128, 10 ^ 18, 10 ^ 14])).val 3 =
    340248338684246369617028269971025034634 := by decide +kernel

theorem test_S10 : (after (.nxp1 3 0 1 2 true) (st [maxSqrtRatio, 1, 1, 9])).flags.ovf = true := by decide +kernel

/-- Vectors' pool: start price 2^128, liquidity 10^18, fee f3 of 95_test_vectors.md. -/
def pool (limit amount : Nat) : State := st [2 ^ 128, limit, 10 ^ 18, amount, 1020847100762815390390123822295304634]

/-- The four results of a swap step written to W5 to W8, and LIM and OVF. -/
def swapped (i : Instr) (s : State) : List Nat × Bool × Bool :=
  ([(after i s).val 5, (after i s).val 6, (after i s).val 7, (after i s).val 8], (after i s).flags.lim,
    (after i s).flags.ovf)

theorem test_S20 : swapped (.swapi 5 0 false) (pool 340112268350713539826535022315348447440 (10 ^ 14)) =
    ([340248444151056603120043539090920846648, 100000000000000, 99690060900928, 300000000000], false, false) := by
  decide +kernel

theorem test_S21 : swapped (.swapi 5 0 false) (pool 340265353236444914223731134834256897675 (10 ^ 15)) =
    ([340265353236444914223731134834256897675, 50151680059781, 49998725022099, 150455040180], true, false) := by
  decide +kernel

theorem test_S25 : swapped (.swapo 5 0 true) (pool 340452550561671819121545674712898155451 (10 ^ 14)) =
    ([340316398560794542917666374069175128969, 100310933801506, 100000000000000, 300932801405], false, false) := by
  decide +kernel

/-- S39: an amount does not fit 128 bits, and LIM is set all the same. -/
theorem test_S39 : swapped (.swapo 5 0 true) (st [2 ^ 128, maxSqrtRatio, 2 ^ 128 - 1, 2 ^ 128 - 1, 0]) =
    ([0, 0, 0, 0], true, true) := by decide +kernel

theorem test_N2 : faults (.ntok 8 0) (st [2]) 0x0107 = true := by decide +kernel

theorem test_N3 : faults (.ntok 8 0) (st [1, 2 ^ 128]) 0x00010101 = true := by decide +kernel

/-- Every felt that is small. -/
theorem small_felt (v : Nat) (h : v < 2 ^ 128) : v < Config.fieldP := Nat.lt_trans h lt_fieldP

/-- N9, with W0 = W1 = 0: the lower tick is one below the range. -/
theorem test_N9 : exec (.npos 8 0) (st [0, 0, 2 ^ 256 - 88722884]) =
    .next (faulted (st [0, 0, 2 ^ 256 - 88722884]) .RANGE_TICK 2) := by
  have h0 : opndFelt 0 (st [0, 0, 2 ^ 256 - 88722884]) = .ok 0 := (opndFelt_eq_ok _ _ _).2 ⟨by decide +kernel,
    small_felt _ (by decide)⟩
  have h1 : opndFelt (0 + 1) (st [0, 0, 2 ^ 256 - 88722884]) = .ok 0 := (opndFelt_eq_ok _ _ _).2 ⟨by decide +kernel,
    small_felt _ (by decide)⟩
  have h2 : opndTick maxTick (0 + 2) (st [0, 0, 2 ^ 256 - 88722884]) = .error ⟨.RANGE_TICK, 2⟩ := by decide +kernel
  simp only [exec, execNpos, nposCmd, h0, h1, h2, cmd_bind_ok, cmd_bind_error, finish]
  rfl

/-- G10: the nullifier 0. -/
theorem test_G10 : exec (.nullify 0) (st []) = .next (faulted (st []) .NULLIFIER_ZERO 0) := by
  have h0 : opndFelt 0 (st []) = .ok 0 := (opndFelt_eq_ok _ _ _).2 ⟨by decide +kernel, small_felt _ (by decide)⟩
  simp only [exec, execNullify, nullifyCmd, h0, cmd_bind_ok, finish]
  rfl

/-- A commitment that does not fit 256 bits (R123). -/
theorem test_insert_wide : faults (.insertT0 1 0) (st [2 ^ 256]) 0x0101 = true := by decide +kernel

/-- G14: FLUSH of an empty batch changes no tree. -/
theorem test_G14 : (after .flushT0 (st [])).tree0 = blankTree := by decide +kernel

/-- H3: a limb written is read back. -/
theorem test_H3 : (hostAccess (readAt 0x080 8) (hostAccess (writeAt 0x080 8 5) (st []))).readData = 5 := by
  simp only [hostAccess_readAt, hostAccess_writeAt]
  decide +kernel

/-- H4, H5: a 4-byte read sets BUSERR, and writing bit 4 of STATUS clears it. -/
theorem test_H4 : (hostAccess (readAt 0x080 4) (st [7, 0, 7])).status.buserr = true ∧
    (hostAccess (writeAt 0x808 8 0x10) (hostAccess (readAt 0x080 4) (st [7, 0, 7]))).status.buserr = false := by
  simp only [hostAccess_readAt, hostAccess_writeAt]
  decide +kernel

/-- H6, H7: CMD and operand writes while a command runs. -/
theorem test_H6 : (hostAccess (writeAt 0x800 8 0) ((st []).accept 5)).status.reent = true ∧
    (hostAccess (writeAt 0x000 8 9) ((st []).accept 5)).status.wign = true ∧
    (hostAccess (writeAt 0x000 8 9) ((st []).accept 5)).val 0 = 0 := by
  simp only [hostAccess_writeAt]
  decide +kernel

/-- H8: NOW never decreases. -/
theorem test_H8 : (hostAccess (writeAt 0x828 8 7) (hostAccess (writeAt 0x828 8 20) (st []))).now = 20 := by
  simp only [hostAccess_writeAt]
  decide +kernel

/-- R60: an access just past the window is none of the block's. -/
theorem test_past_window : hostAccess (.write (Config.zlcBase + 0x1000) 8 9) (st []) = st [] := by
  simp [hostAccess, windowOffset]

/-! ### Witnesses: the hypotheses of the statements are met -/

/-- The ends of R101's ranges are reserved opcodes, in words whose bits 63:32 are 0. -/
theorem witness_ReservedOpcode : ∀ o ∈ [0x01, 0x0F, 0x16, 0x1F, 0x23, 0x2F, 0x34, 0x3F, 0x44, 0x4F, 0x52, 0x5F, 0x65, 0xFF],
    (BitVec.ofNat 64 (o * 2 ^ 24)).extractLsb' 32 32 = 0 ∧
    ReservedOpcode ((BitVec.ofNat 64 (o * 2 ^ 24)).extractLsb' 24 8).toNat := by decide +kernel

/-- IllegalFieldsAreRejected: the high half, and an unnamed mode bit and each nonzero unused field of NOP. -/
theorem witness_IllegalFields_high_and_row :
    (0x0000000100000000 : Word64).extractLsb' 32 32 ≠ 0 ∧ rowShape 0 = some ⟨0, false, false, false, false⟩ ∧
    (0x00000001 : Word64).extractLsb' 0 8 &&& ~~~(0 : BitVec 8) ≠ 0 ∧ (0x00100000 : Word64).extractLsb' 20 4 ≠ 0 ∧
    (0x00010000 : Word64).extractLsb' 16 4 ≠ 0 ∧ (0x00001000 : Word64).extractLsb' 12 4 ≠ 0 ∧
    (0x00000100 : Word64).extractLsb' 8 4 ≠ 0 := by decide

/-- IllegalFieldsAreRejected: RS2 of FGCHK, WID and TREE. -/
theorem witness_IllegalFields_wid :
    (0x33001000 : Word64).extractLsb' 24 8 = 0x33 ∧ (0x33001000 : Word64).extractLsb' 0 8 = 0 ∧
    (0x33001000 : Word64).extractLsb' 12 4 ≠ 0 ∧ (0x10401003 : Word64).extractLsb' 24 8 = 0x10 ∧
    (0x10401003 : Word64).extractLsb' 0 2 = 3 ∧ (0x12401002 : Word64).extractLsb' 24 8 = 0x12 ∧
    (0x12401002 : Word64).extractLsb' 0 2 = 2 ∧ (0x60100003 : Word64).extractLsb' 24 8 = 0x60 ∧
    (0x60100003 : Word64).extractLsb' 0 2 = 3 := by decide

/-- IllegalFieldsAreRejected: the first block of each kind that leaves W0..W15. -/
theorem witness_IllegalFields_blocks :
    15 < ((0x420C0000 : Word64).extractLsb' 16 4).toNat + 4 ∧ 15 < ((0x43D00000 : Word64).extractLsb' 20 4).toNat + 3 ∧
    15 < ((0x500D0000 : Word64).extractLsb' 16 4).toNat + 3 ∧ 15 < ((0x50F00000 : Word64).extractLsb' 20 4).toNat + 1 ∧
    15 < ((0x510A0000 : Word64).extractLsb' 16 4).toNat + 6 ∧
    15 < ((0x51F00000 : Word64).extractLsb' 20 4).toNat + 1 := by decide

/-- CauseHoldsInfoClassAndCode: equal codes. -/
theorem witness_Cause : FaultCode.RANGE_WIDTH.code = FaultCode.RANGE_WIDTH.code := rfl

/-- EveryCommandCompletes: a command that leaves ERR 0. -/
theorem witness_EveryCommandCompletes : ∃ t, exec .nop (st []) = .next t ∧ t.status.err = false := ⟨_, rfl, rfl⟩

/-- A busy state in which SUB.128 of W1 from W0 faults. -/
def busy : State := (st [0, 1]).accept 0x11501000

/-- FaultedCommandWritesNothingElse. -/
theorem witness_FaultedCommand : busy.engine = some 0x11501000 ∧
    ∃ t, exec (.sub128 5 0 1 false) busy = .next t ∧ t.status.err = true := ⟨rfl, _, rfl, by decide +kernel⟩

/-- FirstOperandFaultIsTaken: a second operand that does not fit. -/
theorem witness_FirstOperandFault :
    firstFault (operandFaults (.add128 0 1 2) (st [0, 0, 2 ^ 128])) = some ⟨.RANGE_WIDTH, 2⟩ := by decide +kernel

/-- OnlyNamedRegistersAreWritten, with a block as destination. -/
theorem witness_OnlyNamedRegisters : (∃ t, exec (.swapi 5 0 false) (pool minSqrtRatio 0) = .next t) ∧
    (9 : Reg) ∉ destinations (.swapi 5 0 false) := ⟨⟨_, rfl⟩, by decide⟩

/-- FlagsAreWrittenOnlyByTheirCommands: MUL writes none of them. -/
theorem witness_Flags : (∃ t, exec (.mul128 0 1 2) (st []) = .next t) ∧ writesC (.mul128 0 1 2) = false ∧
    writesOvf (.mul128 0 1 2) = false ∧ writesLim (.mul128 0 1 2) = false ∧ writesB (.mul128 0 1 2) = false ∧
    writesN (.mul128 0 1 2) = false := ⟨⟨_, rfl⟩, rfl, rfl, rfl, rfl, rfl⟩

/-- CommandsLeaveTheHostSideAlone. -/
theorem witness_HostSide : ∃ t, exec .nop busy = .next t := ⟨_, rfl⟩

/-- A state whose trees all have the root of the empty slot 0 under the path of zeros, with W0 = `c`. -/
def slotOpen (c : Nat) : State :=
  { st [c] with
    tree0 := { blankTree with root := (st [c]).rootOf Config.emptyLeaf 0 }
    tree1 := { blankTree with root := (st [c]).rootOf Config.emptyLeaf 0 }
    treeP := { blankTree with root := (st [c]).rootOf Config.emptyLeaf 0 } }

/-- A commitment: 1, or 2 where the empty leaf is 1. -/
def leaf : Nat := if Config.emptyLeaf = 1 then 2 else 1

theorem leaf_small : leaf < 2 ^ 128 := by unfold leaf; split <;> decide

theorem leaf_ne_zero : leaf ≠ 0 := by unfold leaf; split <;> decide

theorem leaf_ne_empty : leaf ≠ Config.emptyLeaf := by unfold leaf; split <;> omega

theorem val_of_small (n : Nat) (h : n < 2 ^ 256) : (BitVec.ofNat 512 n).toNat = n := by
  have h2 : (2 : Nat) ^ 256 < 2 ^ 512 := by decide +kernel
  rw [BitVec.toNat_ofNat]
  exact Nat.mod_eq_of_lt (Nat.lt_trans h h2)

theorem slotOpen_val : (slotOpen leaf).val 0 = leaf :=
  val_of_small leaf (Nat.lt_trans leaf_small (Nat.pow_lt_pow_right (by decide) (by decide)))

/-- Every sibling of a path of zeros is 0. -/
theorem sibling_zero (s : State) (h : s.path = Vector.replicate 32 0) (j : Nat) : s.sibling j = 0 := by
  unfold State.sibling
  split <;> simp [h]

theorem pathOk_zero (s : State) (h : s.path = Vector.replicate 32 0) : PathOk s :=
  fun j _ => by rw [sibling_zero s h]; exact small_felt 0 (by decide)

/-- InsertAppendsToTheTree. -/
theorem witness_InsertAppends (k : TreeId) : (slotOpen leaf).val 0 < Config.fieldP ∧ PathOk (slotOpen leaf) ∧
    (slotOpen leaf).val 0 ≠ 0 ∧ (slotOpen leaf).val 0 ≠ Config.emptyLeaf ∧
    ((slotOpen leaf).tree k).next ≠ 2 ^ Config.treeHeight ∧
    (slotOpen leaf).rootOf Config.emptyLeaf ((slotOpen leaf).tree k).next = ((slotOpen leaf).tree k).root := by
  have hn : ((slotOpen leaf).tree k).next = 0 := by cases k <;> rfl
  refine ⟨?_, pathOk_zero _ rfl, ?_, ?_, ?_, ?_⟩
  · rw [slotOpen_val]; exact small_felt _ leaf_small
  · rw [slotOpen_val]; exact leaf_ne_zero
  · rw [slotOpen_val]; exact leaf_ne_empty
  · rw [hn]; exact (Nat.ne_of_gt (Nat.pow_pos (by decide))).symm
  · rw [hn]; cases k <;> rfl

/-- RootAndNextChangeOnlyByInsert: a command that inserts into no tree, and one that inserts but faults. -/
theorem witness_RootAndNext_frame : (∃ t, exec .nop (st []) = .next t ∧ insertsInto .nop ≠ some .t0) ∧
    ∃ t, exec (.insertT0 1 0) (st [2 ^ 256]) = .next t ∧ t.status.err = true :=
  ⟨⟨_, rfl, by decide⟩, _, rfl, by decide +kernel⟩

/-- An INSERT that completes (RootAndNextChangeOnlyByInsert, InsertedCommitmentVerifies). -/
theorem witness_Insert_completes (k : TreeId) :
    ∃ t, exec (insertAt k 1 0) (slotOpen leaf) = .next t ∧ t.status.err = false := by
  obtain ⟨h1, h2, h3, h4, h5, h6⟩ := witness_InsertAppends k
  have hc : opndFelt 0 (slotOpen leaf) = .ok ((slotOpen leaf).val 0) := (opndFelt_eq_ok _ _ _).2 ⟨rfl, h1⟩
  have hp : pathCheck (slotOpen leaf) = .ok () := (pathCheck_eq_ok _).2 ((pathOk_iff _).1 h2)
  rw [exec_insertAt]
  refine ⟨_, rfl, ?_⟩
  rw [insertCmd, hc, cmd_bind_ok, hp, cmd_bind_ok, if_neg (fun h => h.elim h3 h4), if_neg h5,
    if_neg (by rw [computeRoot_eq_rootOf, h6]; simp)]
  rfl

/-- LedgerChangesOnlyWhereNamed: NOP names no tree and is no NULLIFY. -/
theorem witness_LedgerChanges : (∃ t, exec .nop (st []) = .next t) ∧ namesTree .nop ≠ some .t0 ∧
    ∀ rs1, Instr.nop ≠ .nullify rs1 := ⟨⟨_, rfl⟩, by decide, by intro rs1 h; cases h⟩

/-- W0 = 1, with room in NSET: it is empty, or holds 2 where its capacity is 0. -/
def room : State := { st [1] with nset := if Config.nullifierCapacity = some 0 then [2] else [] }

/-- NullifyMarksOnce, the clauses of a nonzero unused nullifier. -/
theorem witness_Nullify_room : room.val 0 < Config.fieldP ∧ room.val 0 ≠ 0 ∧ room.val 0 ∉ room.nset ∧
    Config.nullifierCapacity ≠ some room.nset.length := by
  have hv : room.val 0 = 1 := val_of_small 1 (by decide)
  rw [hv]
  refine ⟨small_felt _ (by decide), by decide, ?_, ?_⟩
  · unfold room; split <;> simp
  · unfold room
    split
    · rename_i h; rw [h]; simp
    · rename_i h; simpa using h

/-- A NULLIFY that completes (LedgerChangesOnlyWhereNamed). -/
theorem witness_Nullify_completes : ∃ t, exec (.nullify 0) room = .next t ∧ t.status.err = false := by
  obtain ⟨h1, h2, h3, h4⟩ := witness_Nullify_room
  have hc : opndFelt 0 room = .ok (room.val 0) := (opndFelt_eq_ok _ _ _).2 ⟨rfl, h1⟩
  refine ⟨_, rfl, ?_⟩
  rw [nullifyCmd, hc, cmd_bind_ok, if_neg h2, if_neg (by simpa using h3), if_neg h4]
  rfl

/-- NullifyMarksOnce: the nullifier 0, and a used one. -/
theorem witness_Nullify_faults : (st []).val 0 = 0 ∧ (st []).val 0 < Config.fieldP ∧
    (1 ∈ ({ st [1] with nset := [1] } : State).nset) ∧ ({ st [1] with nset := [1] } : State).val 0 = 1 :=
  ⟨by decide +kernel, small_felt _ (by decide +kernel), by decide, by decide +kernel⟩

/-- `busy` with other flags, another cause, another W9 and another path. -/
def busyOther : State :=
  { busy with w := busy.w.set 9 7, path := Vector.replicate 32 1, flags := ⟨true, true, true, true, true⟩, cause := 1 }

/-- OutcomeDependsOnlyOnTheInputs: two busy states that differ in what SUB.128 does not read, a fault and a success. -/
theorem witness_Outcome (uf : Bool) : SameInputs (.sub128 5 0 1 uf) busy busyOther ∧
    (∃ t, exec (.sub128 5 0 1 false) busy = .next t ∧ t.status.err = true) ∧
    (∃ t, exec (.sub128 5 0 1 true) busy = .next t ∧ t.status.err = false) ∧
    (∃ t, exec (.sub128 5 0 1 uf) busyOther = .next t) ∧ busy.engine = busyOther.engine ∧
    busy.engine ≠ none ∧ writesC (.sub128 5 0 1 true) = true := by
  refine ⟨⟨by cases uf <;> decide +kernel, fun h => absurd h (by cases uf <;> decide), by decide +kernel,
      fun t => by cases t <;> decide +kernel, by decide +kernel, by decide +kernel⟩,
    ⟨_, rfl, by decide +kernel⟩,
    ⟨_, rfl, by decide +kernel⟩, ⟨_, rfl⟩, rfl, by decide, rfl⟩

/-- OutcomeDependsOnlyOnTheInputs: a command that reads the path. -/
theorem witness_Outcome_path : readsPath (.verifyT0 0 1 2) = true ∧
    SameInputs (.verifyT0 0 1 2) busy { busy with flags := ⟨true, true, true, true, true⟩ } :=
  ⟨rfl, fun _ _ => rfl, fun _ _ _ => rfl, rfl, fun t => by cases t <;> rfl, rfl, rfl⟩

/-- The slot of a tick or delta, case by case. -/
theorem slotOf_nonneg (t : Int) (h0 : 0 ≤ t) (h1 : t < 2 ^ 255) : slotOf t = t.toNat := by unfold slotOf; omega

theorem slotOf_neg (t : Int) (h0 : t < 0) (h1 : -(2 ^ 255 : Int) ≤ t) : slotOf t = 2 ^ 256 - (-t).toNat := by
  unfold slotOf; omega

/-- SignedSlotsDecode: the ends of the tick range, and the sentinel below it. -/
theorem witness_Slots_ticks : (st [2 ^ 256 - 88722883]).val 0 = slotOf (-(maxTick : Int)) ∧
    (st [88722883]).val 0 = slotOf maxTick ∧ (st [2 ^ 256 - 88722884]).val 0 = slotOf (-(maxTick : Int) - 1) ∧
    2 ^ 256 ≤ (st [2 ^ 256]).val 0 := by decide +kernel

/-- SignedSlotsDecode: one above the tick range is the slot of no tick in range. -/
theorem witness_Slots_no_tick : (st [88722884]).val 0 < 2 ^ 256 ∧
    ∀ t : Int, -((maxTick + 1 : Nat) : Int) ≤ t → t ≤ maxTick → (st [88722884]).val 0 ≠ slotOf t := by
  have hv : (st [88722884]).val 0 = 88722884 := by decide +kernel
  rw [hv]
  refine ⟨by decide, fun t h1 h2 => ?_⟩
  simp only [maxTick] at h1 h2
  unfold slotOf
  omega

/-- SignedSlotsDecode, LaddAppliesTheDelta: the ends of the delta range, and a slot just past it. -/
theorem witness_Slots_deltas : (st [2 ^ 256 - (2 ^ 128 - 1)]).val 0 = slotOf (-(2 ^ 128 : Int) + 1) ∧
    (st [2 ^ 128 - 1]).val 0 = slotOf (2 ^ 128 - 1) := by decide +kernel

theorem witness_Slots_no_delta : (st [2 ^ 128]).val 0 < 2 ^ 256 ∧
    ∀ d : Int, -(2 ^ 128 : Int) < d → d < 2 ^ 128 → (st [2 ^ 128]).val 0 ≠ slotOf d := by
  have hv : (st [2 ^ 128]).val 0 = 2 ^ 128 := by decide +kernel
  rw [hv]
  refine ⟨by decide, fun d h1 h2 => ?_⟩
  unfold slotOf
  omega

/-- AddWritesSumAndCarry, MulWritesTheExactProduct: the greatest operands. -/
theorem witness_Add : (st [2 ^ 128 - 1, 2 ^ 256 - 1]).val 0 < 2 ^ 128 ∧ (st [2 ^ 128 - 1, 2 ^ 256 - 1]).val 1 < 2 ^ 256 := by
  decide +kernel

/-- SubWritesDifferenceAndBorrow: equal operands, and a borrow of one at each width. -/
theorem witness_Sub : (st [2 ^ 128 - 1]).val 0 ≤ (st [2 ^ 128 - 1]).val 0 ∧
    (st [2 ^ 128 - 2, 2 ^ 128 - 1]).val 0 < (st [2 ^ 128 - 2, 2 ^ 128 - 1]).val 1 ∧
    (st [2 ^ 128 - 2, 2 ^ 128 - 1]).val 1 < 2 ^ 128 ∧
    (st [2 ^ 256 - 2, 2 ^ 256 - 1]).val 0 < (st [2 ^ 256 - 2, 2 ^ 256 - 1]).val 1 ∧
    (st [2 ^ 256 - 2, 2 ^ 256 - 1]).val 1 < 2 ^ 256 := by decide +kernel

/-- DivisionAcceptsOnlyTheQuotient: the greatest quotient that fits, and a witness one below it. -/
theorem witness_Division :
    rounded ((st [2 ^ 257 - 1, 2, 2 ^ 256 - 1]).val 0) ((st [2 ^ 257 - 1, 2, 2 ^ 256 - 1]).val 1) false < 2 ^ 256 ∧
    (st [2 ^ 257 - 1, 2, 2 ^ 256 - 1]).val 2 = rounded ((st [2 ^ 257 - 1, 2, 2 ^ 256 - 1]).val 0)
      ((st [2 ^ 257 - 1, 2, 2 ^ 256 - 1]).val 1) false ∧
    (st [2 ^ 257 - 2, 2, 2 ^ 256 - 1]).val 2 = rounded ((st [2 ^ 257 - 2, 2, 2 ^ 256 - 1]).val 0)
      ((st [2 ^ 257 - 2, 2, 2 ^ 256 - 1]).val 1) true ∧
    (st [2 ^ 257 - 2, 2, 2 ^ 256 - 2]).val 2 ≠ rounded ((st [2 ^ 257 - 2, 2, 2 ^ 256 - 2]).val 0)
      ((st [2 ^ 257 - 2, 2, 2 ^ 256 - 2]).val 1) true ∧
    (st [2 ^ 257 - 1, 2, 2 ^ 256 - 1]).val 1 < 2 ^ 256 ∧ (st [2 ^ 257 - 1, 2, 2 ^ 256 - 1]).val 2 < 2 ^ 256 ∧
    (st [2 ^ 257 - 1, 2, 2 ^ 256 - 1]).val 1 ≠ 0 := by decide +kernel

/-- DivisionChecksComeInOrder, MuldivRoundsAsAsked: a zero divisor, and the smallest quotients that do not fit. -/
theorem witness_Division_faults : (st [7, 0, 3]).val 1 = 0 ∧
    2 ^ 256 ≤ rounded ((st [2 ^ 257, 2, 0]).val 0) ((st [2 ^ 257, 2, 0]).val 1) false ∧
    2 ^ 256 ≤ rounded ((st [2 ^ 257 - 1, 2, 0]).val 0) ((st [2 ^ 257 - 1, 2, 0]).val 1) true := by decide +kernel

/-- MuldivRoundsAsAsked: a quotient that fits and one that does not. -/
theorem witness_Muldiv : (st [2 ^ 256 - 1, 2, 2]).val 2 ≠ 0 ∧ (st [2 ^ 256 - 1, 2, 2]).val 0 < 2 ^ 256 ∧
    rounded ((st [2 ^ 256 - 1, 2, 2]).val 0 * (st [2 ^ 256 - 1, 2, 2]).val 1) ((st [2 ^ 256 - 1, 2, 2]).val 2) true < 2 ^ 256 ∧
    2 ^ 256 ≤ rounded ((st [2 ^ 256 - 1, 3, 2]).val 0 * (st [2 ^ 256 - 1, 3, 2]).val 1) ((st [2 ^ 256 - 1, 3, 2]).val 2)
      true := by decide +kernel

/-- P2tWritesTheGreatestTick, AmountsBetweenTwoPrices, NextPricesFromAmounts: the ends of the price range and the greatest
liquidity. -/
theorem witness_Prices : IsPrice ((st [minSqrtRatio, maxSqrtRatio, 2 ^ 128 - 1]).val 0) ∧
    IsPrice ((st [minSqrtRatio, maxSqrtRatio, 2 ^ 128 - 1]).val 1) ∧
    (st [minSqrtRatio, maxSqrtRatio, 2 ^ 128 - 1]).val 2 < 2 ^ 128 := by decide +kernel

/-- TdecWritesMagnitudeAndSign: one above the range. -/
theorem witness_Tdec_above : (st [88722884]).val 0 = slotOf ((maxTick : Int) + 1) := by decide +kernel

/-- LaddAppliesTheDelta: a sum of 2^128 - 1, a sum of -1 and a sum of 2^128. -/
theorem witness_Ladd : (st [0, 2 ^ 128 - 1]).val 1 = slotOf (2 ^ 128 - 1) ∧
    ((st [0, 2 ^ 128 - 1]).val 0 : Int) + (2 ^ 128 - 1) = (2 ^ 128 - 1 : Nat) ∧
    (st [0, 2 ^ 256 - 1]).val 1 = slotOf (-1) ∧ ((st [0, 2 ^ 256 - 1]).val 0 : Int) + (-1) < 0 ∧
    (st [1, 2 ^ 128 - 1]).val 1 = slotOf (2 ^ 128 - 1) ∧
    (2 ^ 128 : Int) ≤ ((st [1, 2 ^ 128 - 1]).val 0 : Int) + (2 ^ 128 - 1) := by decide +kernel

/-- FgchkChecksBoundAndOrder: values at the bound and one above it. -/
theorem witness_Fgchk : (st [Config.maxFeeGrowth]).val 0 = Config.maxFeeGrowth ∧
    (st [Config.maxFeeGrowth]).val 1 ≤ (st [Config.maxFeeGrowth]).val 0 ∧
    Config.maxFeeGrowth < (st [Config.maxFeeGrowth, Config.maxFeeGrowth + 1]).val 1 ∧
    (st [Config.maxFeeGrowth, Config.maxFeeGrowth + 1]).val 1 < 2 ^ 256 := by
  have h1 := maxFeeGrowth_lt
  have h2 := fieldP_lt
  have e0 : (st [Config.maxFeeGrowth]).val 0 = Config.maxFeeGrowth := val_of_small Config.maxFeeGrowth (by omega)
  have e1 : (st [Config.maxFeeGrowth]).val 1 = 0 := val_of_small 0 (by decide)
  have e2 : (st [Config.maxFeeGrowth, Config.maxFeeGrowth + 1]).val 1 = Config.maxFeeGrowth + 1 :=
    val_of_small (Config.maxFeeGrowth + 1) (by omega)
  rw [e0, e1, e2]
  omega

/-- NextPriceMovesWithTheAmount. -/
theorem witness_NextPriceMoves :
    (∃ t, exec (.nxp0 3 0 1 2 true) (st [2 ^ 128, 10 ^ 18, 10 ^ 14]) = .next t ∧ t.status.err = false ∧
      t.flags.ovf = false) ∧
    ∃ t, exec (.nxp1 3 0 1 2 false) (st [2 ^ 128, 10 ^ 18, 10 ^ 14]) = .next t ∧ t.status.err = false ∧
      t.flags.ovf = false := ⟨⟨_, rfl, by decide +kernel⟩, _, rfl, by decide +kernel⟩

/-- SwapStepsLeaveEarly: the three exits. -/
theorem witness_SwapStepsLeaveEarly : SwapBlockOk (pool minSqrtRatio 0) 0 ∧ (pool minSqrtRatio 0).val 3 = 0 ∧
    SwapBlockOk (pool (2 ^ 128) 5) 0 ∧ (pool (2 ^ 128) 5).val 1 = (pool (2 ^ 128) 5).val 0 ∧
    SwapBlockOk (pool (2 ^ 128 + 1) 5) 0 ∧
    Beyond false ((pool (2 ^ 128 + 1) 5).val 0 + 1) ((pool (2 ^ 128 + 1) 5).val 1 + 1) ∧
    SwapBlockOk (st [2 ^ 128, minSqrtRatio, 0, 5, 0]) 0 ∧
    Beyond false ((st [2 ^ 128, minSqrtRatio, 0, 5, 0]).val 1) ((st [2 ^ 128, minSqrtRatio, 0, 5, 0]).val 0) := by
  decide +kernel

/-- SwapiTakesOneStep: the block of S20, whose tentative price does not pass the limit, and that of S21, whose does. -/
theorem witness_Swapi : SwapBlockOk (pool 340112268350713539826535022315348447440 (10 ^ 14)) 0 ∧
    Beyond false 340112268350713539826535022315348447440 (2 ^ 128) ∧
    (∀ p ∈ next0Of (2 ^ 128) (10 ^ 18) 99700000000000 true, ¬ Beyond false p 340112268350713539826535022315348447440) ∧
    rounded (10 ^ 14 * 1020847100762815390390123822295304634) (2 ^ 128) true = 10 ^ 14 - 99700000000000 ∧
    SwapBlockOk (pool 340265353236444914223731134834256897675 (10 ^ 15)) 0 ∧
    (∀ p ∈ next0Of (2 ^ 128) (10 ^ 18) 997000000000000 true, Beyond false p 340265353236444914223731134834256897675) ∧
    rounded (10 ^ 15 * 1020847100762815390390123822295304634) (2 ^ 128) true = 10 ^ 15 - 997000000000000 := by
  decide +kernel

/-- SwapoTakesOneStep: the block of S25, unlimited, and that of S37, whose next price overflows. -/
theorem witness_Swapo : SwapBlockOk (pool 340452550561671819121545674712898155451 (10 ^ 14)) 0 ∧
    Beyond true 340452550561671819121545674712898155451 (2 ^ 128) ∧
    (∀ p ∈ next0Of (2 ^ 128) (10 ^ 18) (10 ^ 14) false, ¬ Beyond true p 340452550561671819121545674712898155451) ∧
    SwapBlockOk (st [2 ^ 128, minSqrtRatio, 1, 2 ^ 127, 0]) 0 ∧ Beyond false minSqrtRatio (2 ^ 128) ∧
    next1Of (2 ^ 128) 1 (2 ^ 127) false = none := by decide +kernel

/-- SwapPriceNeverCrossesTheLimit, SwapAmountsStayWithinTheRequest: an unlimited SWAPI and SWAPO step whose limit is not
its start, and a limited one of each (S20, S21, S25, S27). -/
theorem witness_Swap_properties :
    (∃ t, exec (.swapi 5 0 false) (pool 340112268350713539826535022315348447440 (10 ^ 14)) = .next t ∧
      t.status.err = false ∧ t.flags.ovf = false ∧ t.flags.lim = false) ∧
    (∃ t, exec (.swapi 5 0 false) (pool 340265353236444914223731134834256897675 (10 ^ 15)) = .next t ∧
      t.status.err = false ∧ t.flags.ovf = false ∧ t.flags.lim = true) ∧
    (∃ t, exec (.swapo 5 0 true) (pool 340452550561671819121545674712898155451 (10 ^ 14)) = .next t ∧
      t.status.err = false ∧ t.flags.ovf = false ∧ t.flags.lim = false) ∧
    ∃ t, exec (.swapo 5 0 true) (pool 340299381456137079477456794382624800655 (10 ^ 15)) = .next t ∧
      t.status.err = false ∧ t.flags.ovf = false ∧ t.flags.lim = true :=
  ⟨⟨_, rfl, by decide +kernel⟩, ⟨_, rfl, by decide +kernel⟩, ⟨_, rfl, by decide +kernel⟩, _, rfl, by decide +kernel⟩

/-- NtokHashesAndChecks: the greatest token id and amount. -/
theorem witness_Ntok : (st [1, 2 ^ 128 - 1]).val 0 < 2 ∧ (st [1, 2 ^ 128 - 1]).val (0 + 1) < 2 ^ 128 ∧
    (st [1, 2 ^ 128 - 1]).val (0 + 2) < Config.fieldP ∧ (st [1, 2 ^ 128 - 1]).val (0 + 3) < Config.fieldP :=
  ⟨by decide +kernel, by decide +kernel, small_felt _ (by decide +kernel), small_felt _ (by decide +kernel)⟩

/-- NposHashesAndChecks: the whole tick range. -/
theorem witness_Npos : (st [1, 2, 2 ^ 256 - 88722883, 88722883]).val 0 < Config.fieldP ∧
    (st [1, 2, 2 ^ 256 - 88722883, 88722883]).val (0 + 1) < Config.fieldP ∧
    (st [1, 2, 2 ^ 256 - 88722883, 88722883]).val (0 + 2) = slotOf (-(maxTick : Int)) ∧
    (st [1, 2, 2 ^ 256 - 88722883, 88722883]).val (0 + 3) = slotOf maxTick ∧
    (st [1, 2, 2 ^ 256 - 88722883, 88722883]).val (0 + 4) < 2 ^ 128 ∧
    (st [1, 2, 2 ^ 256 - 88722883, 88722883]).val (0 + 5) ≤ Config.maxFeeGrowth ∧
    (st [1, 2, 2 ^ 256 - 88722883, 88722883]).val (0 + 6) ≤ Config.maxFeeGrowth := by
  have h5 : (st [1, 2, 2 ^ 256 - 88722883, 88722883]).val (0 + 5) = 0 := by decide +kernel
  have h6 : (st [1, 2, 2 ^ 256 - 88722883, 88722883]).val (0 + 6) = 0 := by decide +kernel
  refine ⟨small_felt _ (by decide +kernel), small_felt _ (by decide +kernel), by decide +kernel, by decide +kernel,
    by decide +kernel, ?_, ?_⟩
  · rw [h5]; exact Nat.zero_le _
  · rw [h6]; exact Nat.zero_le _

/-- A path whose last used entry is no felt and whose other entries are 0. -/
def badPath : State :=
  { st [] with path := Vector.ofFn fun j => if j.val + 1 = Config.treeHeight then BitVec.allOnes 256 else 0 }

theorem badPath_sibling (j : Nat) (h : j < 32) :
    badPath.sibling j = if j + 1 = Config.treeHeight then 2 ^ 256 - 1 else 0 := by
  unfold State.sibling badPath
  rw [dif_pos h]
  simp only [Vector.getElem_ofFn]
  split <;> rfl

/-- InsertChecksComeInOrder: the last path entry that is read is no felt, and those below it are. -/
theorem witness_InsertChecks_path : ∃ j < Config.treeHeight, Config.fieldP ≤ badPath.sibling j ∧
    ∀ m < j, badPath.sibling m < Config.fieldP := by
  have h := treeHeight_range
  have hp := fieldP_lt
  refine ⟨Config.treeHeight - 1, by omega, ?_, fun m hm => ?_⟩
  · rw [badPath_sibling _ (by omega), if_pos (by omega)]; omega
  · rw [badPath_sibling _ (by omega), if_neg (by omega)]; exact small_felt 0 (by decide)

/-- InsertChecksComeInOrder: the commitments 0 and EMPTY_LEAF. -/
theorem witness_InsertChecks_note : (st []).val 0 = 0 ∧ (st [Config.emptyLeaf]).val 0 = Config.emptyLeaf ∧
    (st [Config.emptyLeaf]).val 0 < Config.fieldP := by
  have h1 := emptyLeaf_felt
  have h2 := fieldP_lt
  have e : (st [Config.emptyLeaf]).val 0 = Config.emptyLeaf := val_of_small Config.emptyLeaf (by omega)
  exact ⟨by decide +kernel, e, by rw [e]; exact h1⟩

/-- InsertChecksComeInOrder: a full tree, and a root that is not the one of the path. -/
theorem witness_InsertChecks_tree :
    ({ blankTree with next := 2 ^ Config.treeHeight } : Tree).next = 2 ^ Config.treeHeight ∧
    (slotOpen leaf).rootOf Config.emptyLeaf 0 ≠
      ({ blankTree with root := (slotOpen leaf).rootOf Config.emptyLeaf 0 + 1 } : Tree).root :=
  ⟨rfl, by simp⟩

/-- VerifyTellsWhetherAPathIsKnown: the last leaf index, and two indices that differ. -/
theorem witness_Verify : (st [0, 2 ^ Config.treeHeight - 1]).val 1 < 2 ^ Config.treeHeight ∧
    (st [0, 2 ^ Config.treeHeight - 1]).val 2 < 2 ^ Config.treeHeight ∧
    (st [0, 2 ^ Config.treeHeight - 1]).val 1 = 2 ^ Config.treeHeight - 1 ∧
    (st [0, 2 ^ Config.treeHeight - 1]).val 2 ≠ (st [0, 2 ^ Config.treeHeight - 1]).val 1 ∧
    (st [0, 2 ^ Config.treeHeight - 1]).val 0 < Config.fieldP ∧ PathOk (st [0, 2 ^ Config.treeHeight - 1]) := by
  have h := treeHeight_range
  have hle : 2 ^ Config.treeHeight ≤ 2 ^ 32 := Nat.pow_le_pow_right (by decide) h.2
  have hge : 2 ^ 1 ≤ 2 ^ Config.treeHeight := Nat.pow_le_pow_right (by decide) h.1
  have e0 : (st [0, 2 ^ Config.treeHeight - 1]).val 0 = 0 := val_of_small 0 (by decide)
  have e1 : (st [0, 2 ^ Config.treeHeight - 1]).val 1 = 2 ^ Config.treeHeight - 1 :=
    val_of_small (2 ^ Config.treeHeight - 1) (by omega)
  have e2 : (st [0, 2 ^ Config.treeHeight - 1]).val 2 = 0 := val_of_small 0 (by decide)
  refine ⟨by omega, by omega, e1, by omega, ?_, pathOk_zero _ rfl⟩
  rw [e0]
  exact small_felt 0 (by decide)

/-- InsertedCommitmentVerifies: room for a leaf, and different registers. -/
theorem witness_InsertedVerifies (k : TreeId) : (1 : Reg) ≠ 0 ∧ ((slotOpen leaf).tree k).next < 2 ^ Config.treeHeight :=
  ⟨by decide, by have : ((slotOpen leaf).tree k).next = 0 := by cases k <;> rfl
                 rw [this]; exact Nat.pow_pos (by decide)⟩

/-- A tree whose ring holds the root 7 in every slot. -/
def fullRing : Tree := { blankTree with hist := Vector.replicate 256 (some 7), hcnt := 256, refcnt := [(7, 256)] }

/-- RingPushEvictsTheOldest: an empty ring and a full one. -/
theorem witness_RingPush : refWf blankTree.refcnt ∧ blankTree.hcnt ≠ 256 ∧ refWf fullRing.refcnt ∧ fullRing.hcnt = 256 ∧
    fullRing.hist[fullRing.head.val]'fullRing.head.isLt = some 7 ∧ 0 < refCount fullRing.refcnt 7 := by decide +kernel

/-- A tree without a batch and without history is sound. -/
theorem witness_TreeSound (now : Word64) : TreeSound blankTree now where
  root_felt := small_felt 0 (by decide)
  next_le := Nat.zero_le _
  pend_felt := by intro r hr; cases hr
  pend_lt := batchSize_range.1
  pend_time := fun h => absurd rfl h
  hist_felt := by
    intro r hr
    rw [show blankTree.hist.toList = List.replicate 256 none from rfl] at hr
    cases List.eq_of_mem_replicate hr
  hcnt_eq := by decide +kernel
  ring_fill := fun _ => ⟨rfl, by decide +kernel⟩
  refcnt_wf := ⟨List.Pairwise.nil, by intro e he; cases he⟩
  refcnt_eq := by
    intro r
    rw [holding, show blankTree.hist.toList = List.replicate 256 none from rfl, List.count_replicate]
    rfl

/-- KnownTellsWhetherARootIsKnown. -/
theorem witness_Known : (st []).val 0 < Config.fieldP ∧ TreeSound ((st []).tree .t0) (st []).now :=
  ⟨small_felt _ (by decide +kernel), witness_TreeSound _⟩

/-- FlushPromotesADueBatch. -/
theorem witness_Flush : ∃ t, exec (flushAt .t0) (st []) = .next t := ⟨_, rfl⟩

/-- StepRunsTheDecodedCommand: both agendas, a value that decodes, one that does not, and none. -/
theorem witness_Step : busy.agenda = [] ∧ ({ busy with agenda := [.engine] } : State).agenda = .engine :: [] ∧
    busy.engine = some 0x11501000 ∧ decode 0x11501000 = .ok (.sub128 5 0 1 false) ∧
    ((st []).accept 0x00000001).engine = some 0x00000001 ∧ decode 0x00000001 = .error .illegalMode ∧
    (st []).engine = none := ⟨rfl, rfl, rfl, by decide, rfl, by decide, rfl⟩

/-- An idle state in which a CMD write of `v` and an engine turn are next. -/
def writing (v : Word64) : State := { st [] with agenda := [.host (writeAt 0x800 8 v), .engine] }

/-- AcceptedCommandRuns, and the host's clause of StepRunsTheDecodedCommand: a value that decodes and one that does not. -/
theorem witness_Accepted : (writing 0).engine = none ∧ decode 0 = .ok .nop ∧ decode 1 = .error .illegalMode ∧
    (writing 0).agenda = .host (writeAt 0x800 8 0) :: .engine :: [] ∧
    (writing 1).agenda = .host (writeAt 0x800 8 1) :: .engine :: [] := ⟨rfl, by decide, by decide, rfl, rfl⟩

/-- LimbsAreReadAndWritten, RegistersReadAsSpecified: an idle state, whose roots fit 256 bits. -/
theorem witness_Idle : (st []).engine = none ∧ ((st []).tree .t0).root < 2 ^ 256 ∧ ((st []).tree .t1).root < 2 ^ 256 ∧
    ((st []).tree .tp).root < 2 ^ 256 := by decide

/-- ControlRegisterWrites: the ends of the read-only ranges. -/
theorem witness_ReadOnly : ∀ a ∈ [0x810, 0x820, 0x830, 0x848, 0x860, 0x898, 0x900, 0x9B8],
    (BitVec.ofNat 12 a).toNat % 8 = 0 ∧ ReadOnlyOffset (BitVec.ofNat 12 a).toNat := by decide

/-- AccessesWhileBusy: a busy state and the ends of each range of offsets. -/
theorem witness_Busy : busy.engine = some 0x11501000 ∧
    (∀ a ∈ [0x000, 0x7F8, 0x828], (BitVec.ofNat 12 a).toNat % 8 = 0 ∧
      ((BitVec.ofNat 12 a).toNat < 0x800 ∨ (BitVec.ofNat 12 a).toNat = 0x828)) ∧
    (∀ a ∈ [0x000, 0x7F8, 0x800, 0x810, 0x830, 0x900, 0x9B8], (BitVec.ofNat 12 a).toNat % 8 = 0 ∧
      ((BitVec.ofNat 12 a).toNat < 0x800 ∨ (BitVec.ofNat 12 a).toNat = 0x800 ∨
        (0x810 ≤ (BitVec.ofNat 12 a).toNat ∧ (BitVec.ofNat 12 a).toNat ≤ 0x830) ∨
        (0x900 ≤ (BitVec.ofNat 12 a).toNat ∧ (BitVec.ofNat 12 a).toNat < 0x9C0))) := by
  refine ⟨rfl, ?_⟩
  decide

/-- MalformedAndReservedAccesses: a wrong width, an offset that is no multiple of 8, the ends of the unassigned ranges, and
the first address past the window. -/
theorem witness_Malformed : (4 : Nat) ≠ 8 ∧ (0x084 : BitVec 12).toNat % 8 ≠ 0 ∧
    ∀ a ∈ [0x850, 0x858, 0x8A0, 0x8F8, 0x9C0, 0xFF8],
      (BitVec.ofNat 12 a).toNat % 8 = 0 ∧ ¬ AssignedOffset (BitVec.ofNat 12 a).toNat := by decide

theorem witness_Outside : Config.zlcBase + 0x1000 < Config.zlcBase ∨ Config.zlcBase + 0x1000 ≤ Config.zlcBase + 0x1000 :=
  .inr (Nat.le_refl _)

/-- ResetRestoresEveryResetValue: a reset while a command is in flight. -/
theorem witness_Reset : ({ busy with agenda := [.reset] } : State).agenda = .reset :: [] := rfl

/-- The blank state is sound, and so is the blank state with a command in flight. -/
theorem witness_LedgerSound : LedgerSound busy where
  trees := fun t => by cases t <;> exact witness_TreeSound _
  nset_wf := List.Pairwise.nil
  nset_felt := by intro n hn; cases hn
  ncount_eq := rfl

/-- UsedNullifiersStayUsed, EveryStepKeepsTheLedgerSound, EveryStepKeepsTheRegistersInAgreement: a sound state that takes
a step that is no reset, and whose registers agree. -/
theorem witness_Invariants : LedgerSound busy ∧ (∃ t, step busy = .next t) ∧ (∀ rest, busy.agenda ≠ .reset :: rest) ∧
    causeAgrees busy ∧ engineAgrees busy := by
  refine ⟨witness_LedgerSound, ⟨_, rfl⟩, ?_, .inl ⟨rfl, rfl⟩, ?_⟩
  · intro rest h
    cases h
  · intro v hv
    cases hv
    rfl

/-- W0 a commitment, the path that of an empty tree, and every tree as after a reset. -/
def fresh : State :=
  { st [leaf] with
    path := Vector.ofFn fun j => BitVec.ofNat 256 (Config.zeroSubtree j.val)
    tree0 := Tree.reset
    tree1 := Tree.reset
    treeP := Tree.reset }

/-- EmptyTreeHasTheZeroRoot. -/
theorem witness_EmptyTree : (∀ j < Config.treeHeight, fresh.sibling j = Config.zeroSubtree j) ∧
    fresh.val 0 < Config.fieldP ∧ fresh.val 0 ≠ 0 ∧ fresh.val 0 ≠ Config.emptyLeaf ∧ fresh.tree0 = Tree.reset ∧
    fresh.tree1 = Tree.reset ∧ fresh.treeP = Tree.reset ∧ 2 ^ Config.treeHeight - 1 < 2 ^ Config.treeHeight ∧
    ∃ t, exec (insertAt .t0 1 0) fresh = .next t := by
  have hv : fresh.val 0 = leaf := slotOpen_val
  refine ⟨fun j hj => ?_, ?_, ?_, ?_, rfl, rfl, rfl, Nat.sub_lt (Nat.two_pow_pos _) (by decide), ⟨_, rfl⟩⟩
  · have hz : Config.zeroSubtree j < Config.fieldP := by
      cases j with
      | zero => exact emptyLeaf_felt
      | succ k => exact nodeHash_felt _ _
    have h32 : j < 32 := Nat.lt_of_lt_of_le hj treeHeight_range.2
    unfold State.sibling fresh
    rw [dif_pos h32]
    simp only [Vector.getElem_ofFn, BitVec.toNat_ofNat]
    exact Nat.mod_eq_of_lt (Nat.lt_trans hz fieldP_lt)
  · rw [hv]; exact small_felt _ leaf_small
  · rw [hv]; exact leaf_ne_zero
  · rw [hv]; exact leaf_ne_empty

end Sys2Proof.Tests
end

section
/-! PROOFS, 00_scope.md: T2P writes the price of its tick (R8, R172, R173), and a step runs the decoded command (R4, R72,
R103, R120). -/

namespace Sys2Proof.Machine

/-! ### How a command completes, in the words of the statements -/

/-- A command that writes one register and raises nothing. -/
theorem finish_setRegNat (s : State) (rd : Reg) (v : Nat) :
    finish s (.ok (s.setRegNat rd v)) = .next (completed s (withReg s.w rd v) s.flags) := rfl

/-- A command that raises a fault. -/
theorem finish_raise (s : State) (c : FaultCode) (i : BitVec 8) : finish s (raise c i) = .next (faulted s c i) := rfl

/-! ### The slot of a tick -/

theorem slotOf_eq_encTick (t : Int) : slotOf t = encTick t := rfl

theorem encTick_lt (t : Int) : encTick t < 2 ^ 256 := by unfold encTick; omega

/-- The slot of a 128-bit signed value is sign-extended from bit 127 (R124). -/
theorem signExtended128_encTick (t : Int) (h1 : -(2 ^ 127 : Int) ≤ t) (h2 : t < 2 ^ 127) :
    signExtended128 (encTick t) = true := by
  unfold signExtended128 encTick
  rw [beq_iff_eq]
  split <;> omega

/-- The slot of a 128-bit signed value reads back as that value (R12, R124). -/
theorem intOfBits_encTick (t : Int) (h1 : -(2 ^ 127 : Int) ≤ t) (h2 : t < 2 ^ 127) :
    intOfBits 128 (encTick t) = t := by
  unfold intOfBits encTick
  split <;> omega

/-- The slot of a 128-bit signed value outside the bounds of a tick operand raises RANGE_TICK (R124). -/
theorem opndTick_raises_of_slot (neg : Nat) (i : Reg) (s : State) (t : Int) (h1 : -(2 ^ 127 : Int) ≤ t)
    (h2 : t < 2 ^ 127) (hout : t > maxTick ∨ t < -(neg : Int)) (hr : (s.reg i).toNat = encTick t) :
    opndTick neg i s = raise .RANGE_TICK (infoReg i) := by
  rw [opndTick, opndU_of_lt 256 i s (by rw [hr]; exact encTick_lt t)]
  simp only [hr, signExtended128_encTick t h1 h2, intOfBits_encTick t h1 h2, Bool.true_eq_false, if_false, if_pos hout]

/-! ### The price of a tick, as the statements say it -/

/-- The machine's loop over the table, which halves the magnitude, is the loop of R172, which tests its bits. -/
theorem ratioLoop_fold (cs : List Nat) (m r : Nat) :
    ratioLoop cs m r = (List.range cs.length).foldl (fun ratio i =>
      if m.testBit i then ratio * cs.getD i 0 / 2 ^ 128 else ratio) r := by
  induction cs generalizing m r with
  | nil => rfl
  | cons c cs ih =>
    rw [ratioLoop, ih, List.length_cons, List.range_succ_eq_map, List.foldl_cons, List.foldl_map]
    simp only [Nat.testBit_zero, List.getD_cons_zero, List.getD_cons_succ, Nat.testBit_succ, decide_eq_true_eq]

/-- The machine's price of a tick is the statements' (R172). -/
theorem tickToPrice_eq_priceOf (t : Int) : tickToPrice t = priceOf t := by
  rw [tickToPrice, tickToPriceWith, ratioLoop_fold, tickConstants_length, priceOf]

theorem priceOf_zero : priceOf 0 = 2 ^ 128 := by
  rw [← tickToPrice_eq_priceOf]
  exact (tickToPriceWith_nonpos Config.tickTable 0).trans (ratio_zero Config.tickTable)

theorem priceOf_min : priceOf (-(maxTick : Int)) = minSqrtRatio :=
  (tickToPrice_eq_priceOf _).symm.trans (tickToPriceWith_min Config.tickTable)

theorem priceOf_max : priceOf maxTick = maxSqrtRatio :=
  (tickToPrice_eq_priceOf _).symm.trans (tickToPriceWith_max Config.tickTable)

/-! ### T2P -/

theorem exec_t2p (rd rs1 : Reg) (s : State) : exec (.t2p rd rs1) s = finish s (t2pCmd rd rs1 s) := rfl

/-- T2P of the slot of a tick in range (R173). -/
theorem exec_t2p_of_slot (rd rs1 : Reg) (s : State) (t : Int) (h1 : -(maxTick : Int) ≤ t) (h2 : t ≤ maxTick)
    (hr : s.val rs1 = slotOf t) :
    exec (.t2p rd rs1) s = .next (completed s (withReg s.w rd (priceOf t)) s.flags) := by
  have hopnd : opndTick maxTick rs1 s = .ok t :=
    opndTick_of_slot maxTick rs1 s t h1 h2 (by omega) (hr.trans (slotOf_eq_encTick t))
  rw [exec_t2p, t2pCmd, hopnd, cmd_bind_ok, cmd_pure, tickToPrice_eq_priceOf, finish_setRegNat]

/-- T2P of the current-tick sentinel (R124, R173). -/
theorem exec_t2p_of_sentinel (rd rs1 : Reg) (s : State) (hr : s.val rs1 = slotOf (-(maxTick : Int) - 1)) :
    exec (.t2p rd rs1) s = .next (faulted s .RANGE_TICK (infoReg rs1)) := by
  have hopnd : opndTick maxTick rs1 s = raise .RANGE_TICK (infoReg rs1) :=
    opndTick_raises_of_slot maxTick rs1 s (-(maxTick : Int) - 1) (by decide) (by decide) (.inr (by omega))
      (hr.trans (slotOf_eq_encTick _))
  rw [exec_t2p, t2pCmd, hopnd, raise_eq, cmd_bind_error, ← raise_eq, finish_raise]

/-- Settles O24: slots decode to their ticks, and the machine's halving loop is the bitwise loop of R172. -/
theorem t2pWritesThePriceOfTheTick : Obligations.T2pWritesThePriceOfTheTick :=
  ⟨fun s rd rs1 => ⟨exec_t2p_of_slot rd rs1 s, exec_t2p_of_sentinel rd rs1 s⟩, priceOf_zero, priceOf_min, priceOf_max⟩

/-! ### Steps -/

/-- The engine has the turn when no event is to come, and when the next event is its own (R4, log 3). -/
theorem step_of_engine_turn (s u : State) (rest : List Event)
    (h : (s.agenda = [] ∧ u = s) ∨ (s.agenda = .engine :: rest ∧ u = { s with agenda := rest })) :
    step s = engineTurn u ∧ u.engine = s.engine := by
  obtain ⟨ha, rfl⟩ | ⟨ha, rfl⟩ := h
  · exact ⟨by rw [step, ha], rfl⟩
  · exact ⟨by rw [step, ha], rfl⟩

theorem step_of_host (s : State) (a : Access) (rest : List Event) (h : s.agenda = .host a :: rest) :
    step s = .next (hostAccess a { s with agenda := rest }) := by rw [step, h]

theorem engineTurn_of_some (u : State) (v : Word64) (h : u.engine = some v) : engineTurn u = runCommand v u := by
  rw [engineTurn, h]

theorem engineTurn_of_none (u : State) (h : u.engine = none) : engineTurn u = .next u := by rw [engineTurn, h]

theorem runCommand_of_ok (v : Word64) (i : Instr) (u : State) (h : decode v = .ok i) : runCommand v u = exec i u := by
  rw [runCommand, h]

/-- Only a reserved opcode reports ILLEGAL_OPCODE (R103). -/
theorem decodeFault_eq (e : DecodeError) :
    decodeFault e = if e = .reservedOpcode then .ILLEGAL_OPCODE else .ILLEGAL_FIELD := by
  cases e <;> rfl

/-- A value that does not decode completes with the decoder's fault, which names no register (R120, R334). -/
theorem runCommand_of_error (v : Word64) (e : DecodeError) (u : State) (h : decode v = .error e) :
    runCommand v u = .next (faulted u (if e = .reservedOpcode then .ILLEGAL_OPCODE else .ILLEGAL_FIELD) 0xFF) := by
  rw [runCommand, h, ← decodeFault_eq]
  exact finish_raise u (decodeFault e) infoNone

/-- Settles O48, by cases on whose turn it is and on what the value in flight decodes to. -/
theorem stepRunsTheDecodedCommand : Obligations.StepRunsTheDecodedCommand := by
  refine ⟨fun s rest u hturn => ?_, step_of_host⟩
  obtain ⟨hstep, hengine⟩ := step_of_engine_turn s u rest hturn
  rw [hstep, ← hengine]
  refine ⟨fun v i hv hd => ?decodes, fun v e hv hd => ?illegal, fun hidle => engineTurn_of_none u hidle⟩
  case decodes => rw [engineTurn_of_some u v hv, runCommand_of_ok v i u hd]
  case illegal => rw [engineTurn_of_some u v hv, runCommand_of_error v e u hd]

end Sys2Proof.Machine
end

section
/-! PROOFS, 10_state.md: what a command writes and leaves (R22 to R50), how the ledger stays sound (R40 to R48), and what
the registers of the window read and take (R33, R49, R51, R79, R380 to R382). -/

namespace Sys2Proof.Machine

/-! ### What a command can write -/

/-- The states that command `i` can have come to from `s` by writes that its rule names: its destination registers, its
flags, the lazy flush of the tree it names, the new root of the tree it inserts into, and, for NULLIFY, a nullifier. -/
inductive NamedWrites (i : Instr) (s : State) : State → Prop
  | start : NamedWrites i s s
  | reg {u rd} (hrd : rd ∈ destinations i) (v : Nat) (h : NamedWrites i s u) : NamedWrites i s (u.setRegNat rd v)
  | flagC {u} (hi : writesC i = true) (b : Bool) (h : NamedWrites i s u) : NamedWrites i s (u.setC b)
  | flagOvf {u} (hi : writesOvf i = true) (b : Bool) (h : NamedWrites i s u) : NamedWrites i s (u.setOvf b)
  | flagLim {u} (hi : writesLim i = true) (b : Bool) (h : NamedWrites i s u) : NamedWrites i s (u.setLim b)
  | flagB {u} (hi : writesB i = true) (b : Bool) (h : NamedWrites i s u) : NamedWrites i s (u.setB b)
  | flagN {u} (hi : writesN i = true) (b : Bool) (h : NamedWrites i s u) : NamedWrites i s (u.setN b)
  | flush {u t} (ht : namesTree i = some t) (h : NamedWrites i s u) :
      NamedWrites i s (u.setTree t ((u.tree t).maybeFlush u.now))
  | append {u t r} (hn : namesTree i = some t) (ht : insertsInto i = some t) (hr : r < Config.fieldP)
      (hroom : (u.tree t).next ≠ 2 ^ Config.treeHeight) (h : NamedWrites i s u) :
      NamedWrites i s (u.setTree t ((u.tree t).append r u.now))
  | mark {u rs1 n} (hi : i = .nullify rs1) (h0 : n ≠ 0) (hn : n < Config.fieldP) (hnew : n ∉ u.nset)
      (h : NamedWrites i s u) : NamedWrites i s { u with nset := nsetInsert n u.nset, ncount := u.ncount + 1 }

/-- How command `i` can complete from `s`: with the writes its rule names, or with a fault and none of them. -/
inductive Completion (i : Instr) (s : State) : State → Prop
  | success {u} (h : NamedWrites i s u) : Completion i s u.succeed
  | fault (e : Trap) : Completion i s (s.takeFault e)

section
variable {i : Instr} {s u : State} {rd rs1 rs2 rs3 : Reg}

theorem addCmd_namedWrites {n : Nat} (hrd : rd ∈ destinations i) (hc : writesC i = true)
    (h : addCmd n rd rs1 rs2 s = .ok u) : NamedWrites i s u := by
  obtain ⟨a, b, -, -, -, -, rfl⟩ := addCmd_ok n rd rs1 rs2 s u h
  exact .flagC hc _ (.reg hrd _ .start)

theorem subCmd_namedWrites {n : Nat} {uf : Bool} (hrd : rd ∈ destinations i) (hc : writesC i = true)
    (h : subCmd n rd rs1 rs2 uf s = .ok u) : NamedWrites i s u := by
  obtain ⟨a, b, -, -, -, -, -, rfl⟩ := subCmd_ok n rd rs1 rs2 uf s u h
  exact .flagC hc _ (.reg hrd _ .start)

theorem mulCmd_namedWrites {n : Nat} (hrd : rd ∈ destinations i)
    (h : mulCmd n rd rs1 rs2 s = .ok u) : NamedWrites i s u := by
  obtain ⟨a, b, -, -, -, -, rfl⟩ := mulCmd_ok n rd rs1 rs2 s u h
  exact .reg hrd _ .start

theorem nxpCmd_namedWrites {next : Nat → Nat → Nat → Bool → Nat × Bool} {addf : Bool} (hrd : rd ∈ destinations i)
    (ho : writesOvf i = true) (h : nxpCmd next rd rs1 rs2 rs3 addf s = .ok u) : NamedWrites i s u := by
  obtain ⟨p, liq, a, -, -, -, rfl⟩ := nxpCmd_ok next rd rs1 rs2 rs3 addf s u h
  exact .flagOvf ho _ (.reg hrd _ .start)

theorem swapCmd_namedWrites {step : Bool → SwapOperands → Cmd SwapResult} {up : Bool}
    (hd : destinations i = [rd, rd + 1, rd + 2, rd + 3]) (hl : writesLim i = true) (ho : writesOvf i = true)
    (h : swapCmd step rd rs1 up s = .ok u) : NamedWrites i s u := by
  obtain ⟨o, r, -, -, rfl⟩ := swapCmd_ok step rd rs1 up s u h
  have hmem : rd ∈ destinations i ∧ rd + 1 ∈ destinations i ∧ rd + 2 ∈ destinations i ∧ rd + 3 ∈ destinations i := by
    simp [hd]
  obtain ⟨h0, h1, h2, h3⟩ := hmem
  exact .flagOvf ho _ (.flagLim hl _ (.reg h3 _ (.reg h2 _ (.reg h1 _ (.reg h0 _ .start)))))

/-- The writes of a note: its nullifier and its commitment (R93, R271, R274). -/
theorem namedWrites_note (hd : destinations i = [rd, rd + 1]) (nf cm : Nat) :
    NamedWrites i s ((s.setRegNat rd nf).setRegNat (rd + 1) cm) :=
  .reg (by simp [hd]) _ (.reg (by simp [hd]) _ .start)

theorem setTree_setTree (s : State) (t : TreeId) (x y : Tree) : (s.setTree t x).setTree t y = s.setTree t y := by
  cases t <;> rfl

theorem insertCmd_namedWrites {t : TreeId} (hrd : rd ∈ destinations i) (hn : namesTree i = some t)
    (ht : insertsInto i = some t) (h : insertCmd t rd rs1 s = .ok u) : NamedWrites i s u := by
  obtain ⟨c, hc, -, -, -, hroom, -, rfl⟩ := insertCmd_ok t rd rs1 s u h
  have hfelt := computeRoot_felt (pathEntries s) c (s.tree t).next ((opndFelt_eq_ok rs1 s c).1 hc).2
  have happend := NamedWrites.append hn ht hfelt (by simpa using hroom) (.flush hn (.start (i := i) (s := s)))
  simp only [setTree_tree_same, setTree_now, setTree_setTree] at happend
  exact .reg hrd _ happend

/-- The writes of a query: the lazy flush and FLAGS.B (R305, R310). -/
theorem queryKnown_namedWrites {t : TreeId} (r : Nat) (hn : namesTree i = some t) (hb : writesB i = true) :
    NamedWrites i s (queryKnown t r s) :=
  .flagB hb _ (.flush hn .start)

theorem knownCmd_namedWrites {t : TreeId} (hn : namesTree i = some t) (hb : writesB i = true)
    (h : knownCmd t rs1 s = .ok u) : NamedWrites i s u := by
  obtain ⟨r, -, rfl⟩ := knownCmd_ok t rs1 s u h
  exact queryKnown_namedWrites r hn hb

theorem verifyCmd_namedWrites {t : TreeId} (hn : namesTree i = some t) (hb : writesB i = true)
    (h : verifyCmd t rs1 rs2 rs3 s = .ok u) : NamedWrites i s u := by
  obtain ⟨c, idx, -, -, -, -, rfl⟩ := verifyCmd_ok t rs1 rs2 rs3 s u h
  exact queryKnown_namedWrites _ hn hb

theorem flushCmd_namedWrites {t : TreeId} (hn : namesTree i = some t) (h : flushCmd t s = .ok u) :
    NamedWrites i s u := by
  rw [flushCmd_ok t s u h]
  exact .flush hn .start

theorem nullifyCmd_namedWrites (h : nullifyCmd rs1 s = .ok u) : NamedWrites (.nullify rs1) s u := by
  obtain ⟨n, hn, h0, hnew, -, rfl⟩ := nullifyCmd_ok rs1 s u h
  exact .mark rfl h0 ((opndFelt_eq_ok rs1 s n).1 hn).2 hnew .start

end

/-- A command whose pseudocode makes only the writes its rule names completes with them or with a fault. -/
theorem finish_completion {i : Instr} {s t : State} {r : Cmd State} (hr : ∀ u, r = .ok u → NamedWrites i s u)
    (h : finish s r = .next t) : Completion i s t := by
  obtain ⟨u, hu, rfl⟩ | ⟨e, -, rfl⟩ := finish_cases s t r h
  · exact .success (hr u hu)
  · exact .fault e

/-- Every command completes with the writes its rule names, or with a fault and none of them (R120, R127, R128). -/
theorem exec_completion (i : Instr) (s t : State) (h : exec i s = .next t) : Completion i s t := by
  cases i with
  | nop => exact finish_completion (r := .ok s) (by rintro _ ⟨⟩; exact .start) h
  | add128 rd rs1 rs2 => exact finish_completion (fun _ => addCmd_namedWrites (.head _) rfl) h
  | add256 rd rs1 rs2 => exact finish_completion (fun _ => addCmd_namedWrites (.head _) rfl) h
  | add512 rd rs1 rs2 =>
    exact finish_completion (r := addCmd 512 rd rs1 rs2 s) (fun _ => addCmd_namedWrites (.head _) rfl) h
  | sub128 rd rs1 rs2 uf => exact finish_completion (fun _ => subCmd_namedWrites (.head _) rfl) h
  | sub256 rd rs1 rs2 uf => exact finish_completion (fun _ => subCmd_namedWrites (.head _) rfl) h
  | sub512 rd rs1 rs2 uf =>
    exact finish_completion (r := subCmd 512 rd rs1 rs2 uf s) (fun _ => subCmd_namedWrites (.head _) rfl) h
  | mul128 rd rs1 rs2 => exact finish_completion (fun _ => mulCmd_namedWrites (.head _)) h
  | mul256 rd rs1 rs2 => exact finish_completion (fun _ => mulCmd_namedWrites (.head _)) h
  | divf rd rs1 rs2 rs3 =>
    refine finish_completion (r := divfCmd rd rs1 rs2 rs3 s) (fun u hu => ?_) h
    obtain ⟨d, q, -, -, -, -, -, -, -, rfl⟩ := divfCmd_ok rd rs1 rs2 rs3 s u hu
    exact .reg (.head _) _ .start
  | divc rd rs1 rs2 rs3 =>
    refine finish_completion (r := divcCmd rd rs1 rs2 rs3 s) (fun u hu => ?_) h
    obtain ⟨d, q, -, -, -, -, -, -, -, rfl⟩ := divcCmd_ok rd rs1 rs2 rs3 s u hu
    exact .reg (.head _) _ .start
  | muldiv rd rs1 rs2 rs3 rup =>
    refine finish_completion (r := muldivCmd rd rs1 rs2 rs3 rup s) (fun u hu => ?_) h
    obtain ⟨q, rfl⟩ := muldivCmd_ok rd rs1 rs2 rs3 rup s u hu
    exact .reg (.head _) _ .start
  | t2p rd rs1 =>
    refine finish_completion (r := t2pCmd rd rs1 s) (fun u hu => ?_) h
    obtain ⟨t, -, rfl⟩ := t2pCmd_ok rd rs1 s u hu
    exact .reg (.head _) _ .start
  | p2t rd rs1 =>
    refine finish_completion (r := p2tCmd rd rs1 s) (fun u hu => ?_) h
    obtain ⟨p, -, rfl⟩ := p2tCmd_ok rd rs1 s u hu
    exact .reg (.head _) _ .start
  | tdec rd rs1 cur =>
    refine finish_completion (r := tdecCmd rd rs1 cur s) (fun u hu => ?_) h
    obtain ⟨t, -, rfl⟩ := tdecCmd_ok rd rs1 cur s u hu
    exact .flagN rfl _ (.reg (.head _) _ .start)
  | amt0 rd rs1 rs2 rs3 rup =>
    refine finish_completion (r := amt0Cmd rd rs1 rs2 rs3 rup s) (fun u hu => ?_) h
    obtain ⟨pA, pB, liq, r, -, -, -, -, rfl⟩ := amt0Cmd_ok rd rs1 rs2 rs3 rup s u hu
    exact .flagOvf rfl _ (.reg (.head _) _ .start)
  | amt1 rd rs1 rs2 rs3 rup =>
    refine finish_completion (r := amt1Cmd rd rs1 rs2 rs3 rup s) (fun u hu => ?_) h
    obtain ⟨pA, pB, liq, -, -, -, rfl⟩ := amt1Cmd_ok rd rs1 rs2 rs3 rup s u hu
    exact .flagOvf rfl _ (.reg (.head _) _ .start)
  | ladd rd rs1 rs2 =>
    refine finish_completion (r := laddCmd rd rs1 rs2 s) (fun u hu => ?_) h
    obtain ⟨liq, d, -, -, -, -, rfl⟩ := laddCmd_ok rd rs1 rs2 s u hu
    exact .reg (.head _) _ .start
  | fgchk rs1 =>
    refine finish_completion (r := fgchkCmd rs1 s) (fun u hu => ?_) h
    rw [fgchkCmd_ok rs1 s u hu]
    exact .start
  | fgchkMono rs1 rs2 =>
    refine finish_completion (r := fgchkMonoCmd rs1 rs2 s) (fun u hu => ?_) h
    rw [fgchkMonoCmd_ok rs1 rs2 s u hu]
    exact .start
  | nxp0 rd rs1 rs2 rs3 addf => exact finish_completion (fun _ => nxpCmd_namedWrites (.head _) rfl) h
  | nxp1 rd rs1 rs2 rs3 addf => exact finish_completion (fun _ => nxpCmd_namedWrites (.head _) rfl) h
  | swapi rd rs1 up => exact finish_completion (fun _ => swapCmd_namedWrites rfl rfl rfl) h
  | swapo rd rs1 up => exact finish_completion (fun _ => swapCmd_namedWrites rfl rfl rfl) h
  | ntok rd rs1 =>
    refine finish_completion (r := ntokCmd rd rs1 s) (fun u hu => ?_) h
    obtain ⟨nf, cm, -, rfl⟩ := ntokCmd_ok rd rs1 s u hu
    exact namedWrites_note rfl nf cm
  | npos rd rs1 =>
    refine finish_completion (r := nposCmd rd rs1 s) (fun u hu => ?_) h
    obtain ⟨nf, cm, -, rfl⟩ := nposCmd_ok rd rs1 s u hu
    exact namedWrites_note rfl nf cm
  | insertT0 rd rs1 => exact finish_completion (fun _ => insertCmd_namedWrites (.head _) rfl rfl) h
  | insertT1 rd rs1 => exact finish_completion (fun _ => insertCmd_namedWrites (.head _) rfl rfl) h
  | insertTP rd rs1 => exact finish_completion (fun _ => insertCmd_namedWrites (.head _) rfl rfl) h
  | knownT0 rs1 => exact finish_completion (fun _ => knownCmd_namedWrites rfl rfl) h
  | knownT1 rs1 => exact finish_completion (fun _ => knownCmd_namedWrites rfl rfl) h
  | knownTP rs1 => exact finish_completion (fun _ => knownCmd_namedWrites rfl rfl) h
  | verifyT0 rs1 rs2 rs3 => exact finish_completion (fun _ => verifyCmd_namedWrites rfl rfl) h
  | verifyT1 rs1 rs2 rs3 => exact finish_completion (fun _ => verifyCmd_namedWrites rfl rfl) h
  | verifyTP rs1 rs2 rs3 => exact finish_completion (fun _ => verifyCmd_namedWrites rfl rfl) h
  | nullify rs1 => exact finish_completion (fun _ => nullifyCmd_namedWrites) h
  | flushT0 => exact finish_completion (fun _ => flushCmd_namedWrites rfl) h
  | flushT1 => exact finish_completion (fun _ => flushCmd_namedWrites rfl) h
  | flushTP => exact finish_completion (fun _ => flushCmd_namedWrites rfl) h

/-! ### What a command leaves unchanged -/

theorem NamedWrites.reg_eq {i : Instr} {s u : State} (h : NamedWrites i s u) {r : Reg} (hr : r ∉ destinations i) :
    u.reg r = s.reg r := by
  induction h with
  | start => rfl
  | reg hrd v _ ih => rw [setRegNat_reg_other _ _ _ _ (ne_of_mem_of_not_mem hrd hr).symm, ih]
  | flagC | flagOvf | flagLim | flagB | flagN | mark => assumption
  | flush _ _ ih | append _ _ _ _ _ ih => rw [setTree_reg, ih]

/-- Settles O9: a register write of a command goes to a destination, and no other write touches a register. -/
theorem onlyNamedRegistersAreWritten : Obligations.OnlyNamedRegistersAreWritten := by
  intro i s t r h hr
  cases exec_completion i s t h with
  | success hw => exact hw.reg_eq hr
  | fault e => rfl

/-- What R27 to R32 say of FLAGS: each flag that command `i` does not write is the same in both words. -/
def FlagsFrame (i : Instr) (f g : Flags) : Prop :=
  (writesC i = false → g.c = f.c) ∧ (writesOvf i = false → g.ovf = f.ovf) ∧ (writesLim i = false → g.lim = f.lim) ∧
    (writesB i = false → g.b = f.b) ∧ (writesN i = false → g.n = f.n)

theorem FlagsFrame.refl (i : Instr) (f : Flags) : FlagsFrame i f f :=
  ⟨fun _ => rfl, fun _ => rfl, fun _ => rfl, fun _ => rfl, fun _ => rfl⟩

theorem NamedWrites.flagsFrame {i : Instr} {s u : State} (h : NamedWrites i s u) : FlagsFrame i s.flags u.flags := by
  induction h with
  | start => exact .refl i s.flags
  | reg _ _ _ ih | mark _ _ _ _ _ ih => exact ih
  | flush _ _ ih | append _ _ _ _ _ ih => simpa only [setTree_flags] using ih
  | flagC hi _ _ ih | flagOvf hi _ _ ih | flagLim hi _ _ ih | flagB hi _ _ ih | flagN hi _ _ ih =>
    simpa [FlagsFrame, hi] using ih

/-- Settles O10: a command writes a flag only by the write its rule names. -/
theorem flagsAreWrittenOnlyByTheirCommands : Obligations.FlagsAreWrittenOnlyByTheirCommands := by
  intro i s t h
  cases exec_completion i s t h with
  | success hw => exact hw.flagsFrame
  | fault e => exact FlagsFrame.refl i s.flags

/-- The part of the state that belongs to the host: PATH, NOW, CMDLAST, the sticky bits of STATUS, and the model's own
fields (R25, R36 to R38, R49, R50). -/
structure SameHostSide (s t : State) : Prop where
  path : t.path = s.path
  now : t.now = s.now
  cmdLast : t.cmdLast = s.cmdLast
  reent : t.status.reent = s.status.reent
  wign : t.status.wign = s.status.wign
  buserr : t.status.buserr = s.status.buserr
  agenda : t.agenda = s.agenda
  readData : t.readData = s.readData
  freeIndex : t.freeIndex = s.freeIndex

theorem SameHostSide.refl (s : State) : SameHostSide s s := ⟨rfl, rfl, rfl, rfl, rfl, rfl, rfl, rfl, rfl⟩

theorem SameHostSide.trans {s u t : State} (h : SameHostSide s u) (g : SameHostSide u t) : SameHostSide s t :=
  ⟨g.path.trans h.path, g.now.trans h.now, g.cmdLast.trans h.cmdLast, g.reent.trans h.reent, g.wign.trans h.wign,
    g.buserr.trans h.buserr, g.agenda.trans h.agenda, g.readData.trans h.readData, g.freeIndex.trans h.freeIndex⟩

theorem sameHostSide_setTree (s : State) (t : TreeId) (x : Tree) : SameHostSide s (s.setTree t x) := by
  constructor <;> simp

theorem NamedWrites.sameHostSide {i : Instr} {s u : State} (h : NamedWrites i s u) : SameHostSide s u := by
  induction h with
  | start => exact .refl s
  | reg _ _ _ ih | mark _ _ _ _ _ ih => exact ih.trans (by constructor <;> rfl)
  | flagC _ _ _ ih | flagOvf _ _ _ ih | flagLim _ _ _ ih | flagB _ _ _ ih | flagN _ _ _ ih =>
    exact ih.trans (by constructor <;> rfl)
  | flush _ _ ih | append _ _ _ _ _ ih => exact ih.trans (sameHostSide_setTree _ _ _)

theorem exec_sameHostSide (i : Instr) (s t : State) (h : exec i s = .next t) : SameHostSide s t := by
  cases exec_completion i s t h with
  | success hw => exact hw.sameHostSide.trans (by constructor <;> rfl)
  | fault e => constructor <;> rfl

/-- Settles O11: none of the writes that a rule names, and no completion, touches the host's side. -/
theorem commandsLeaveTheHostSideAlone : Obligations.CommandsLeaveTheHostSideAlone := by
  intro i s t h
  obtain ⟨hpath, hnow, hcmd, hreent, hwign, hbus, hagenda, hread, hfree⟩ := exec_sameHostSide i s t h
  exact ⟨hpath, hnow, hcmd, hreent, hwign, hbus, hagenda, hread, hfree⟩

/-! ### What a command does to the ledger -/

theorem ne_of_ne_some_of_eq_some {o : Option TreeId} {k t : TreeId} (hk : o ≠ some k) (ht : o = some t) : k ≠ t := by
  rintro rfl
  exact hk ht

theorem NamedWrites.tree_eq {i : Instr} {s u : State} (h : NamedWrites i s u) {k : TreeId}
    (hk : namesTree i ≠ some k) : u.tree k = s.tree k := by
  induction h with
  | start => rfl
  | reg _ _ _ ih | flagC _ _ _ ih | flagOvf _ _ _ ih | flagLim _ _ _ ih | flagB _ _ _ ih | flagN _ _ _ ih =>
    simpa using ih
  | mark _ _ _ _ _ ih => exact ih
  | flush ht _ ih | append ht _ _ _ _ ih =>
    rw [setTree_tree_other _ _ _ _ (ne_of_ne_some_of_eq_some hk ht), ih]

theorem NamedWrites.nset_eq {i : Instr} {s u : State} (h : NamedWrites i s u) (hi : ∀ rs1, i ≠ .nullify rs1) :
    u.nset = s.nset ∧ u.ncount = s.ncount := by
  induction h with
  | start => exact ⟨rfl, rfl⟩
  | reg | flagC | flagOvf | flagLim | flagB | flagN => assumption
  | flush _ _ ih | append _ _ _ _ _ ih => simpa using ih
  | mark hn => exact absurd hn (hi _)

/-- ROOT and NEXT of a tree are written only by an append to it (R41, R42, R300). -/
theorem NamedWrites.root_next_eq {i : Instr} {s u : State} (h : NamedWrites i s u) {k : TreeId}
    (hk : insertsInto i ≠ some k) : (u.tree k).root = (s.tree k).root ∧ (u.tree k).next = (s.tree k).next := by
  induction h with
  | start => exact ⟨rfl, rfl⟩
  | reg _ _ _ ih | flagC _ _ _ ih | flagOvf _ _ _ ih | flagLim _ _ _ ih | flagB _ _ _ ih | flagN _ _ _ ih =>
    simpa using ih
  | mark _ _ _ _ _ ih => exact ih
  | @flush u t _ _ ih =>
    by_cases hkt : k = t
    · subst hkt
      simpa using ih
    · rw [setTree_tree_other _ _ _ _ hkt]
      exact ih
  | append _ ht _ _ _ ih =>
    rw [setTree_tree_other _ _ _ _ (ne_of_ne_some_of_eq_some hk ht)]
    exact ih

/-- A command that completed without a fault made all the writes of its pseudocode. -/
theorem finish_ok_of_err_false {s t : State} {r : Cmd State} (h : finish s r = .next t) (he : t.status.err = false) :
    ∃ u, r = .ok u ∧ t = u.succeed := by
  obtain hok | ⟨e, -, rfl⟩ := finish_cases s t r h
  · exact hok
  · cases he

/-- Settles O12: root and index are written only by an append, whose values are those INSERT computes. -/
theorem rootAndNextChangeOnlyByInsert : Obligations.RootAndNextChangeOnlyByInsert := by
  refine ⟨fun i s t k h hk => ?_, fun k rd rs1 s t h he => ?_, fun s k => by simp [Tree.isKnown]⟩
  · cases exec_completion i s t h with
    | success hw => simpa using hw.root_next_eq (hk.resolve_right (by simp))
    | fault e => simp
  · rw [exec_insertAt] at h
    obtain ⟨u, hu, rfl⟩ := finish_ok_of_err_false h he
    obtain ⟨c, hc, -, -, -, -, -, rfl⟩ := insertCmd_ok k rd rs1 s u hu
    obtain ⟨hval, -⟩ := (opndFelt_eq_ok rs1 s c).1 hc
    simp [← computeRoot_eq_rootOf, State.val, hval]

/-- NULLIFY without a fault marks exactly its operand, which was not marked before (R320). -/
theorem exec_nullify_success (rs1 : Reg) (s t : State) (h : exec (.nullify rs1) s = .next t)
    (he : t.status.err = false) :
    t.ncount = s.ncount + 1 ∧ s.val rs1 ∉ s.nset ∧ ∀ m, m ∈ t.nset ↔ m = s.val rs1 ∨ m ∈ s.nset := by
  obtain ⟨u, hu, rfl⟩ := finish_ok_of_err_false (r := nullifyCmd rs1 s) h he
  obtain ⟨n, hn, -, hnew, -, rfl⟩ := nullifyCmd_ok rs1 s u hu
  obtain ⟨rfl, -⟩ := (opndFelt_eq_ok rs1 s n).1 hn
  exact ⟨rfl, hnew, fun m => mem_nsetInsert _ m s.nset⟩

/-- Settles O13: a tree is written only when named, and NSET and NCOUNT only by the mark of a NULLIFY. -/
theorem ledgerChangesOnlyWhereNamed : Obligations.LedgerChangesOnlyWhereNamed := by
  intro i s t h
  refine ⟨fun k hk => ?trees, fun hi => ?nullifiers, fun rs1 hi he => ?marks⟩
  case trees =>
    cases exec_completion i s t h with
    | success hw => rw [succeed_tree, hw.tree_eq hk]
    | fault e => rw [takeFault_tree]
  case nullifiers =>
    cases exec_completion i s t h with
    | success hw => exact hw.nset_eq hi
    | fault e => exact ⟨rfl, rfl⟩
  case marks =>
    subst hi
    exact exec_nullify_success rs1 s t h he

/-! ### What a step can do -/

/-- What one access of the host can do: set the read port, the free-value counter and the sticky bits, write one operand
register or path entry, accept a command, or raise NOW (R61 to R70, R380 to R382). -/
theorem hostAccess_cases (a : Access) (s : State) :
    (∃ x k r b1 b2, hostAccess a s =
      { s with readData := x, freeIndex := k, status := { s.status with reent := r, wign := b1, buserr := b2 } }) ∨
    (∃ i x, hostAccess a s = s.setReg i x) ∨ (∃ j x, hostAccess a s = s.setPath j x) ∨
    (∃ v, hostAccess a s = s.accept v) ∨ (∃ v, s.now.toNat ≤ v.toNat ∧ hostAccess a s = { s with now := v }) := by
  have same : ∃ x k r b1 b2, s =
      { s with readData := x, freeIndex := k, status := { s.status with reent := r, wign := b1, buserr := b2 } } :=
    ⟨s.readData, s.freeIndex, s.status.reent, s.status.wign, s.status.buserr, rfl⟩
  cases a with
  | read address bytes =>
    simp only [hostAccess]
    cases windowOffset address with
    | none => exact .inl same
    | some offset =>
      obtain ⟨x, k, b, h⟩ := readWindow_cases offset bytes s
      exact .inl ⟨x, k, s.status.reent, s.status.wign, b, h⟩
  | write address bytes v =>
    simp only [hostAccess]
    cases windowOffset address with
    | none => exact .inl same
    | some offset =>
      obtain ⟨r, b1, b2, h⟩ | ⟨-, ⟨i, x, h⟩ | ⟨j, x, h⟩ | h | ⟨hle, h⟩⟩ := writeWindow_cases offset bytes v s
      · exact .inl ⟨s.readData, s.freeIndex, r, b1, b2, h⟩
      · exact .inr (.inl ⟨i, x, h⟩)
      · exact .inr (.inr (.inl ⟨j, x, h⟩))
      · exact .inr (.inr (.inr (.inl ⟨v, h⟩)))
      · exact .inr (.inr (.inr (.inr ⟨v, hle, h⟩)))

/-- What one turn of the engine can do: nothing, one command, or the decoder's fault (R120). -/
theorem engineTurn_cases (s t : State) (h : engineTurn s = .next t) :
    t = s ∨ (∃ i, exec i s = .next t) ∨ ∃ e, t = s.takeFault e := by
  cases hv : s.engine with
  | none =>
    rw [engineTurn_of_none s hv] at h
    cases h
    exact .inl rfl
  | some v =>
    rw [engineTurn_of_some s v hv] at h
    cases hd : decode v with
    | ok i => exact .inr (.inl ⟨i, runCommand_of_ok v i s hd ▸ h⟩)
    | error e =>
      rw [runCommand_of_error v e s hd] at h
      cases h
      exact .inr (.inr ⟨_, rfl⟩)

/-- A property of the state that the agenda does not touch, and that every command, the decoder's fault, every access of
the host and the reset keep, is kept by every step. -/
theorem step_keeps (P : State → Prop) (hagenda : ∀ s l, P s → P { s with agenda := l })
    (hexec : ∀ i s t, P s → exec i s = .next t → P t) (hfault : ∀ s e, P s → P (s.takeFault e))
    (hhost : ∀ a s, P s → P (hostAccess a s)) (hreset : ∀ s, P s → P (platformReset s)) (s t : State) (hs : P s)
    (h : step s = .next t) : P t := by
  have hturn : ∀ u, P u → engineTurn u = .next t → P t := by
    intro u hu hut
    obtain rfl | ⟨i, hi⟩ | ⟨e, rfl⟩ := engineTurn_cases u t hut
    · exact hu
    · exact hexec i u t hu hi
    · exact hfault u e hu
  unfold step at h
  split at h
  · exact hturn s hs h
  · exact hturn _ (hagenda s _ hs) h
  · cases h
    exact hhost _ _ (hagenda s _ hs)
  · cases h
    exact hreset _ (hagenda s _ hs)

/-! ### Every step keeps the ledger sound -/

/-- A sound tree stays sound as time goes on: only the age of its batch is bounded by NOW. -/
theorem TreeSound.mono {x : Tree} {now later : Word64} (h : TreeSound x now) (hle : now.toNat ≤ later.toNat) :
    TreeSound x later :=
  { h with pend_time := fun hp => (h.pend_time hp).trans hle }

/-- Flushing leaves a sound tree, also when the batch is full, as it is within an INSERT (R298, R300). -/
theorem flush_treeSound (x : Tree) (now : Word64) (hring : RingSound x) (hroot : x.root < Config.fieldP)
    (hnext : x.next ≤ 2 ^ Config.treeHeight) (hpend : ∀ r ∈ x.pend, r < Config.fieldP) : TreeSound x.flush now := by
  obtain ⟨hist_felt, hcnt_eq, ring_fill, refcnt_wf, refcnt_eq⟩ := flush_ringSound x hring hpend
  exact {
    root_felt := by rwa [flush_root]
    next_le := by rwa [flush_next]
    pend_felt := by simp
    pend_lt := by rw [flush_pend]; exact batchSize_range.1
    pend_time := by simp
    hist_felt, hcnt_eq, ring_fill, refcnt_wf, refcnt_eq }

theorem TreeSound.maybeFlush {x : Tree} {now : Word64} (h : TreeSound x now) : TreeSound (x.maybeFlush now) now := by
  unfold Tree.maybeFlush
  split
  · exact flush_treeSound x now h.ring h.root_felt h.next_le h.pend_felt
  · exact h

/-- An append with room for a leaf keeps a tree sound: the batch grows by one felt buffered now, and is flushed when
that fills it (R300). -/
theorem TreeSound.append {x : Tree} {now : Word64} {r : Nat} (h : TreeSound x now) (hr : r < Config.fieldP)
    (hroom : x.next ≠ 2 ^ Config.treeHeight) : TreeSound (x.append r now) now := by
  have hnext : x.next + 1 ≤ 2 ^ Config.treeHeight := by
    have := h.next_le
    omega
  have hpend : ∀ q ∈ x.pend ++ [r], q < Config.fieldP := by
    intro q hq
    obtain hq | hq := List.mem_append.1 hq
    · exact h.pend_felt q hq
    · rwa [List.mem_singleton.1 hq]
  obtain ⟨hist_felt, hcnt_eq, ring_fill, refcnt_wf, refcnt_eq⟩ := h.ring
  unfold Tree.append
  dsimp only
  split
  · exact flush_treeSound _ now ⟨hist_felt, hcnt_eq, ring_fill, refcnt_wf, refcnt_eq⟩ hr hnext hpend
  · next hshort =>
    refine ⟨hr, hnext, hpend, by simpa using hshort, fun _ => ?_, hist_felt, hcnt_eq, ring_fill, refcnt_wf, refcnt_eq⟩
    cases hp : x.pend with
    | nil => simp
    | cons q qs => simpa using h.pend_time (by simp [hp])

theorem zeroSubtree_felt (k : Nat) : Config.zeroSubtree k < Config.fieldP := by
  cases k with
  | zero => exact emptyLeaf_felt
  | succ k => exact nodeHash_felt _ _

theorem reset_hist_toList : Tree.reset.hist.toList = List.replicate 256 none := Vector.toList_replicate

/-- The tree of a reset has an empty ring and no batch, and its root is a felt (R370). -/
theorem reset_treeSound (now : Word64) : TreeSound Tree.reset now where
  root_felt := zeroSubtree_felt _
  next_le := Nat.zero_le _
  pend_felt := by simp [Tree.reset]
  pend_lt := batchSize_range.1
  pend_time := by simp [Tree.reset]
  hist_felt r hr := by
    rw [reset_hist_toList] at hr
    cases List.eq_of_mem_replicate hr
  hcnt_eq := by
    rw [occupied, reset_hist_toList, List.countP_replicate]
    rfl
  ring_fill := fun _ => ⟨rfl, fun k => congrArg Option.isSome (Vector.getElem_replicate k.isLt)⟩
  refcnt_wf := ⟨List.Pairwise.nil, by simp [Tree.reset]⟩
  refcnt_eq r := by
    rw [holding, reset_hist_toList, List.count_replicate]
    rfl

/-- Soundness of the ledger concerns the ledger and NOW, and does not end as NOW rises. -/
theorem LedgerSound.of_sameLedger {s u : State} (h : LedgerSound s) (hl : SameLedger s u)
    (hnow : s.now.toNat ≤ u.now.toNat) : LedgerSound u := by
  obtain ⟨htree, hnset, hncount⟩ := hl
  obtain ⟨trees, nset_wf, nset_felt, ncount_eq⟩ := h
  refine ⟨fun t => ?_, hnset ▸ nset_wf, hnset ▸ nset_felt, by rw [← hncount, ← hnset, ncount_eq]⟩
  rw [← htree t]
  exact (trees t).mono hnow

theorem LedgerSound.setTree {s : State} {t : TreeId} {x : Tree} (h : LedgerSound s) (hx : TreeSound x s.now) :
    LedgerSound (s.setTree t x) := by
  obtain ⟨trees, nset_wf, nset_felt, ncount_eq⟩ := h
  refine ⟨fun k => ?_, by simpa using nset_wf, by simpa using nset_felt, by simpa using ncount_eq⟩
  rw [setTree_now]
  by_cases hk : k = t
  · rwa [hk, setTree_tree_same]
  · rw [setTree_tree_other s t k x hk]
    exact trees k

/-- A new nonzero felt goes into NSET at its place, and NCOUNT counts it (R47, R48). -/
theorem LedgerSound.mark {s : State} {n : Nat} (h : LedgerSound s) (h0 : n ≠ 0) (hn : n < Config.fieldP)
    (hnew : n ∉ s.nset) : LedgerSound { s with nset := nsetInsert n s.nset, ncount := s.ncount + 1 } := by
  obtain ⟨trees, nset_wf, nset_felt, ncount_eq⟩ := h
  refine ⟨trees, nsetInsert_wf n s.nset nset_wf, fun m hm => ?_, ?_⟩
  · obtain rfl | hm := (mem_nsetInsert n m s.nset).1 hm
    · exact ⟨h0, hn⟩
    · exact nset_felt m hm
  · simp only [nsetInsert_length n s.nset hnew, ncount_eq]
    rw [BitVec.ofNat_add]
    rfl

theorem NamedWrites.ledgerSound {i : Instr} {s u : State} (h : NamedWrites i s u) (hs : LedgerSound s) :
    LedgerSound u := by
  induction h with
  | start => exact hs
  | reg _ _ _ ih | flagC _ _ _ ih | flagOvf _ _ _ ih | flagLim _ _ _ ih | flagB _ _ _ ih | flagN _ _ _ ih =>
    exact ih.of_sameLedger (by simp [SameLedger]) le_rfl
  | flush _ _ ih => exact ih.setTree (ih.trees _).maybeFlush
  | append _ _ hr hroom _ ih => exact ih.setTree ((ih.trees _).append hr hroom)
  | mark _ h0 hn hnew _ ih => exact ih.mark h0 hn hnew

theorem exec_ledgerSound (i : Instr) (s t : State) (hs : LedgerSound s) (h : exec i s = .next t) : LedgerSound t := by
  cases exec_completion i s t h with
  | success hw => exact (hw.ledgerSound hs).of_sameLedger (by simp [SameLedger]) le_rfl
  | fault e => exact hs.of_sameLedger (by simp [SameLedger]) le_rfl

theorem hostAccess_sameLedger (a : Access) (s : State) :
    SameLedger s (hostAccess a s) ∧ s.now.toNat ≤ (hostAccess a s).now.toNat := by
  obtain ⟨x, k, r, b1, b2, h⟩ | ⟨i, x, h⟩ | ⟨j, x, h⟩ | ⟨v, h⟩ | ⟨v, hle, h⟩ := hostAccess_cases a s <;> rw [h]
  · exact ⟨⟨fun t => by cases t <;> rfl, rfl, rfl⟩, le_rfl⟩
  · exact ⟨by simp [SameLedger], le_rfl⟩
  · exact ⟨by simp [SameLedger], le_rfl⟩
  · exact ⟨by simp [SameLedger], le_rfl⟩
  · exact ⟨⟨fun t => by cases t <;> rfl, rfl, rfl⟩, hle⟩

theorem tree_eq_reset {s : State} (h0 : s.tree0 = Tree.reset) (h1 : s.tree1 = Tree.reset) (hp : s.treeP = Tree.reset)
    (k : TreeId) : s.tree k = Tree.reset := by
  cases k <;> assumption

/-- A state whose ledger is that of a reset is sound (R370). -/
theorem reset_ledgerSound {s : State} (htree : ∀ k, s.tree k = Tree.reset) (hnset : s.nset = [])
    (hncount : s.ncount = 0) : LedgerSound s where
  trees k := by
    rw [htree k]
    exact reset_treeSound s.now
  nset_wf := by simp [hnset]
  nset_felt := by simp [hnset]
  ncount_eq := by simp [hnset, hncount]

/-- Settles O57: the writes of a command keep the ledger sound one by one, the host leaves the ledger alone and only
raises NOW, and a reset empties it. -/
theorem everyStepKeepsTheLedgerSound : Obligations.EveryStepKeepsTheLedgerSound := by
  refine step_keeps LedgerSound (fun s l hs => ?agenda) exec_ledgerSound (fun s e hs => ?fault) (fun a s hs => ?host)
    (fun s _ => ?reset)
  case agenda => exact hs.of_sameLedger ⟨fun t => by cases t <;> rfl, rfl, rfl⟩ le_rfl
  case fault => exact hs.of_sameLedger (by simp [SameLedger]) le_rfl
  case host =>
    obtain ⟨hledger, hnow⟩ := hostAccess_sameLedger a s
    exact hs.of_sameLedger hledger hnow
  case reset => exact reset_ledgerSound (tree_eq_reset rfl rfl rfl) rfl rfl

/-! ### Every step keeps the registers in agreement -/

theorem takeFault_agrees (s : State) (e : Trap) : causeAgrees (s.takeFault e) ∧ engineAgrees (s.takeFault e) :=
  ⟨.inr ⟨rfl, e, rfl⟩, fun v hv => by cases hv⟩

/-- A completed command left the engine idle, and ERR and CAUSE as its outcome (R128, R331). -/
theorem exec_agrees (i : Instr) (s t : State) (h : exec i s = .next t) : causeAgrees t ∧ engineAgrees t := by
  cases exec_completion i s t h with
  | success hw => exact ⟨.inl ⟨rfl, rfl⟩, fun v hv => by cases hv⟩
  | fault e => exact takeFault_agrees s e

theorem reset_agrees (k : Nat) (l : List Event) :
    causeAgrees { State.resetAt k with agenda := l } ∧ engineAgrees { State.resetAt k with agenda := l } :=
  ⟨.inl ⟨rfl, rfl⟩, fun v hv => by cases hv⟩

/-- The host cannot write ERR and CAUSE (R33, R39). -/
theorem hostAccess_err_cause (a : Access) (s : State) :
    (hostAccess a s).status.err = s.status.err ∧ (hostAccess a s).cause = s.cause := by
  obtain ⟨x, k, r, b1, b2, h⟩ | ⟨i, x, h⟩ | ⟨j, x, h⟩ | ⟨v, h⟩ | ⟨v, -, h⟩ := hostAccess_cases a s <;> rw [h] <;>
    exact ⟨rfl, rfl⟩

/-- The host puts a command in flight only by an accepted CMD write, which sets CMDLAST with it (R70). -/
theorem hostAccess_engine (a : Access) (s : State) :
    ((hostAccess a s).engine = s.engine ∧ (hostAccess a s).cmdLast = s.cmdLast) ∨ ∃ v, hostAccess a s = s.accept v := by
  obtain ⟨x, k, r, b1, b2, h⟩ | ⟨i, x, h⟩ | ⟨j, x, h⟩ | ⟨v, h⟩ | ⟨v, -, h⟩ := hostAccess_cases a s
  case inr.inr.inr.inl => exact .inr ⟨v, h⟩
  all_goals
    rw [h]
    exact .inl ⟨rfl, rfl⟩

theorem accept_engineAgrees (s : State) (v : Word64) : engineAgrees (s.accept v) := by
  intro w hw
  cases hw
  rfl

theorem hostAccess_causeAgrees (a : Access) (s : State) (hs : causeAgrees s) : causeAgrees (hostAccess a s) := by
  obtain ⟨herr, hcause⟩ := hostAccess_err_cause a s
  unfold causeAgrees
  rwa [herr, hcause]

theorem hostAccess_engineAgrees (a : Access) (s : State) (hs : engineAgrees s) : engineAgrees (hostAccess a s) := by
  obtain ⟨hengine, hcmd⟩ | ⟨v, hv⟩ := hostAccess_engine a s
  · unfold engineAgrees
    rwa [hengine, hcmd]
  · rw [hv]
    exact accept_engineAgrees s v

/-- Settles O58: a completion establishes both agreements, an access of the host keeps them. -/
theorem everyStepKeepsTheRegistersInAgreement : Obligations.EveryStepKeepsTheRegistersInAgreement := by
  intro s t h
  refine ⟨fun hs => ?cause, fun hs => ?engine⟩
  case cause =>
    exact step_keeps causeAgrees (fun _ _ hu => hu) (fun i u v _ hv => (exec_agrees i u v hv).1)
      (fun u e _ => (takeFault_agrees u e).1) hostAccess_causeAgrees (fun u _ => (reset_agrees u.freeIndex u.agenda).1)
      s t hs h
  case engine =>
    exact step_keeps engineAgrees (fun _ _ hu => hu) (fun i u v _ hv => (exec_agrees i u v hv).2)
      (fun u e _ => (takeFault_agrees u e).2) hostAccess_engineAgrees (fun u _ => (reset_agrees u.freeIndex u.agenda).2)
      s t hs h

/-- Settles O59: a reset empties the ledger, clears ERR and CAUSE and leaves the engine idle. -/
theorem resetMeetsTheInvariants : Obligations.ResetMeetsTheInvariants :=
  ⟨reset_ledgerSound (tree_eq_reset rfl rfl rfl) rfl rfl, reset_agrees 0 []⟩

/-! ### The empty tree -/

/-- The equations of R293 have one solution, the roots of the empty subtrees. -/
theorem eq_zeroSubtree {z : Nat → Nat} (h0 : z 0 = Config.emptyLeaf)
    (hsucc : ∀ k, z (k + 1) = Config.nodeHash (z k) (z k)) (k : Nat) : z k = Config.zeroSubtree k := by
  induction k with
  | zero => exact h0
  | succ k ih => rw [hsucc, ih, Config.zeroSubtree]

/-- Climbing `n` levels of a path of empty subtrees, on whichever side each sibling stands, gives the empty subtree of
height `n` (R292, R293). -/
theorem fold_zeroSubtree {sibling : Nat → Nat} (idx n : Nat) (h : ∀ j < n, sibling j = Config.zeroSubtree j) :
    (List.range n).foldl (fun node i =>
      if idx.testBit i then Config.nodeHash (sibling i) node else Config.nodeHash node (sibling i)) Config.emptyLeaf =
        Config.zeroSubtree n := by
  induction n with
  | zero => rfl
  | succ n ih =>
    rw [List.range_succ, List.foldl_concat, ih fun j hj => h j (by omega), h n (by omega), ite_self, Config.zeroSubtree]

theorem rootOf_emptyLeaf {s : State} (h : ∀ j < Config.treeHeight, s.sibling j = Config.zeroSubtree j) (idx : Nat) :
    s.rootOf Config.emptyLeaf idx = Config.zeroRoot :=
  fold_zeroSubtree idx Config.treeHeight h

/-- An INSERT whose checks all pass makes its writes (R300): the converse of `insertCmd_ok`. -/
theorem insertCmd_of_checks {t : TreeId} {rd rs1 : Reg} {s : State} (hfelt : s.val rs1 < Config.fieldP)
    (h0 : s.val rs1 ≠ 0) (hleaf : s.val rs1 ≠ Config.emptyLeaf) (hpath : PathOk s)
    (hroom : (s.tree t).next ≠ 2 ^ Config.treeHeight)
    (hslot : s.rootOf Config.emptyLeaf (s.tree t).next = (s.tree t).root) :
    insertCmd t rd rs1 s = .ok ((s.setTree t (((s.tree t).maybeFlush s.now).append
      (s.rootOf (s.val rs1) (s.tree t).next) s.now)).setRegNat rd (s.tree t).next) := by
  have hopnd : opndFelt rs1 s = .ok (s.val rs1) := (opndFelt_eq_ok rs1 s _).2 ⟨rfl, hfelt⟩
  have hcheck : pathCheck s = .ok () := (pathCheck_eq_ok s).2 ((pathOk_iff s).1 hpath)
  rw [insertCmd, hopnd, cmd_bind_ok, hcheck, cmd_bind_ok, if_neg (by simp [h0, hleaf]), if_neg hroom,
    computeRoot_eq_rootOf, computeRoot_eq_rootOf, if_neg (not_not.2 hslot), cmd_pure]

/-- Settles O60: climbing the empty path gives the empty subtrees, so the empty-slot check of an INSERT after a reset
compares ZERO_ROOT with itself. -/
theorem emptyTreeHasTheZeroRoot : Obligations.EmptyTreeHasTheZeroRoot := by
  intro s z hz0 hzsucc hpath
  have hzero : ∀ j < Config.treeHeight, s.sibling j = Config.zeroSubtree j :=
    fun j hj => (hpath j hj).trans (eq_zeroSubtree hz0 hzsucc j)
  refine ⟨fun idx _ => rootOf_emptyLeaf hzero idx, fun t k rd rs1 ht0 ht1 htp hfelt h0 hleaf h => ?_⟩
  have htree : s.tree k = Tree.reset := tree_eq_reset ht0 ht1 htp k
  have hok : PathOk s := fun j hj => hzero j hj ▸ zeroSubtree_felt j
  have hroom : (s.tree k).next ≠ 2 ^ Config.treeHeight := by
    rw [htree]
    exact (Nat.two_pow_pos Config.treeHeight).ne
  have hslot : s.rootOf Config.emptyLeaf (s.tree k).next = (s.tree k).root := by
    rw [rootOf_emptyLeaf hzero, htree]
    rfl
  rw [exec_insertAt, insertCmd_of_checks hfelt h0 hleaf hok hroom hslot, finish_ok] at h
  cases h
  refine ⟨rfl, ?_⟩
  rw [State.val, succeed_reg, setRegNat_reg_same, htree]
  exact BitVec.toNat_zero

/-! ### The cause word -/

/-- The fields of a concatenation laid out as a cause word is. -/
theorem extract_of_append (z : BitVec 40) (info : BitVec 8) (gap : BitVec 5) (cls : BitVec 3) (code : BitVec 8) :
    (z ++ info ++ gap ++ cls ++ code).extractLsb' 0 8 = code ∧
      (z ++ info ++ gap ++ cls ++ code).extractLsb' 8 3 = cls ∧
      (z ++ info ++ gap ++ cls ++ code).extractLsb' 11 5 = gap ∧
      (z ++ info ++ gap ++ cls ++ code).extractLsb' 16 8 = info ∧
      (z ++ info ++ gap ++ cls ++ code).extractLsb' 24 40 = z := by
  simp only [BitVec.extractLsb'_append_eq_of_le, BitVec.extractLsb'_append_eq_right, BitVec.extractLsb'_eq_self,
    Nat.reduceLeDiff, Nat.reduceSub, le_refl, and_self]

/-- Where a cause word holds the code, the class and the info of its fault (R39). -/
theorem cause_fields (e : Trap) :
    e.cause.extractLsb' 0 8 = e.code.code ∧ e.cause.extractLsb' 8 3 = e.code.cls ∧
      e.cause.extractLsb' 11 5 = 0 ∧ e.cause.extractLsb' 16 8 = e.info ∧ e.cause.extractLsb' 24 40 = 0 :=
  extract_of_append 0 e.info 0 e.code.cls e.code.code

/-- The 25 causes of R332, in the order of their codes. -/
def allFaultCodes : List FaultCode :=
  [.RANGE_WIDTH, .RANGE_FIELD, .RANGE_TICK, .RANGE_DELTA, .RANGE_PRICE, .RANGE_FEEGROWTH, .RANGE_TOKEN_ID, .RANGE_INDEX,
    .DIRECTION_MISMATCH, .NOTE_INVALID, .DIV_BY_ZERO, .DIV_OVERFLOW, .QUOTIENT_REJECTED, .SUB_UNDERFLOW,
    .WRONG_DIRECTION, .LIQUIDITY_UNDERFLOW, .LIQUIDITY_OVERFLOW, .FEE_GROWTH_DECREASE, .NULLIFIER_USED, .NULLIFIER_ZERO,
    .EMPTY_SLOT_MISMATCH, .TREE_FULL, .LEDGER_STORE_FULL, .ILLEGAL_OPCODE, .ILLEGAL_FIELD]

theorem mem_allFaultCodes (c : FaultCode) : c ∈ allFaultCodes := by cases c <;> decide

/-- The class of a code is the one of its range (R333). -/
theorem cls_of_code (c : FaultCode) :
    (c.cls = 1 ↔ 0x01 ≤ c.code.toNat ∧ c.code.toNat ≤ 0x0A) ∧ (c.cls = 3 ↔ 0x20 ≤ c.code.toNat ∧ c.code.toNat ≤ 0x24) ∧
    (c.cls = 4 ↔ 0x30 ≤ c.code.toNat ∧ c.code.toNat ≤ 0x34) ∧ (c.cls = 5 ↔ 0x10 ≤ c.code.toNat ∧ c.code.toNat ≤ 0x12) ∧
    (c.cls = 6 ↔ 0x40 ≤ c.code.toNat ∧ c.code.toNat ≤ 0x41) ∧ c.cls ≠ 2 ∧ c.code ≠ 0 := by
  cases c <;> decide

/-- No two causes share a code (R332). -/
theorem code_injective (c d : FaultCode) (h : c.code = d.code) : c = d :=
  List.inj_on_of_nodup_map (f := FaultCode.code) (l := allFaultCodes) (by decide) (mem_allFaultCodes c)
    (mem_allFaultCodes d) h

theorem infoReg_toNat (i : Reg) : (infoReg i).toNat = i.toNat := by
  rw [infoReg, BitVec.toNat_setWidth]
  have := i.isLt
  omega

theorem infoPath_toNat (j : Nat) (h : j < 32) : (infoPath j).toNat = 0x80 + j := by
  unfold infoPath
  bv_omega

/-- Settles O5: the fields of the word, the ranges of the classes, and the table of codes. -/
theorem causeHoldsInfoClassAndCode : Obligations.CauseHoldsInfoClassAndCode := by
  refine ⟨cause_fields, cls_of_code, code_injective, ?_⟩
  exact ⟨rfl, rfl, rfl, rfl, rfl, rfl, rfl, rfl, rfl, rfl, rfl, rfl, rfl, rfl, rfl, rfl, rfl, rfl, rfl, rfl, rfl, rfl,
    rfl, rfl, rfl, infoReg_toNat, infoPath_toNat, rfl⟩

/-! ### Where the registers of the window lie -/

/-- The offsets of the operand registers and of the path entries (R61, R62). -/
theorem targetOf_limb (a : BitVec 12) (h : a.toNat < 0x800) :
    (∃ i k, targetOf a = .operand i k) ∨ ∃ j k, targetOf a = .path j k := by
  unfold targetOf
  by_cases hlow : a.toNat < 0x400
  · exact .inl ⟨_, _, if_pos hlow⟩
  · exact .inr ⟨_, _, (if_neg hlow).trans (if_pos h)⟩

/-- The targets whose write is ignored whether or not a command runs (R63 to R65). -/
def Target.ignoresWrites : Target → Bool
  | .operand _ _ | .path _ _ | .cmd | .status | .now => false
  | .cause | .errCmd | .flags | .nullCount | .id | .cfg0 | .cfg1 | .cfgp _ | .cfgmf _ | .tree _ _ | .reserved => true

theorem hostWrite_of_ignoresWrites {tgt : Target} (h : tgt.ignoresWrites = true) (v : Word64) (s : State) :
    hostWrite tgt v s = s := by
  cases tgt with
  | operand | path | cmd | status | now => cases h
  | _ => rfl

/-- The offsets of the parameters FIELD_P and MAX_FEE_GROWTH (R63). -/
theorem targetOf_parameter (a : BitVec 12) (h : 0x860 ≤ a.toNat ∧ a.toNat < 0x8A0) :
    ∃ k, targetOf a = .cfgp k ∨ targetOf a = .cfgmf k := by
  by_cases hlow : a.toNat < 0x880
  · exact ⟨(a.toNat - 0x860) / 8, .inl (by simp (disch := omega) only [targetOf, if_neg, if_pos])⟩
  · exact ⟨(a.toNat - 0x880) / 8, .inr (by simp (disch := omega) only [targetOf, if_neg, if_pos])⟩

/-- The offsets of the status registers of the trees (R64). -/
theorem targetOf_treeStatus (a : BitVec 12) (h : 0x900 ≤ a.toNat ∧ a.toNat < 0x9C0) :
    ∃ t k, targetOf a = .tree t k := by
  by_cases h0 : a.toNat < 0x940
  · exact ⟨.t0, (a.toNat - 0x900) / 8, by simp (disch := omega) only [targetOf, if_neg, if_pos]⟩
  by_cases h1 : a.toNat < 0x980
  · exact ⟨.t1, (a.toNat - 0x940) / 8, by simp (disch := omega) only [targetOf, if_neg, if_pos]⟩
  · exact ⟨.tp, (a.toNat - 0x980) / 8, by simp (disch := omega) only [targetOf, if_neg, if_pos]⟩

theorem targetOf_readOnly (a : BitVec 12) (ha : a.toNat % 8 = 0) (h : ReadOnlyOffset a.toNat) :
    (targetOf a).ignoresWrites = true := by
  obtain h | h | h | h := h
  · obtain rfl | rfl | rfl : a = 0x810 ∨ a = 0x818 ∨ a = 0x820 := by bv_omega
    all_goals decide
  · obtain rfl | rfl | rfl | rfl : a = 0x830 ∨ a = 0x838 ∨ a = 0x840 ∨ a = 0x848 := by bv_omega
    all_goals decide
  · obtain ⟨k, ht | ht⟩ := targetOf_parameter a h <;> rw [ht] <;> rfl
  · obtain ⟨t, k, ht⟩ := targetOf_treeStatus a h
    rw [ht]
    rfl

/-- The assigned offsets whose read is unspecified while a command runs (R79, R382). -/
theorem targetOf_unspecified (a : BitVec 12) (ha : a.toNat % 8 = 0)
    (h : a.toNat < 0x800 ∨ a.toNat = 0x800 ∨ (0x810 ≤ a.toNat ∧ a.toNat ≤ 0x830) ∨
      (0x900 ≤ a.toNat ∧ a.toNat < 0x9C0)) : (targetOf a).stableWhileBusy = false := by
  obtain h | h | h | h := h
  · obtain ⟨i, k, ht⟩ | ⟨j, k, ht⟩ := targetOf_limb a h <;> rw [ht] <;> rfl
  · obtain rfl : a = 0x800 := by bv_omega
    decide
  · obtain rfl | rfl | rfl | rfl | rfl : a = 0x810 ∨ a = 0x818 ∨ a = 0x820 ∨ a = 0x828 ∨ a = 0x830 := by bv_omega
    all_goals decide
  · obtain ⟨t, k, ht⟩ := targetOf_treeStatus a h
    rw [ht]
    rfl

theorem targetOf_cfgp : ∀ k : Fin 4, (BitVec.ofNat 12 (0x860 + 8 * k.val)).toNat % 8 = 0 ∧
    targetOf (BitVec.ofNat 12 (0x860 + 8 * k.val)) = .cfgp k.val := by decide

theorem targetOf_cfgmf : ∀ k : Fin 4, (BitVec.ofNat 12 (0x880 + 8 * k.val)).toNat % 8 = 0 ∧
    targetOf (BitVec.ofNat 12 (0x880 + 8 * k.val)) = .cfgmf k.val := by decide

/-- Where the status registers of each tree lie (R64). -/
theorem targetOf_tree (t : TreeId) (base : Nat)
    (h : (t, base) ∈ [(TreeId.t0, 0x900), (TreeId.t1, 0x940), (TreeId.tp, 0x980)]) :
    ∀ k : Fin 8, (BitVec.ofNat 12 (base + 8 * k.val)).toNat % 8 = 0 ∧
      targetOf (BitVec.ofNat 12 (base + 8 * k.val)) = .tree t k.val := by
  simp only [List.mem_cons, Prod.mk.injEq, List.not_mem_nil, or_false] at h
  obtain ⟨rfl, rfl⟩ | ⟨rfl, rfl⟩ | ⟨rfl, rfl⟩ := h <;> decide

/-! ### Aligned accesses -/

theorem accessOk_of_aligned {a : BitVec 12} (ha : a.toNat % 8 = 0) : accessOk a 8 = true := by simp [accessOk, ha]

theorem writeAt_aligned {a : BitVec 12} {tgt : Target} (ha : a.toNat % 8 = 0) (ht : targetOf a = tgt) (v : Word64)
    (s : State) : hostAccess (writeAt a 8 v) s = hostWrite tgt v s := by
  rw [hostAccess_writeAt, writeWindow, accessOk_of_aligned ha, if_pos rfl, ht]

theorem readAt_aligned {a : BitVec 12} {tgt : Target} (ha : a.toNat % 8 = 0) (ht : targetOf a = tgt) (s : State) :
    hostAccess (readAt a 8) s = hostRead tgt s := by
  rw [hostAccess_readAt, readWindow, accessOk_of_aligned ha, if_pos rfl, ht]

theorem busy_of_some {s : State} {c : Word64} (h : s.engine = some c) : s.busy = true := by rw [State.busy, h]; rfl

theorem busy_of_none {s : State} (h : s.engine = none) : s.busy = false := by rw [State.busy, h]; rfl

/-- STATUS and the constants read as they are, whether or not a command runs (R79, R382). -/
theorem readAt_stable {a : BitVec 12} {tgt : Target} (ha : a.toNat % 8 = 0) (ht : targetOf a = tgt)
    (hstable : tgt.stableWhileBusy = true) (s : State) :
    hostAccess (readAt a 8) s = { s with readData := windowRead s tgt } := by
  rw [readAt_aligned ha ht, hostRead, if_neg (by simp [hstable])]

/-- Every register reads as it is while the engine is idle (R76). -/
theorem readAt_idle {a : BitVec 12} {tgt : Target} (ha : a.toNat % 8 = 0) (ht : targetOf a = tgt) {s : State}
    (hs : s.engine = none) : hostAccess (readAt a 8) s = { s with readData := windowRead s tgt } := by
  rw [readAt_aligned ha ht, hostRead, if_neg (by simp [busy_of_none hs])]

/-! ### What the registers hold -/

/-- The number a concatenation stands for (R12). -/
theorem toNat_append_eq {m n : Nat} (x : BitVec m) (y : BitVec n) :
    (x ++ y).toNat = x.toNat * 2 ^ n + y.toNat := by
  rw [BitVec.toNat_append, ← Nat.shiftLeft_add_eq_or_of_lt y.isLt, Nat.shiftLeft_eq]

/-- The number of a word laid out as CFG0 is (R51). -/
theorem toNat_of_append (z : BitVec 16) (depth : BitVec 16) (batch : BitVec 16) (gap : BitVec 8) (height : BitVec 8) :
    (z ++ depth ++ batch ++ gap ++ height).toNat = height.toNat + gap.toNat * 2 ^ 8 + batch.toNat * 2 ^ 16 +
      depth.toNat * 2 ^ 32 + z.toNat * 2 ^ 48 := by
  simp only [toNat_append_eq]
  omega

theorem cfg0Word_eq : cfg0Word = BitVec.ofNat 64 (Config.treeHeight + Config.batchSize * 2 ^ 16 + 256 * 2 ^ 32) := by
  have hheight := treeHeight_range
  have hbatch := batchSize_range
  apply BitVec.eq_of_toNat_eq
  refine (toNat_of_append 0 256 (BitVec.ofNat 16 Config.batchSize) 0 (BitVec.ofNat 8 Config.treeHeight)).trans ?_
  simp only [BitVec.toNat_ofNat, BitVec.ofNat_eq_ofNat]
  omega

/-- The bits of a word laid out as FLAGS is (R26). -/
theorem bits_of_append (z : BitVec 59) (n b lim ovf c : Bool) :
    let x := z ++ BitVec.ofBool n ++ BitVec.ofBool b ++ BitVec.ofBool lim ++ BitVec.ofBool ovf ++ BitVec.ofBool c
    x.getLsbD 0 = c ∧ x.getLsbD 1 = ovf ∧ x.getLsbD 2 = lim ∧ x.getLsbD 3 = b ∧ x.getLsbD 4 = n ∧
      x.extractLsb' 5 59 = z := by
  simp only [BitVec.getLsbD_append, BitVec.extractLsb'_append_eq_of_le, BitVec.extractLsb'_eq_self, Nat.reduceLeDiff,
    Nat.reduceSub, Nat.reduceLT, BitVec.getLsbD_ofBool]
  simp

/-- The bits of the FLAGS word (R26). -/
theorem flagsWord_bits (f : Flags) : f.word.getLsbD 0 = f.c ∧ f.word.getLsbD 1 = f.ovf ∧ f.word.getLsbD 2 = f.lim ∧
    f.word.getLsbD 3 = f.b ∧ f.word.getLsbD 4 = f.n ∧ f.word.extractLsb' 5 59 = 0 :=
  bits_of_append 0 f.n f.b f.lim f.ovf f.c

/-- The first four words of a tree's status registers are the limbs of ROOT (R64). -/
theorem treeWord_root (x : Tree) (k : Fin 4) : treeWord x k.val = limb (BitVec.ofNat 256 x.root) k.val := by
  fin_cases k <;> rfl

/-- The identification and configuration registers read their constants in every state (R51, R79). -/
theorem constantsRead (s : State) : ConstantsRead s := by
  refine ⟨readAt_stable (tgt := .id) (by decide) (by decide) rfl s, ?_,
    readAt_stable (tgt := .cfg1) (by decide) (by decide) rfl s, fun k => ⟨?_, ?_⟩⟩
  · rw [readAt_stable (tgt := .cfg0) (by decide) (by decide) rfl s, windowRead, cfg0Word_eq]
  · obtain ⟨ha, ht⟩ := targetOf_cfgp k
    rw [readAt_stable ha ht rfl s, windowRead, limb_ofNat _ k fieldP_lt]
  · obtain ⟨ha, ht⟩ := targetOf_cfgmf k
    rw [readAt_stable ha ht rfl s, windowRead, limb_ofNat _ k (maxFeeGrowth_lt.trans fieldP_lt)]

/-- STATUS reads in every state, with BUSY telling whether a command runs (R33, R34, R79). -/
theorem statusRead (s : State) :
    ∃ x : Word64, hostAccess (readAt 0x808 8) s = { s with readData := x } ∧ StatusBits x s.busy s.status :=
  ⟨s.statusWord, readAt_stable (tgt := .status) (by decide) (by decide) rfl s, statusWord_bits s⟩

/-- The status registers of a tree read their contents while the engine is idle (R64). -/
theorem treeRead {s : State} (hs : s.engine = none) {t : TreeId} {base : Nat}
    (h : (t, base) ∈ [(TreeId.t0, 0x900), (TreeId.t1, 0x940), (TreeId.tp, 0x980)]) (k : Fin 8) :
    hostAccess (readAt (BitVec.ofNat 12 (base + 8 * k.val)) 8) s =
      { s with readData := treeWord (s.tree t) k.val } := by
  obtain ⟨ha, ht⟩ := targetOf_tree t base h k
  exact readAt_idle ha ht hs

/-- Settles O53: each register is read at its offset, and its word is put together as its rule says. -/
theorem registersReadAsSpecified : Obligations.RegistersReadAsSpecified := by
  intro s hs
  refine ⟨busy_of_none hs ▸ statusRead s, ?flags, readAt_idle (tgt := .cmd) (by decide) (by decide) hs,
    readAt_idle (tgt := .cause) (by decide) (by decide) hs, readAt_idle (tgt := .errCmd) (by decide) (by decide) hs,
    readAt_idle (tgt := .now) (by decide) (by decide) hs, readAt_idle (tgt := .nullCount) (by decide) (by decide) hs,
    constantsRead s, fun t base ht => ?trees⟩
  case flags =>
    exact ⟨s.flags.word, readAt_idle (tgt := .flags) (by decide) (by decide) hs, flagsWord_bits s.flags⟩
  case trees =>
    refine ⟨fun k hroot => ?_, treeRead hs ht 4, treeRead hs ht 5, treeRead hs ht 6, treeRead hs ht 7⟩
    have hk := treeRead hs ht (k.castLE (by decide))
    rwa [Fin.val_castLE, treeWord_root, limb_ofNat _ k hroot] at hk

/-! ### What the registers take -/

/-- A NOW write while idle takes the greater of the two times (R49). -/
theorem hostWrite_now_idle {s : State} (hs : s.engine = none) (v : Word64) :
    hostWrite .now v s = { s with now := if s.now ≤ v then v else s.now } := by
  simp only [hostWrite, busy_of_none hs, Bool.false_eq_true, if_false, BitVec.le_def]
  split <;> rfl

/-- Settles O51: each kind of register has its rule for writes, and a read-only offset names no other. -/
theorem controlRegisterWrites : Obligations.ControlRegisterWrites := by
  intro s v
  refine ⟨writeAt_aligned (tgt := .status) (by decide) (by decide) v s, fun hs => ?now, fun a ha hread => ?readOnly⟩
  case now => rw [writeAt_aligned (tgt := .now) (by decide) (by decide), hostWrite_now_idle hs]
  case readOnly => rw [writeAt_aligned ha rfl, hostWrite_of_ignoresWrites (targetOf_readOnly a ha hread)]

/-- While a command runs a write of an operand, a path entry or NOW is lost and flagged (R37, R381). -/
theorem writeAt_busy_discarded {s : State} (hs : s.busy = true) {a : BitVec 12} (ha : a.toNat % 8 = 0)
    (h : a.toNat < 0x800 ∨ a.toNat = 0x828) (v : Word64) : hostAccess (writeAt a 8 v) s = s.flagIgnoredWrite := by
  obtain hlow | hnow := h
  · obtain ⟨i, k, ht⟩ | ⟨j, k, ht⟩ := targetOf_limb a hlow
    · rw [writeAt_aligned ha ht, hostWrite, if_pos hs]
    · rw [writeAt_aligned ha ht, hostWrite, if_pos hs]
  · obtain rfl : a = 0x828 := by bv_omega
    rw [writeAt_aligned (tgt := .now) ha (by decide), hostWrite, if_pos hs]

/-- Settles O52: the busy rules, register by register. -/
theorem accessesWhileBusy : Obligations.AccessesWhileBusy := by
  intro s c v a hc ha
  have hs : s.busy = true := busy_of_some hc
  refine ⟨?reentry, fun h => writeAt_busy_discarded hs ha h v, hs ▸ statusRead s, constantsRead s, fun h => ?free⟩
  case reentry =>
    rw [writeAt_aligned (tgt := .cmd) (by decide) (by decide), hostWrite, if_pos hs]
    rfl
  case free => rw [readAt_aligned ha rfl, hostRead, if_pos ⟨hs, targetOf_unspecified a ha h⟩]

end Sys2Proof.Machine
end

section
/-! PROOFS, 20_memory.md: the limbs of the operand registers and path entries (R61, R62), the accesses that name no
register (R60, R65, R66), and how an accepted command runs and completes (R70, R71, R120, R121, R128). -/

namespace Sys2Proof.Machine

/-! ### Limbs -/

/-- A bit of a wide value with one limb replaced (R61). -/
theorem getLsbD_setLimb {n k : Nat} (hk : 64 * k + 64 ≤ n) (x : BitVec n) (v : Word64) (b : Nat) :
    (setLimb x k v).getLsbD b =
      if 64 * k ≤ b ∧ b < 64 * k + 64 then v.getLsbD (b - 64 * k) else x.getLsbD b := by
  simp only [setLimb, BitVec.getLsbD_or, BitVec.getLsbD_and, BitVec.getLsbD_not, BitVec.getLsbD_shiftLeft,
    BitVec.getLsbD_setWidth, BitVec.getLsbD_allOnes]
  by_cases hn : b < n
  · obtain hbelow | ⟨hge, hin⟩ | habove : b < 64 * k ∨ (64 * k ≤ b ∧ b - 64 * k < 64) ∨ 64 ≤ b - 64 * k := by omega
    · simp [hn, hbelow, Nat.not_le.2 hbelow]
    · simp [hn, hge, Nat.not_lt.2 hge, hin, show b - 64 * k < n by omega, show b < 64 * k + 64 by omega]
    · simp [hn, habove, Nat.not_lt.2 habove, show ¬ b < 64 * k + 64 by omega]
  · simp [hn, show ¬ b < 64 * k + 64 by omega, BitVec.getLsbD_of_ge x b (Nat.not_lt.1 hn)]

/-- The limbs of a wide value with one limb replaced: that limb is the new one, the others are as they were (R61, R62). -/
theorem limb_setLimb {n k : Nat} (hk : 64 * k + 64 ≤ n) (x : BitVec n) (v : Word64) (m : Nat) :
    limb (setLimb x k v) m = if m = k then v else limb x m := by
  apply BitVec.eq_of_getLsbD_eq
  intro b hb
  by_cases hm : m = k
  · subst hm
    rw [if_pos rfl, limb, BitVec.getLsbD_extractLsb', getLsbD_setLimb hk, if_pos (by omega), Nat.add_sub_cancel_left]
    simp [hb]
  · rw [if_neg hm, limb, limb, BitVec.getLsbD_extractLsb', BitVec.getLsbD_extractLsb', getLsbD_setLimb hk,
      if_neg (by omega)]

/-- Where the limbs of the operand registers lie (R61). -/
theorem targetOf_operand (i : Fin 16) (k : Fin 8) :
    (BitVec.ofNat 12 (64 * i.val + 8 * k.val)).toNat % 8 = 0 ∧
      targetOf (BitVec.ofNat 12 (64 * i.val + 8 * k.val)) = .operand (BitVec.ofFin i) k.val := by
  have ho : (BitVec.ofNat 12 (64 * i.val + 8 * k.val)).toNat = 64 * i.val + 8 * k.val :=
    Nat.mod_eq_of_lt (by omega)
  have hi : (64 * i.val + 8 * k.val) / 64 = i.val := by omega
  have hk : (64 * i.val + 8 * k.val) % 64 / 8 = k.val := by omega
  have hreg : BitVec.ofNat 4 i.val = BitVec.ofFin i := BitVec.eq_of_toNat_eq (Nat.mod_eq_of_lt i.isLt)
  refine ⟨by omega, ?_⟩
  rw [targetOf, ho, if_pos (by omega), hi, hk, hreg]

/-- Where the limbs of the path entries lie (R62). -/
theorem targetOf_pathEntry (j : Fin 32) (k : Fin 4) :
    (BitVec.ofNat 12 (0x400 + 32 * j.val + 8 * k.val)).toNat % 8 = 0 ∧
      targetOf (BitVec.ofNat 12 (0x400 + 32 * j.val + 8 * k.val)) = .path (BitVec.ofFin j) k.val := by
  have ho : (BitVec.ofNat 12 (0x400 + 32 * j.val + 8 * k.val)).toNat = 0x400 + 32 * j.val + 8 * k.val :=
    Nat.mod_eq_of_lt (by omega)
  have hj : (0x400 + 32 * j.val + 8 * k.val - 0x400) / 32 = j.val := by omega
  have hk : (0x400 + 32 * j.val + 8 * k.val) % 32 / 8 = k.val := by omega
  have hentry : BitVec.ofNat 5 j.val = BitVec.ofFin j := BitVec.eq_of_toNat_eq (Nat.mod_eq_of_lt j.isLt)
  refine ⟨by omega, ?_⟩
  rw [targetOf, ho, if_neg (by omega), if_pos (by omega), hj, hk, hentry]

/-- A write of an operand limb while idle (R61). -/
theorem hostWrite_operand_idle {s : State} (hs : s.engine = none) (i : Reg) (k : Nat) (v : Word64) :
    hostWrite (.operand i k) v s = s.setReg i (setLimb (s.reg i) k v) := by
  rw [hostWrite, busy_of_none hs, if_neg Bool.false_ne_true]

/-- A write of a limb of a path entry while idle (R62). -/
theorem hostWrite_path_idle {s : State} (hs : s.engine = none) (j : BitVec 5) (k : Nat) (v : Word64) :
    hostWrite (.path j k) v s = s.setPath j (setLimb (s.pathEntry j) k v) := by
  rw [hostWrite, busy_of_none hs, if_neg Bool.false_ne_true]

/-- Settles O50: each limb has its own offset, and replacing a limb leaves the others. -/
theorem limbsAreReadAndWritten : Obligations.LimbsAreReadAndWritten := by
  intro s v hs
  refine ⟨fun i k => ?operand, fun j k => ?path⟩
  case operand =>
    obtain ⟨ha, ht⟩ := targetOf_operand i k
    refine ⟨readAt_idle ha ht hs, setLimb (s.reg (BitVec.ofFin i)) k.val v, ?_, fun m => ?_⟩
    · rw [writeAt_aligned ha ht, hostWrite_operand_idle hs]
      rfl
    · simp only [Fin.ext_iff]
      exact limb_setLimb (by omega) (s.reg (BitVec.ofFin i)) v m.val
  case path =>
    obtain ⟨ha, ht⟩ := targetOf_pathEntry j k
    refine ⟨readAt_idle ha ht hs, setLimb (s.pathEntry (BitVec.ofFin j)) k.val v, ?_, fun m => ?_⟩
    · rw [writeAt_aligned ha ht, hostWrite_path_idle hs]
      rfl
    · simp only [Fin.ext_iff]
      exact limb_setLimb (by omega) (s.pathEntry (BitVec.ofFin j)) v m.val

/-! ### Completion -/

theorem exec_completes (i : Instr) (s : State) : ∃ t, exec i s = .next t := by
  cases i <;> exact ⟨_, rfl⟩

theorem NamedWrites.errCmd_eq {i : Instr} {s u : State} (h : NamedWrites i s u) : u.errCmd = s.errCmd := by
  induction h with
  | start => rfl
  | reg | flagC | flagOvf | flagLim | flagB | flagN | mark => assumption
  | flush _ _ ih | append _ _ _ _ _ ih => rw [setTree_errCmd, ih]

/-- Settles O6: a success clears ERR and CAUSE after writes that leave ERRCMD, and a fault sets ERR. -/
theorem everyCommandCompletes : Obligations.EveryCommandCompletes := by
  intro i s
  obtain ⟨t, h⟩ := exec_completes i s
  refine ⟨t, h, ?_⟩
  cases exec_completion i s t h with
  | success hw => exact ⟨rfl, fun _ => ⟨rfl, hw.errCmd_eq⟩⟩
  | fault e => exact ⟨rfl, fun herr => nomatch herr⟩

/-! ### Acceptance -/

/-- A CMD write while idle is accepted, whatever its value (R70). -/
theorem hostAccess_cmd_idle {s : State} (hs : s.engine = none) (v : Word64) :
    hostAccess (writeAt 0x800 8 v) s = s.accept v := by
  rw [writeAt_aligned (tgt := .cmd) (by decide) (by decide), hostWrite, busy_of_none hs, if_neg Bool.false_ne_true]

/-- Settles O49: the access accepts the value, and the engine's turn is the step of O48. -/
theorem acceptedCommandRuns : Obligations.AcceptedCommandRuns := by
  intro s v rest hidle hagenda
  refine ⟨{ s with agenda := rest }.accept v, ?_, rfl, rfl, fun rest' hrest => ?_⟩
  · rw [step_of_host s _ rest hagenda, hostAccess_cmd_idle (s := { s with agenda := rest }) hidle]
  · obtain ⟨hdecodes, hillegal, -⟩ := stepRunsTheDecodedCommand.1 ({ s with agenda := rest }.accept v) rest'
      _ (.inr ⟨hrest, rfl⟩)
    exact ⟨fun i => hdecodes v i rfl, fun e => hillegal v e rfl⟩

/-! ### Accesses that name no register -/

theorem accessOk_of_malformed {a : BitVec 12} {n : Nat} (h : n ≠ 8 ∨ a.toNat % 8 ≠ 0) : accessOk a n = false := by
  simpa only [accessOk, Bool.and_eq_false_iff, beq_eq_false_iff_ne] using h

/-- A malformed read returns 0 and sets BUSERR (R66). -/
theorem readAt_malformed {a : BitVec 12} {n : Nat} (h : n ≠ 8 ∨ a.toNat % 8 ≠ 0) (s : State) :
    hostAccess (readAt a n) s = { s with readData := 0, status := { s.status with buserr := true } } := by
  rw [hostAccess_readAt, readWindow, accessOk_of_malformed h, if_neg Bool.false_ne_true]

/-- A malformed write is ignored and sets BUSERR (R66). -/
theorem writeAt_malformed {a : BitVec 12} {n : Nat} (h : n ≠ 8 ∨ a.toNat % 8 ≠ 0) (v : Word64) (s : State) :
    hostAccess (writeAt a n v) s = s.flagBusError := by
  rw [hostAccess_writeAt, writeWindow, accessOk_of_malformed h, if_neg Bool.false_ne_true]

theorem targetOf_unassigned {a : BitVec 12} (h : ¬ AssignedOffset a.toNat) : targetOf a = .reserved := by
  simp (disch := omega) only [targetOf, if_neg]

theorem hostAccess_outside {address : Nat} (h : address < Config.zlcBase ∨ Config.zlcBase + 0x1000 ≤ address)
    (n : Nat) (v : Word64) (s : State) :
    hostAccess (.read address n) s = s ∧ hostAccess (.write address n v) s = s := by
  simp only [hostAccess, windowOffset_outside address h, and_self]

/-- Settles O54: malformed, unassigned and outside accesses, one after the other. -/
theorem malformedAndReservedAccesses : Obligations.MalformedAndReservedAccesses := by
  intro s v n
  refine ⟨fun a => ⟨fun hbad => ?malformed, fun ha hfree => ?unassigned⟩,
    fun address hout => hostAccess_outside hout n v s⟩
  case malformed => exact ⟨readAt_malformed hbad s, writeAt_malformed hbad v s⟩
  case unassigned =>
    have ht : targetOf a = .reserved := targetOf_unassigned hfree
    exact ⟨readAt_stable ha ht rfl s, by rw [writeAt_aligned ha ht, hostWrite_of_ignoresWrites rfl]⟩

end Sys2Proof.Machine
end

section
/-! PROOFS, 30_encoding.md: decode and encode agree (R104, R107), and what each check of the decoder rejects takes the
fault of R101 or R102 and changes nothing else. -/

namespace Sys2Proof.Machine

/-! ### The fields of a word -/

/-- An `OPC` value names an opcode exactly when it is that opcode's value (R100). -/
theorem opcodeOf_eq_some_iff {opc : BitVec 8} {op : Opcode} : opcodeOf opc = some op ↔ op.bits = opc := by
  refine ⟨fun h => ?_, fun h => h ▸ opcodeOf_bits op⟩
  unfold opcodeOf at h
  split at h
  case h_26 => cases h
  all_goals
    obtain rfl := Option.some.inj h
    exact BitVec.eq_of_toNat_eq (Eq.symm ‹_›)

/-- A word is assembled from its own fields. -/
theorem commandWord_fieldsOf {w : BitVec 32} {op : Opcode} (h : op.bits = (fieldsOf w).opc) :
    commandWord op (fieldsOf w).rd (fieldsOf w).rs1 (fieldsOf w).rs2 (fieldsOf w).rs3 (fieldsOf w).mode = w := by
  rw [commandWord, h]
  simp only [fieldsOf]
  rw [BitVec.extractLsb'_append_extractLsb'_eq_extractLsb', BitVec.extractLsb'_append_extractLsb'_eq_extractLsb',
    BitVec.extractLsb'_append_extractLsb'_eq_extractLsb', BitVec.extractLsb'_append_extractLsb'_eq_extractLsb',
    BitVec.extractLsb'_append_extractLsb'_eq_extractLsb']
  · exact BitVec.extractLsb'_eq_self
  all_goals rfl

/-- The fields of the low half of a CMD value are fields of the value. -/
theorem fieldsOf_lowHalf (v : Word64) :
    fieldsOf (v.extractLsb' 0 32) = ⟨v.extractLsb' 24 8, v.extractLsb' 20 4, v.extractLsb' 16 4, v.extractLsb' 12 4,
      v.extractLsb' 8 4, v.extractLsb' 0 8⟩ := by
  simp only [fieldsOf, Nat.reduceAdd, Nat.reduceLeDiff, BitVec.extractLsb'_extractLsb'_of_le]

/-- A CMD value with bits 63:32 zero is its low half, widened (R90). -/
theorem setWidth_lowHalf {v : Word64} (h : v.extractLsb' 32 32 = 0) : (v.extractLsb' 0 32).setWidth 64 = v := by
  calc (v.extractLsb' 0 32).setWidth 64
      = v.extractLsb' 32 32 ++ v.extractLsb' 0 32 := by
        rw [h, BitVec.setWidth_eq_append (by decide)]; rfl
    _ = v.extractLsb' 0 64 := BitVec.extractLsb'_append_extractLsb'_eq_extractLsb' rfl
    _ = v := BitVec.extractLsb'_eq_self

/-! ### What the decoder accepts -/

/-- Checks (3) to (5) of R103 on the fields of a word with opcode `op`. -/
structure LegalFields (op : Opcode) (f : Fields) : Prop where
  mode   : modeLegal op f.mode = true
  unused : unusedZero op f = true
  blocks : (assemble op f).wellFormed = true

/-- The decoder accepts exactly the words that pass the checks, as the command that their fields stand for. -/
theorem decodeWord_eq_ok_iff {w : BitVec 32} {i : Instr} :
    decodeWord w = .ok i ↔
      ∃ op, op.bits = (fieldsOf w).opc ∧ LegalFields op (fieldsOf w) ∧ assemble op (fieldsOf w) = i := by
  simp only [← opcodeOf_eq_some_iff]
  unfold decodeWord
  constructor
  · dsimp only
    intro h
    repeat' split at h
    all_goals cases h
    exact ⟨_, ‹_›, ⟨‹_›, ‹_›, ‹_›⟩, rfl⟩
  · rintro ⟨op, hop, ⟨hm, hu, hw⟩, rfl⟩
    simp only [hop, hm, hu, hw, if_true]

/-- The decoder of a CMD value is check (1) of R103 before that of its low half. -/
theorem decode_eq_ok_iff {v : Word64} {i : Instr} :
    decode v = .ok i ↔ v.extractLsb' 32 32 = 0 ∧ decodeWord (v.extractLsb' 0 32) = .ok i := by
  rw [decode]
  split
  case isTrue h => simp only [h, true_and]
  case isFalse h => simp only [h, false_and, reduceCtorEq]

/-! ### The MODE field -/

/-- The legal values of a MODE whose only named bit is MODE[0], and of MUL's WID (R94, R98). -/
theorem mode_eq_of_lt_two {m : BitVec 8} (h : m.toNat < 2) : m = 0 ∨ m = 1 := by
  simp only [← BitVec.toNat_inj]
  exact (by omega : m.toNat = 0 ∨ m.toNat = 1)

/-- A MODE whose only named bit is MODE[0] is that bit (R94). -/
theorem modeBit_getLsbD {m : BitVec 8} (h : m.toNat < 2) : modeBit (m.getLsbD 0) = m := by
  obtain rfl | rfl := mode_eq_of_lt_two h
  all_goals rfl

/-- The legal values of a MODE that is WID or TREE alone (R98, R99). -/
theorem mode_eq_of_lt_three {m : BitVec 8} (h : m.toNat < 3) : m = 0 ∨ m = 1 ∨ m = 2 := by
  simp only [← BitVec.toNat_inj]
  exact (by omega : m.toNat = 0 ∨ m.toNat = 1 ∨ m.toNat = 2)

/-- The legal values of SUB's MODE: UF over a WID that is not 3 (R94, R98). -/
theorem mode_eq_of_sub {m : BitVec 8} (h : m.toNat < 8) (hwid : m.toNat % 4 < 3) :
    m = 0 ∨ m = 1 ∨ m = 2 ∨ m = 4 ∨ m = 5 ∨ m = 6 := by
  simp only [← BitVec.toNat_inj]
  exact (by omega : m.toNat = 0 ∨ m.toNat = 1 ∨ m.toNat = 2 ∨ m.toNat = 4 ∨ m.toNat = 5 ∨ m.toNat = 6)

/-! ### Decode and encode agree -/

/-- The command that legal fields stand for is encoded with those fields (R107). -/
theorem encode_assemble {op : Opcode} {f : Fields} (hm : modeLegal op f.mode = true) (hu : unusedZero op f = true) :
    encode (assemble op f) = commandWord op f.rd f.rs1 f.rs2 f.rs3 f.mode := by
  obtain ⟨opc, rd, rs1, rs2, rs3, mode⟩ := f
  cases op
  all_goals simp only [modeLegal, unusedZero, Bool.and_eq_true, Bool.or_eq_true, beq_iff_eq, decide_eq_true_eq] at hm hu
  case nop | divf | divc | t2p | p2t | ladd | ntok | npos | nullify => simp only [assemble, encode, *]
  case muldiv | tdec | amt0 | amt1 | nxp0 | nxp1 | swapi | swapo =>
    simp only [assemble, encode, modeBit_getLsbD hm, *]
  case add | insert | known | verify | flush =>
    obtain rfl | rfl | rfl := mode_eq_of_lt_three hm
    all_goals simp [assemble, encode, hu]
  case mul =>
    obtain rfl | rfl := mode_eq_of_lt_two hm
    all_goals simp [assemble, encode, hu]
  case fgchk =>
    obtain rfl | rfl := mode_eq_of_lt_two hm
    all_goals simp_all [assemble, encode]
  case sub =>
    obtain rfl | rfl | rfl | rfl | rfl | rfl := mode_eq_of_sub hm.1 hm.2
    all_goals simp [assemble, encode, subMode, hu]

/-- The CMD value of a well-formed command decodes to it (R104). -/
theorem decode_encodeCmd (i : Instr) : Laws.RoundTrip.Statement i := by
  cases i with
  | nop => exact Laws.RoundTrip.nop
  | add128 => exact Laws.RoundTrip.add128 _ _ _
  | add256 => exact Laws.RoundTrip.add256 _ _ _
  | add512 => exact Laws.RoundTrip.add512 _ _ _
  | sub128 => exact Laws.RoundTrip.sub128 _ _ _ _
  | sub256 => exact Laws.RoundTrip.sub256 _ _ _ _
  | sub512 => exact Laws.RoundTrip.sub512 _ _ _ _
  | mul128 => exact Laws.RoundTrip.mul128 _ _ _
  | mul256 => exact Laws.RoundTrip.mul256 _ _ _
  | divf => exact Laws.RoundTrip.divf _ _ _ _
  | divc => exact Laws.RoundTrip.divc _ _ _ _
  | muldiv => exact Laws.RoundTrip.muldiv _ _ _ _ _
  | t2p => exact Laws.RoundTrip.t2p _ _
  | p2t => exact Laws.RoundTrip.p2t _ _
  | tdec => exact Laws.RoundTrip.tdec _ _ _
  | amt0 => exact Laws.RoundTrip.amt0 _ _ _ _ _
  | amt1 => exact Laws.RoundTrip.amt1 _ _ _ _ _
  | ladd => exact Laws.RoundTrip.ladd _ _ _
  | fgchk => exact Laws.RoundTrip.fgchk _
  | fgchkMono => exact Laws.RoundTrip.fgchkMono _ _
  | nxp0 => exact Laws.RoundTrip.nxp0 _ _ _ _ _
  | nxp1 => exact Laws.RoundTrip.nxp1 _ _ _ _ _
  | swapi => exact Laws.RoundTrip.swapi _ _ _
  | swapo => exact Laws.RoundTrip.swapo _ _ _
  | ntok => exact Laws.RoundTrip.ntok _ _
  | npos => exact Laws.RoundTrip.npos _ _
  | insertT0 => exact Laws.RoundTrip.insertT0 _ _
  | insertT1 => exact Laws.RoundTrip.insertT1 _ _
  | insertTP => exact Laws.RoundTrip.insertTP _ _
  | knownT0 => exact Laws.RoundTrip.knownT0 _
  | knownT1 => exact Laws.RoundTrip.knownT1 _
  | knownTP => exact Laws.RoundTrip.knownTP _
  | verifyT0 => exact Laws.RoundTrip.verifyT0 _ _ _
  | verifyT1 => exact Laws.RoundTrip.verifyT1 _ _ _
  | verifyTP => exact Laws.RoundTrip.verifyTP _ _ _
  | nullify => exact Laws.RoundTrip.nullify _
  | flushT0 => exact Laws.RoundTrip.flushT0
  | flushT1 => exact Laws.RoundTrip.flushT1
  | flushTP => exact Laws.RoundTrip.flushTP

/-- A value that decodes to a command is that command's encoding, and the command is well formed (R104, R107). -/
theorem wellFormed_and_encodeCmd_of_decode {v : Word64} {i : Instr} (h : decode v = .ok i) :
    i.wellFormed = true ∧ encodeCmd i = v := by
  obtain ⟨hhigh, hlow⟩ := decode_eq_ok_iff.1 h
  obtain ⟨op, hop, hf, rfl⟩ := decodeWord_eq_ok_iff.1 hlow
  refine ⟨hf.blocks, ?_⟩
  rw [encodeCmd, encode_assemble hf.mode hf.unused, commandWord_fieldsOf hop, setWidth_lowHalf hhigh]

/-- Settles O1: one way the decoder's checks are inverted, the other way is the round trip of each command. -/
theorem decodeAndEncodeAgree : Obligations.DecodeAndEncodeAgree := by
  intro v i
  refine ⟨wellFormed_and_encodeCmd_of_decode, ?_⟩
  rintro ⟨hw, rfl⟩
  exact decode_encodeCmd i hw

/-- Settles O2: each word is the encoding of its command. -/
theorem writtenWordsDecode : Obligations.WrittenWordsDecode := by
  refine ⟨?_, ?_, ?_, ?_, ?_, ?_, ?_, ?_, ?_, ?_, ?_, ?_⟩
  all_goals exact (decodeAndEncodeAgree _ _).2 ⟨rfl, rfl⟩

/-! ### What the decoder rejects -/

/-- Check (2) answers exactly when check (1) passes and the opcode is reserved (R103). -/
theorem decode_eq_reserved_iff {v : Word64} :
    decode v = .error .reservedOpcode ↔ v.extractLsb' 32 32 = 0 ∧ opcodeOf (v.extractLsb' 24 8) = none := by
  unfold decode decodeWord
  rw [fieldsOf_lowHalf]
  dsimp only
  repeat' split
  all_goals simp_all only [reduceCtorEq, Except.error.injEq, and_self, false_and, and_false]

/-- R101 reserves none of the values of R100. -/
theorem bits_not_reserved (op : Opcode) : ¬ ReservedOpcode op.bits.toNat := by
  cases op <;> decide

/-- No reserved `OPC` value names an opcode (R101). -/
theorem opcodeOf_of_reserved {opc : BitVec 8} (h : ReservedOpcode opc.toNat) : opcodeOf opc = none := by
  refine Option.eq_none_iff_forall_ne_some.2 fun op hop => bits_not_reserved op ?_
  rwa [opcodeOf_eq_some_iff.1 hop]

/-- Settles O3: no opcode has a reserved value, and only a reserved value reports ILLEGAL_OPCODE. -/
theorem reservedOpcodeIsIllegalOpcode : Obligations.ReservedOpcodeIsIllegalOpcode := by
  intro s v hhigh hopc
  rw [runCommand_of_error v .reservedOpcode s (decode_eq_reserved_iff.2 ⟨hhigh, opcodeOf_of_reserved hopc⟩), if_pos rfl]

/-- A value that the decoder rejects for anything but its opcode takes ILLEGAL_FIELD (R102). -/
theorem runCommand_illegalField {v : Word64} {s : State} (hok : ∀ i, decode v ≠ .ok i)
    (hres : decode v ≠ .error .reservedOpcode) : runCommand v s = .next (faulted s .ILLEGAL_FIELD 0xFF) := by
  cases hd : decode v with
  | ok i => exact absurd hd (hok i)
  | error e => rw [runCommand_of_error v e s hd, if_neg (by rintro rfl; exact hres hd)]

/-- A value with bits 63:32 nonzero takes ILLEGAL_FIELD, whatever its opcode (R90). -/
theorem runCommand_of_highBits {v : Word64} (s : State) (h : v.extractLsb' 32 32 ≠ 0) :
    runCommand v s = .next (faulted s .ILLEGAL_FIELD 0xFF) :=
  runCommand_illegalField (fun _ hd => h (decode_eq_ok_iff.1 hd).1) (fun hd => h (decode_eq_reserved_iff.1 hd).1)

/-- A value with an opcode of R100 whose fields fail a check takes ILLEGAL_FIELD. -/
theorem runCommand_of_not_legalFields {v : Word64} (op : Opcode) (s : State) (hop : v.extractLsb' 24 8 = op.bits)
    (h : ¬ LegalFields op ⟨v.extractLsb' 24 8, v.extractLsb' 20 4, v.extractLsb' 16 4, v.extractLsb' 12 4,
      v.extractLsb' 8 4, v.extractLsb' 0 8⟩) :
    runCommand v s = .next (faulted s .ILLEGAL_FIELD 0xFF) := by
  have hopc : opcodeOf (v.extractLsb' 24 8) = some op := opcodeOf_eq_some_iff.2 hop.symm
  refine runCommand_illegalField (fun i hd => ?accepted) fun hd => ?reserved
  case accepted =>
    obtain ⟨op', hop', hf, -⟩ := decodeWord_eq_ok_iff.1 (decode_eq_ok_iff.1 hd).2
    rw [fieldsOf_lowHalf] at hop' hf
    obtain rfl : op' = op := Option.some.inj ((opcodeOf_eq_some_iff.2 hop').symm.trans hopc)
    exact h hf
  case reserved => exact Option.some_ne_none op (hopc.symm.trans (decode_eq_reserved_iff.1 hd).2)

/-! ### Legal fields, in the words of the statements -/

/-- The rows of R100 are those of its opcodes. -/
theorem rowShape_opcode {opc : BitVec 8} {r : RowShape} (h : rowShape opc = some r) : ∃ op : Opcode, op.bits = opc := by
  simp only [← opcodeOf_eq_some_iff]
  unfold rowShape at h
  split at h
  case h_26 => cases h
  all_goals
    rename_i hopc
    rw [opcodeOf, hopc]
    exact ⟨_, rfl⟩

/-- A legal MODE has no bit outside the named ones (R94). -/
theorem mode_unnamed_zero {op : Opcode} {m : BitVec 8} {r : RowShape} (hr : rowShape op.bits = some r)
    (hm : modeLegal op m = true) : m &&& ~~~ r.named = 0 := by
  cases op
  all_goals
    cases hr
    simp only [modeLegal, Bool.and_eq_true, beq_iff_eq, decide_eq_true_eq] at hm
  case nop | divf | divc | t2p | p2t | ladd | ntok | npos | nullify =>
    rw [hm]; rfl
  case muldiv | tdec | amt0 | amt1 | fgchk | nxp0 | nxp1 | swapi | swapo | mul =>
    obtain rfl | rfl := mode_eq_of_lt_two hm
    all_goals rfl
  case add | insert | known | verify | flush =>
    obtain rfl | rfl | rfl := mode_eq_of_lt_three hm
    all_goals rfl
  case sub =>
    obtain rfl | rfl | rfl | rfl | rfl | rfl := mode_eq_of_sub hm.1 hm.2
    all_goals rfl

/-- The register fields that R100 marks unused are 0 in a legal word (R95). -/
theorem unused_fields_zero {op : Opcode} {f : Fields} {r : RowShape} (hr : rowShape op.bits = some r)
    (hu : unusedZero op f = true) :
    (r.rd = false → f.rd = 0) ∧ (r.rs1 = false → f.rs1 = 0) ∧ (r.rs2 = false → f.rs2 = 0) ∧
      (r.rs3 = false → f.rs3 = 0) := by
  cases op
  all_goals
    cases hr
    simp_all [unusedZero]

/-! ### Illegal fields, clause by clause -/

section
variable {op : Opcode} {f : Fields}

/-- With MONO = 0, FGCHK leaves RS2 unused (R95). -/
theorem not_legalFields_fgchk (hmono : f.mode = 0) (hrs2 : f.rs2 ≠ 0) : ¬ LegalFields .fgchk f := fun h => by
  have hu := h.unused
  simp only [unusedZero, hmono, Bool.and_eq_true, Bool.or_eq_true, beq_iff_eq] at hu
  exact hu.2.elim (by decide) hrs2

/-- No legal WID and no legal TREE is 3 (R98, R99). -/
theorem not_legalFields_of_mode (hop : op ∈ [Opcode.add, .sub, .mul, .insert, .known, .verify, .flush])
    (hmode : f.mode.toNat % 4 = 3) : ¬ LegalFields op f := fun h => by
  have hm := h.mode
  fin_cases hop
  all_goals
    simp only [modeLegal, Bool.and_eq_true, decide_eq_true_eq] at hm
    omega

/-- The WID of a legal MUL is 0 or 1 (R98). -/
theorem not_legalFields_mul (hmode : f.mode.toNat % 4 = 2) : ¬ LegalFields .mul f := fun h => by
  have hm : f.mode.toNat < 2 := of_decide_eq_true h.mode
  omega

/-- The blocks of a legal SWAPI or SWAPO lie within W0..W15 (R93). -/
theorem not_legalFields_swap (hop : op = .swapi ∨ op = .swapo) (hout : 15 < f.rs1.toNat + 4 ∨ 15 < f.rd.toNat + 3) :
    ¬ LegalFields op f := fun h => by
  have hfit : f.rs1.toNat + 5 ≤ 16 ∧ f.rd.toNat + 4 ≤ 16 := by
    have hb := h.blocks
    obtain rfl | rfl := hop
    all_goals simpa only [assemble, Instr.wellFormed, Bool.and_eq_true, blockFits, decide_eq_true_eq] using hb
  omega

/-- The blocks of a legal NTOK lie within W0..W15 (R93). -/
theorem not_legalFields_ntok (hout : 15 < f.rs1.toNat + 3 ∨ 15 < f.rd.toNat + 1) : ¬ LegalFields .ntok f := fun h => by
  have hfit : f.rs1.toNat + 4 ≤ 16 ∧ f.rd.toNat + 2 ≤ 16 := by
    simpa only [assemble, Instr.wellFormed, Bool.and_eq_true, blockFits, decide_eq_true_eq] using h.blocks
  omega

/-- The blocks of a legal NPOS lie within W0..W15 (R93). -/
theorem not_legalFields_npos (hout : 15 < f.rs1.toNat + 6 ∨ 15 < f.rd.toNat + 1) : ¬ LegalFields .npos f := fun h => by
  have hfit : f.rs1.toNat + 7 ≤ 16 ∧ f.rd.toNat + 2 ≤ 16 := by
    simpa only [assemble, Instr.wellFormed, Bool.and_eq_true, blockFits, decide_eq_true_eq] using h.blocks
  omega

/-- A MODE with an unnamed bit, or a nonzero unused register field, is not legal (R94, R95). -/
theorem not_legalFields_of_rowShape {r : RowShape} (hr : rowShape op.bits = some r)
    (hbad : f.mode &&& ~~~ r.named ≠ 0 ∨ (r.rd = false ∧ f.rd ≠ 0) ∨ (r.rs1 = false ∧ f.rs1 ≠ 0) ∨
      (r.rs2 = false ∧ f.rs2 ≠ 0) ∨ (r.rs3 = false ∧ f.rs3 ≠ 0)) : ¬ LegalFields op f := fun h => by
  obtain ⟨hrd, hrs1, hrs2, hrs3⟩ := unused_fields_zero hr h.unused
  obtain hmode | ⟨hf, hne⟩ | ⟨hf, hne⟩ | ⟨hf, hne⟩ | ⟨hf, hne⟩ := hbad
  · exact hmode (mode_unnamed_zero hr h.mode)
  · exact hne (hrd hf)
  · exact hne (hrs1 hf)
  · exact hne (hrs2 hf)
  · exact hne (hrs3 hf)

end

/-- WID and TREE are MODE[1:0] (R94). -/
theorem mode_mod_four {v : Word64} {n : BitVec 2} (h : v.extractLsb' 0 2 = n) :
    (v.extractLsb' 0 8).toNat % 4 = n.toNat := by
  rw [← h, BitVec.extractLsb'_toNat, BitVec.extractLsb'_toNat]
  omega

/-- A WID or TREE of 3 takes ILLEGAL_FIELD (R98, R99). -/
theorem runCommand_of_three {v : Word64} (op : Opcode) (s : State) (hop : v.extractLsb' 24 8 = op.bits)
    (hnamed : op ∈ [Opcode.add, .sub, .mul, .insert, .known, .verify, .flush]) (h : v.extractLsb' 0 2 = 3) :
    runCommand v s = .next (faulted s .ILLEGAL_FIELD 0xFF) :=
  runCommand_of_not_legalFields op s hop (not_legalFields_of_mode hnamed (mode_mod_four h))

/-- Settles O4: each clause is a way in which the fields are not legal. -/
theorem illegalFieldsAreRejected : Obligations.IllegalFieldsAreRejected := by
  refine fun s v => ⟨runCommand_of_highBits s, fun _ => ?_⟩
  refine ⟨fun r hr hbad => ?row, fun hopc hmono hrs2 => ?fgchk, fun hopc hthree => ?wid, fun hopc htwo => ?mul,
    fun hopc hthree => ?tree, fun hopc hout => ?swap, fun hopc hout => ?ntok, fun hopc hout => ?npos⟩
  case row =>
    obtain ⟨op, hop⟩ := rowShape_opcode hr
    rw [← hop] at hr
    exact runCommand_of_not_legalFields op s hop.symm (not_legalFields_of_rowShape hr hbad)
  case fgchk => exact runCommand_of_not_legalFields .fgchk s hopc (not_legalFields_fgchk hmono hrs2)
  case wid =>
    obtain hopc | hopc | hopc := hopc
    · exact runCommand_of_three .add s hopc (by decide) hthree
    · exact runCommand_of_three .sub s hopc (by decide) hthree
    · exact runCommand_of_three .mul s hopc (by decide) hthree
  case mul => exact runCommand_of_not_legalFields .mul s hopc (not_legalFields_mul (mode_mod_four htwo))
  case tree =>
    obtain hopc | hopc | hopc | hopc := hopc
    · exact runCommand_of_three .insert s hopc (by decide) hthree
    · exact runCommand_of_three .known s hopc (by decide) hthree
    · exact runCommand_of_three .verify s hopc (by decide) hthree
    · exact runCommand_of_three .flush s hopc (by decide) hthree
  case swap =>
    obtain hopc | hopc := hopc
    · exact runCommand_of_not_legalFields .swapi s hopc (not_legalFields_swap (.inl rfl) hout)
    · exact runCommand_of_not_legalFields .swapo s hopc (not_legalFields_swap (.inr rfl) hout)
  case ntok => exact runCommand_of_not_legalFields .ntok s hopc (not_legalFields_ntok hout)
  case npos => exact runCommand_of_not_legalFields .npos s hopc (not_legalFields_npos hout)

end Sys2Proof.Machine
end

section
/-! PROOFS, 40_control.md: the operand types (R123, R124), the order of the operand checks (R125), what a fault leaves
unchanged (R127), what the outcome of a command depends on (R122), and NOP (R130). -/

namespace Sys2Proof.Machine

/-! ### The pseudocode of a command -/

/-- The pseudocode of the rule of each command, before its completion (R120 (2)). -/
def pseudocode (i : Instr) (s : State) : Cmd State :=
  match i with
  | .nop => .ok s
  | .add128 rd rs1 rs2 => addCmd 128 rd rs1 rs2 s
  | .add256 rd rs1 rs2 => addCmd 256 rd rs1 rs2 s
  | .add512 rd rs1 rs2 => addCmd 512 rd rs1 rs2 s
  | .sub128 rd rs1 rs2 uf => subCmd 128 rd rs1 rs2 uf s
  | .sub256 rd rs1 rs2 uf => subCmd 256 rd rs1 rs2 uf s
  | .sub512 rd rs1 rs2 uf => subCmd 512 rd rs1 rs2 uf s
  | .mul128 rd rs1 rs2 => mulCmd 128 rd rs1 rs2 s
  | .mul256 rd rs1 rs2 => mulCmd 256 rd rs1 rs2 s
  | .divf rd rs1 rs2 rs3 => divfCmd rd rs1 rs2 rs3 s
  | .divc rd rs1 rs2 rs3 => divcCmd rd rs1 rs2 rs3 s
  | .muldiv rd rs1 rs2 rs3 rup => muldivCmd rd rs1 rs2 rs3 rup s
  | .t2p rd rs1 => t2pCmd rd rs1 s
  | .p2t rd rs1 => p2tCmd rd rs1 s
  | .tdec rd rs1 cur => tdecCmd rd rs1 cur s
  | .amt0 rd rs1 rs2 rs3 rup => amt0Cmd rd rs1 rs2 rs3 rup s
  | .amt1 rd rs1 rs2 rs3 rup => amt1Cmd rd rs1 rs2 rs3 rup s
  | .ladd rd rs1 rs2 => laddCmd rd rs1 rs2 s
  | .fgchk rs1 => fgchkCmd rs1 s
  | .fgchkMono rs1 rs2 => fgchkMonoCmd rs1 rs2 s
  | .nxp0 rd rs1 rs2 rs3 addf => nxpCmd next0 rd rs1 rs2 rs3 addf s
  | .nxp1 rd rs1 rs2 rs3 addf => nxpCmd next1 rd rs1 rs2 rs3 addf s
  | .swapi rd rs1 up => swapCmd swapInStep rd rs1 up s
  | .swapo rd rs1 up => swapCmd swapOutStep rd rs1 up s
  | .ntok rd rs1 => ntokCmd rd rs1 s
  | .npos rd rs1 => nposCmd rd rs1 s
  | .insertT0 rd rs1 => insertCmd .t0 rd rs1 s
  | .insertT1 rd rs1 => insertCmd .t1 rd rs1 s
  | .insertTP rd rs1 => insertCmd .tp rd rs1 s
  | .knownT0 rs1 => knownCmd .t0 rs1 s
  | .knownT1 rs1 => knownCmd .t1 rs1 s
  | .knownTP rs1 => knownCmd .tp rs1 s
  | .verifyT0 rs1 rs2 rs3 => verifyCmd .t0 rs1 rs2 rs3 s
  | .verifyT1 rs1 rs2 rs3 => verifyCmd .t1 rs1 rs2 rs3 s
  | .verifyTP rs1 rs2 rs3 => verifyCmd .tp rs1 rs2 rs3 s
  | .nullify rs1 => nullifyCmd rs1 s
  | .flushT0 => flushCmd .t0 s
  | .flushT1 => flushCmd .t1 s
  | .flushTP => flushCmd .tp s

/-- Every command runs its pseudocode and completes (R120). -/
theorem exec_eq_finish (i : Instr) (s : State) : exec i s = finish s (pseudocode i s) := by
  cases i <;> rfl

/-! ### NOP -/

/-- Settles O17: NOP's pseudocode is empty. -/
theorem nopOnlyCompletes : Obligations.NopOnlyCompletes := fun s => finish_ok s s

/-! ### What a fault leaves unchanged -/

theorem inFlightWord_of_engine {s : State} {v : Word64} (h : s.engine = some v) :
    s.inFlightWord = v.extractLsb' 0 32 := by
  rw [State.inFlightWord, h]

/-- Settles O7: a completion with ERR 1 is no success, so it is the taking of a fault. -/
theorem faultedCommandWritesNothingElse : Obligations.FaultedCommandWritesNothingElse := by
  intro i s t v hv h herr
  cases exec_completion i s t h with
  | success hw => simp at herr
  | fault e => exact ⟨e, by rw [State.takeFault, inFlightWord_of_engine hv]⟩

/-! ### The unsigned and field operand types -/

theorem opndU_eq (n : Nat) (i : Reg) (s : State) :
    opndU n i s = if s.val i < 2 ^ n then .ok (s.val i) else .error ⟨.RANGE_WIDTH, infoReg i⟩ := rfl

/-- A 256-bit operand with a further check: the width first, then the check (R123). -/
theorem opndChecked_eq (ok : Nat → Bool) (c : FaultCode) (i : Reg) (s : State) :
    opndChecked ok c i s = if 2 ^ 256 ≤ s.val i then .error ⟨.RANGE_WIDTH, infoReg i⟩
      else if ok (s.val i) = true then .ok (s.val i) else .error ⟨c, infoReg i⟩ := by
  rw [opndChecked, opndU_eq]
  by_cases h : s.val i < 2 ^ 256
  · rw [if_pos h, if_neg (Nat.not_le.2 h)]
    rfl
  · rw [if_neg h, if_pos (Nat.not_lt.1 h)]

/-- Settles O15, type by type: each is a width check, and all but the first three have one further check. -/
theorem unsignedOperandTypes : Obligations.UnsignedOperandTypes := by
  intro s i
  refine ⟨opndU_eq 128 i s, opndU_eq 256 i s, opndU_512 i s, ?felt, ?price, ?fg, ?tokid, ?index⟩
  case felt => simp only [opndFelt, opndChecked_eq, decide_eq_true_eq]
  case price => simp only [opndPrice, opndChecked_eq, priceInRange, Bool.and_eq_true, decide_eq_true_eq]
  case fg => simp only [opndFg, opndChecked_eq, decide_eq_true_eq]
  case tokid =>
    have hbit : s.val i < 2 ↔ s.val i = 0 ∨ s.val i = 1 := by omega
    simp only [opndTokid, opndChecked_eq, decide_eq_true_eq, hbit]
  case index => simp only [opndIndex, opndChecked_eq, decide_eq_true_eq]

/-! ### The signed slot types -/

/-- A 256-bit value that is the sign extension of its low half is the slot of the value that half encodes (R124). -/
theorem encTick_intOfBits_128 (v : Nat) (hv : v < 2 ^ 256) (hx : signExtended128 v = true) :
    encTick (intOfBits 128 v) = v := by
  rw [signExtended128, beq_iff_eq] at hx
  unfold encTick intOfBits
  split at hx <;> split <;> omega

/-- A 256-bit value is the slot of its two's-complement reading (R12, R124). -/
theorem encTick_intOfBits_256 (v : Nat) (hv : v < 2 ^ 256) : encTick (intOfBits 256 v) = v := by
  unfold encTick intOfBits
  split <;> omega

/-- The slot of a 256-bit signed value reads back as that value (R12, R124). -/
theorem intOfBits_256_encTick (d : Int) (h1 : -(2 ^ 255 : Int) ≤ d) (h2 : d < 2 ^ 255) :
    intOfBits 256 (encTick d) = d := by
  unfold intOfBits encTick
  split <;> omega

theorem opndU_of_wide {n : Nat} {i : Reg} {s : State} (h : 2 ^ n ≤ s.val i) :
    opndU n i s = .error ⟨.RANGE_WIDTH, infoReg i⟩ := by
  rw [opndU_eq, if_neg (Nat.not_lt.2 h)]

theorem opndTick_of_wide {neg : Nat} {i : Reg} {s : State} (h : 2 ^ 256 ≤ s.val i) :
    opndTick neg i s = .error ⟨.RANGE_WIDTH, infoReg i⟩ := by
  rw [opndTick, opndU_of_wide h]

theorem opndDelta_of_wide {i : Reg} {s : State} (h : 2 ^ 256 ≤ s.val i) :
    opndDelta i s = .error ⟨.RANGE_WIDTH, infoReg i⟩ := by
  rw [opndDelta, opndU_of_wide h]

/-- A value that is the slot of no tick in range raises RANGE_TICK: were it sign-extended and in range, it would be the
slot of the tick it reads as (R124). -/
theorem opndTick_of_no_slot {neg : Nat} {i : Reg} {s : State} (hv : s.val i < 2 ^ 256)
    (hno : ∀ t : Int, -(neg : Int) ≤ t → t ≤ maxTick → s.val i ≠ slotOf t) :
    opndTick neg i s = .error ⟨.RANGE_TICK, infoReg i⟩ := by
  cases h : opndTick neg i s with
  | ok t =>
    obtain ⟨-, hx, rfl, hlow, hhigh⟩ := opndTick_ok neg i s t h
    exact absurd (encTick_intOfBits_128 _ hv hx).symm (hno _ hlow hhigh)
  | error e =>
    rw [opndTick, opndU_of_lt 256 i s hv] at h
    dsimp only at h
    split_ifs at h <;> exact h.symm

/-- The slot of a delta decodes to that delta (R124). -/
theorem opndDelta_of_slot {i : Reg} {s : State} {d : Int} (h1 : -(2 ^ 128 : Int) < d) (h2 : d < 2 ^ 128)
    (hr : s.val i = slotOf d) : opndDelta i s = .ok d := by
  have hreg : (s.reg i).toNat = encTick d := hr
  have hread : intOfBits 256 (encTick d) = d := intOfBits_256_encTick d (by omega) (by omega)
  have hin : ¬ (d ≤ -(2 ^ 128 : Int) ∨ d ≥ 2 ^ 128) := by omega
  rw [opndDelta, opndU_of_lt 256 i s (hreg ▸ encTick_lt d)]
  simp only [hreg, hread, if_neg hin]

/-- A value that is the slot of no delta in range raises RANGE_DELTA (R124). -/
theorem opndDelta_of_no_slot {i : Reg} {s : State} (hv : s.val i < 2 ^ 256)
    (hno : ∀ d : Int, -(2 ^ 128 : Int) < d → d < 2 ^ 128 → s.val i ≠ slotOf d) :
    opndDelta i s = .error ⟨.RANGE_DELTA, infoReg i⟩ := by
  cases h : opndDelta i s with
  | ok d =>
    obtain ⟨-, rfl, hlow, hhigh⟩ := opndDelta_ok i s d h
    exact absurd (encTick_intOfBits_256 _ hv).symm (hno _ hlow hhigh)
  | error e =>
    rw [opndDelta, opndU_of_lt 256 i s hv] at h
    dsimp only at h
    split_ifs at h
    exact h.symm

/-- Settles O16: a value below `2^256` is the slot of what it reads as, so the range checks pass exactly on slots. -/
theorem signedSlotsDecode : Obligations.SignedSlotsDecode := by
  refine fun s i => ⟨fun neg hneg => ⟨fun t h1 h2 hr => ?_, opndTick_of_wide, opndTick_of_no_slot⟩,
    fun d => opndDelta_of_slot, opndDelta_of_wide, opndDelta_of_no_slot⟩
  exact opndTick_of_slot neg i s t h1 h2 (by omega) (hr.trans (slotOf_eq_encTick t))

/-! ### The order of the operand checks -/

/-- A computation that raises the first fault of the checks, when one of them fails (R125). -/
def TakesFirst {α : Type} (checks : List (Option Trap)) (x : Cmd α) : Prop :=
  ∀ e, firstFault checks = some e → x = .error e

theorem TakesFirst.nil {α : Type} {x : Cmd α} : TakesFirst [] x := nofun

/-- One operand check, then the rest of the pseudocode. -/
theorem TakesFirst.cons {α β : Type} {checks : List (Option Trap)} {x : Cmd α} {f : α → Cmd β}
    (h : ∀ a, TakesFirst checks (f a)) : TakesFirst (faultOf x :: checks) (x >>= f) := by
  intro e he
  cases x with
  | ok a => exact h a e he
  | error e' => exact congrArg Except.error (Option.some.inj he)

/-- Checks that stand in a first part of the pseudocode. -/
theorem TakesFirst.bind {α β : Type} {checks : List (Option Trap)} {x : Cmd α} {f : α → Cmd β}
    (h : TakesFirst checks x) : TakesFirst checks (x >>= f) := by
  intro e he
  rw [h e he, cmd_bind_error]

section
variable (s : State) (rd rs1 rs2 rs3 : Reg)

theorem addCmd_takesFirst (n : Nat) :
    TakesFirst [faultOf (opndU n rs1 s), faultOf (opndU n rs2 s)] (addCmd n rd rs1 rs2 s) :=
  .cons fun _ => .cons fun _ => .nil

theorem subCmd_takesFirst (n : Nat) (uf : Bool) :
    TakesFirst [faultOf (opndU n rs1 s), faultOf (opndU n rs2 s)] (subCmd n rd rs1 rs2 uf s) :=
  .cons fun _ => .cons fun _ => .nil

theorem mulCmd_takesFirst (n : Nat) :
    TakesFirst [faultOf (opndU n rs1 s), faultOf (opndU n rs2 s)] (mulCmd n rd rs1 rs2 s) :=
  .cons fun _ => .cons fun _ => .nil

theorem nxpCmd_takesFirst (next : Nat → Nat → Nat → Bool → Nat × Bool) (addf : Bool) :
    TakesFirst [faultOf (opndPrice rs1 s), faultOf (opndU 128 rs2 s), faultOf (opndU 128 rs3 s)]
      (nxpCmd next rd rs1 rs2 rs3 addf s) :=
  .cons fun _ => .cons fun _ => .cons fun _ => .nil

theorem swapOperands_takesFirst (b : Reg) :
    TakesFirst [faultOf (opndPrice b s), faultOf (opndPrice (b + 1) s), faultOf (opndU 128 (b + 2) s),
      faultOf (opndU 128 (b + 3) s), faultOf (opndU 128 (b + 4) s)] (swapOperands b s) :=
  .cons fun _ => .cons fun _ => .cons fun _ => .cons fun _ => .cons fun _ => .nil

theorem insertCmd_takesFirst (t : TreeId) :
    TakesFirst [faultOf (opndFelt rs1 s), faultOf (pathCheck s)] (insertCmd t rd rs1 s) :=
  .cons fun _ => .cons fun _ => .nil

theorem knownCmd_takesFirst (t : TreeId) : TakesFirst [faultOf (opndFelt rs1 s)] (knownCmd t rs1 s) :=
  .cons fun _ => .nil

theorem verifyCmd_takesFirst (t : TreeId) :
    TakesFirst [faultOf (opndFelt rs1 s), faultOf (opndIndex rs2 s), faultOf (opndIndex rs3 s), faultOf (pathCheck s)]
      (verifyCmd t rs1 rs2 rs3 s) :=
  .cons fun _ => .cons fun _ => .cons fun _ => .cons fun _ => .nil

end

/-- Every command makes its operand checks in the order its rule lists them, before anything else (R125). -/
theorem pseudocode_takesFirst (i : Instr) (s : State) : TakesFirst (operandFaults i s) (pseudocode i s) := by
  cases i with
  | nop | flushT0 | flushT1 | flushTP => exact .nil
  | add128 rd a b | add256 rd a b | add512 rd a b => exact addCmd_takesFirst s rd a b _
  | sub128 rd a b uf | sub256 rd a b uf | sub512 rd a b uf => exact subCmd_takesFirst s rd a b _ uf
  | mul128 rd a b | mul256 rd a b => exact mulCmd_takesFirst s rd a b _
  | divf | divc | muldiv | amt0 | amt1 => exact .cons fun _ => .cons fun _ => .cons fun _ => .nil
  | t2p | p2t | tdec | fgchk | nullify => exact .cons fun _ => .nil
  | ladd | fgchkMono => exact .cons fun _ => .cons fun _ => .nil
  | nxp0 rd p l a addf => exact nxpCmd_takesFirst s rd p l a next0 addf
  | nxp1 rd p l a addf => exact nxpCmd_takesFirst s rd p l a next1 addf
  | swapi rd b up | swapo rd b up => exact (swapOperands_takesFirst s b).bind
  | ntok => exact .cons fun _ => .cons fun _ => .cons fun _ => .cons fun _ => .nil
  | npos =>
    exact .cons fun _ => .cons fun _ => .cons fun _ => .cons fun _ => .cons fun _ => .cons fun _ => .cons fun _ => .nil
  | insertT0 rd c | insertT1 rd c | insertTP rd c => exact insertCmd_takesFirst s rd c _
  | knownT0 r | knownT1 r | knownTP r => exact knownCmd_takesFirst s r _
  | verifyT0 c x d | verifyT1 c x d | verifyTP c x d => exact verifyCmd_takesFirst s c x d _

/-- Settles O8: the pseudocode of every command begins with its operand checks. -/
theorem firstOperandFaultIsTaken : Obligations.FirstOperandFaultIsTaken := by
  intro i s e he
  rw [exec_eq_finish, pseudocode_takesFirst i s e he]
  exact finish_error s e

/-! ### An operand is a function of its register, the path entries of the path that is read -/

section
variable {s u : State} {i : Reg}

theorem opndU_congr (n : Nat) (h : s.reg i = u.reg i) : opndU n i s = opndU n i u := by rw [opndU, opndU, h]

theorem opndChecked_congr (ok : Nat → Bool) (c : FaultCode) (h : s.reg i = u.reg i) :
    opndChecked ok c i s = opndChecked ok c i u := by
  rw [opndChecked, opndChecked, opndU_congr 256 h]

theorem opndFelt_congr (h : s.reg i = u.reg i) : opndFelt i s = opndFelt i u := opndChecked_congr _ _ h

theorem opndPrice_congr (h : s.reg i = u.reg i) : opndPrice i s = opndPrice i u := opndChecked_congr _ _ h

theorem opndFg_congr (h : s.reg i = u.reg i) : opndFg i s = opndFg i u := opndChecked_congr _ _ h

theorem opndTokid_congr (h : s.reg i = u.reg i) : opndTokid i s = opndTokid i u := opndChecked_congr _ _ h

theorem opndIndex_congr (h : s.reg i = u.reg i) : opndIndex i s = opndIndex i u := opndChecked_congr _ _ h

theorem opndTick_congr (neg : Nat) (h : s.reg i = u.reg i) : opndTick neg i s = opndTick neg i u := by
  rw [opndTick, opndTick, opndU_congr 256 h]

theorem opndDelta_congr (h : s.reg i = u.reg i) : opndDelta i s = opndDelta i u := by
  rw [opndDelta, opndDelta, opndU_congr 256 h]

theorem swapOperands_congr {b : Reg} (h : ∀ r ∈ [b, b + 1, b + 2, b + 3, b + 4], s.reg r = u.reg r) :
    swapOperands b s = swapOperands b u := by
  rw [swapOperands, swapOperands, opndPrice_congr (h b (by simp)), opndPrice_congr (h (b + 1) (by simp)),
    opndU_congr 128 (h (b + 2) (by simp)), opndU_congr 128 (h (b + 3) (by simp)),
    opndU_congr 128 (h (b + 4) (by simp))]

end

/-- The path entries a command uses are the siblings of the levels of the tree (R25, R292). -/
theorem pathEntries_eq_map_sibling (s : State) : pathEntries s = (List.range Config.treeHeight).map s.sibling := by
  refine List.ext_getElem (by simp [pathEntries_length]) fun j hj _ => ?_
  rw [List.getElem_map, List.getElem_range, ← pathEntries_getD s j (pathEntries_length s ▸ hj)]
  simp [hj]

theorem pathEntries_congr {s u : State} (h : ∀ j < Config.treeHeight, s.sibling j = u.sibling j) :
    pathEntries s = pathEntries u := by
  rw [pathEntries_eq_map_sibling, pathEntries_eq_map_sibling]
  exact List.map_congr_left fun j hj => h j (List.mem_range.1 hj)

theorem pathCheck_congr {s u : State} (h : pathEntries s = pathEntries u) : pathCheck s = pathCheck u := by
  rw [pathCheck, pathCheck, h]

/-! ### Agreement of two states, write by write -/

/-- The flags that are marked in `m` are the same in `f` and `g`. -/
def FlagsAgree (m f g : Flags) : Prop :=
  (m.c = true → f.c = g.c) ∧ (m.ovf = true → f.ovf = g.ovf) ∧ (m.lim = true → f.lim = g.lim) ∧
    (m.b = true → f.b = g.b) ∧ (m.n = true → f.n = g.n)

/-- No flag is marked. -/
def noFlags : Flags := ⟨false, false, false, false, false⟩

/-- The flags that a command writes are marked (R27 to R31). -/
def writtenFlags (i : Instr) : Flags := ⟨writesC i, writesOvf i, writesLim i, writesB i, writesN i⟩

/-- Two states agree on the ledger, on the registers `regs` and on the flags that `m` marks. -/
structure AgreeOn (regs : List Reg) (m : Flags) (s u : State) : Prop where
  ledger : SameLedger s u
  reg : ∀ r ∈ regs, s.reg r = u.reg r
  flags : FlagsAgree m s.flags u.flags

section
variable {regs : List Reg} {m : Flags} {s u : State}

theorem AgreeOn.start (h : SameLedger s u) : AgreeOn [] noFlags s u := ⟨h, nofun, nofun, nofun, nofun, nofun, nofun⟩

theorem AgreeOn.mono {regs' : List Reg} (h : AgreeOn regs m s u) (hsub : regs' ⊆ regs) : AgreeOn regs' m s u :=
  ⟨h.ledger, fun r hr => h.reg r (hsub hr), h.flags⟩

/-- The same value written to the same register makes two states agree on it too. -/
theorem AgreeOn.setRegNat (h : AgreeOn regs m s u) (rd : Reg) (v : Nat) :
    AgreeOn (rd :: regs) m (s.setRegNat rd v) (u.setRegNat rd v) := by
  refine ⟨h.ledger, fun r hr => ?_, h.flags⟩
  by_cases hrd : r = rd
  · rw [hrd, setRegNat_reg_same, setRegNat_reg_same]
  · rw [setRegNat_reg_other _ _ _ _ hrd, setRegNat_reg_other _ _ _ _ hrd]
    exact h.reg r ((List.mem_cons.1 hr).resolve_left hrd)

theorem AgreeOn.setC (h : AgreeOn regs m s u) (v : Bool) : AgreeOn regs { m with c := true } (s.setC v) (u.setC v) :=
  let ⟨_, ovf, lim, b, n⟩ := h.flags
  ⟨h.ledger, h.reg, fun _ => rfl, ovf, lim, b, n⟩

theorem AgreeOn.setOvf (h : AgreeOn regs m s u) (v : Bool) :
    AgreeOn regs { m with ovf := true } (s.setOvf v) (u.setOvf v) :=
  let ⟨c, _, lim, b, n⟩ := h.flags
  ⟨h.ledger, h.reg, c, fun _ => rfl, lim, b, n⟩

theorem AgreeOn.setLim (h : AgreeOn regs m s u) (v : Bool) :
    AgreeOn regs { m with lim := true } (s.setLim v) (u.setLim v) :=
  let ⟨c, ovf, _, b, n⟩ := h.flags
  ⟨h.ledger, h.reg, c, ovf, fun _ => rfl, b, n⟩

theorem AgreeOn.setB (h : AgreeOn regs m s u) (v : Bool) : AgreeOn regs { m with b := true } (s.setB v) (u.setB v) :=
  let ⟨c, ovf, lim, _, n⟩ := h.flags
  ⟨h.ledger, h.reg, c, ovf, lim, fun _ => rfl, n⟩

theorem AgreeOn.setN (h : AgreeOn regs m s u) (v : Bool) : AgreeOn regs { m with n := true } (s.setN v) (u.setN v) :=
  let ⟨c, ovf, lim, b, _⟩ := h.flags
  ⟨h.ledger, h.reg, c, ovf, lim, b, fun _ => rfl⟩

theorem AgreeOn.setTree (h : AgreeOn regs m s u) (t : TreeId) (x : Tree) :
    AgreeOn regs m (s.setTree t x) (u.setTree t x) := by
  obtain ⟨htrees, hnullifiers⟩ := h.ledger
  refine ⟨⟨fun k => ?_, by simpa using hnullifiers⟩, by simpa using h.reg, by simpa using h.flags⟩
  by_cases hk : k = t
  · rw [hk, setTree_tree_same, setTree_tree_same]
  · rw [setTree_tree_other _ _ _ _ hk, setTree_tree_other _ _ _ _ hk, htrees k]

/-- The mark of a NULLIFY (R320). -/
theorem AgreeOn.mark (h : AgreeOn regs m s u) (l : List Nat) (c : Word64) :
    AgreeOn regs m { s with nset := l, ncount := c } { u with nset := l, ncount := c } :=
  ⟨⟨h.ledger.1, rfl, rfl⟩, h.reg, h.flags⟩

theorem AgreeOn.query (h : AgreeOn regs m s u) (t : TreeId) (hnow : s.now = u.now) (r : Nat) :
    AgreeOn regs { m with b := true } (queryKnown t r s) (queryKnown t r u) := by
  rw [queryKnown, queryKnown, h.ledger.1 t, hnow]
  exact (h.setTree t _).setB _

end

/-! ### Agreement of two runs of a command -/

/-- Two runs of a command raise the same fault, or come to states that agree on the ledger, the registers `regs` and the
flags that `m` marks. -/
inductive SameOutcome (regs : List Reg) (m : Flags) : Cmd State → Cmd State → Prop
  | fault (e : Trap) : SameOutcome regs m (.error e) (.error e)
  | success {s u : State} (h : AgreeOn regs m s u) : SameOutcome regs m (.ok s) (.ok u)

section
variable {regs : List Reg} {m : Flags}

/-- Two runs that begin with the same result, and go on alike from every value. -/
theorem SameOutcome.bind {α : Type} {x y : Cmd α} {f g : α → Cmd State} (hxy : x = y)
    (h : ∀ a, SameOutcome regs m (f a) (g a)) : SameOutcome regs m (x >>= f) (y >>= g) := by
  subst hxy
  cases x with
  | ok a => exact h a
  | error e => exact .fault e

/-- Two runs that make the same check, which raises the same fault. -/
theorem SameOutcome.check {p : Prop} [Decidable p] {c : FaultCode} {info : BitVec 8} {x y : Cmd State}
    (h : SameOutcome regs m x y) :
    SameOutcome regs m (if p then raise c info else x) (if p then raise c info else y) := by
  split
  · exact .fault ⟨c, info⟩
  · exact h

end

section
variable {s u : State} {rd rs1 rs2 rs3 : Reg}

/-- The same value written to one register, and nothing else. -/
theorem SameOutcome.reg (hl : SameLedger s u) (v : Nat) :
    SameOutcome [rd] noFlags (.ok (s.setRegNat rd v)) (.ok (u.setRegNat rd v)) :=
  .success ((AgreeOn.start hl).setRegNat rd v)

/-- The same value written to one register, and the same overflow signal (R28, R129). -/
theorem SameOutcome.regOvf (hl : SameLedger s u) (v : Nat) (ovf : Bool) :
    SameOutcome [rd] { noFlags with ovf := true } (.ok ((s.setRegNat rd v).setOvf ovf))
      (.ok ((u.setRegNat rd v).setOvf ovf)) :=
  .success (((AgreeOn.start hl).setRegNat rd v).setOvf ovf)

theorem addCmd_sameOutcome (n : Nat) (hl : SameLedger s u) (hr : ∀ r ∈ [rs1, rs2], s.reg r = u.reg r) :
    SameOutcome [rd] { noFlags with c := true } (addCmd n rd rs1 rs2 s) (addCmd n rd rs1 rs2 u) :=
  .bind (opndU_congr n (hr _ (by simp))) fun _ => .bind (opndU_congr n (hr _ (by simp))) fun _ =>
    .success (((AgreeOn.start hl).setRegNat rd _).setC _)

theorem subCmd_sameOutcome (n : Nat) (uf : Bool) (hl : SameLedger s u) (hr : ∀ r ∈ [rs1, rs2], s.reg r = u.reg r) :
    SameOutcome [rd] { noFlags with c := true } (subCmd n rd rs1 rs2 uf s) (subCmd n rd rs1 rs2 uf u) :=
  .bind (opndU_congr n (hr _ (by simp))) fun _ => .bind (opndU_congr n (hr _ (by simp))) fun _ =>
    .check (.success (((AgreeOn.start hl).setRegNat rd _).setC _))

theorem mulCmd_sameOutcome (n : Nat) (hl : SameLedger s u) (hr : ∀ r ∈ [rs1, rs2], s.reg r = u.reg r) :
    SameOutcome [rd] noFlags (mulCmd n rd rs1 rs2 s) (mulCmd n rd rs1 rs2 u) :=
  .bind (opndU_congr n (hr _ (by simp))) fun _ => .bind (opndU_congr n (hr _ (by simp))) fun _ => .reg hl _

theorem nxpCmd_sameOutcome (next : Nat → Nat → Nat → Bool → Nat × Bool) (addf : Bool) (hl : SameLedger s u)
    (hr : ∀ r ∈ [rs1, rs2, rs3], s.reg r = u.reg r) :
    SameOutcome [rd] { noFlags with ovf := true } (nxpCmd next rd rs1 rs2 rs3 addf s)
      (nxpCmd next rd rs1 rs2 rs3 addf u) :=
  .bind (opndPrice_congr (hr _ (by simp))) fun _ => .bind (opndU_congr 128 (hr _ (by simp))) fun _ =>
    .bind (opndU_congr 128 (hr _ (by simp))) fun _ => .regOvf hl _ _

theorem writeSwap_agreeOn (r : SwapResult) (hl : SameLedger s u) :
    AgreeOn [rd, rd + 1, rd + 2, rd + 3] { noFlags with lim := true, ovf := true } (writeSwap rd r s)
      (writeSwap rd r u) := by
  have hregs := ((((AgreeOn.start hl).setRegNat rd (guarded r.overflow r.priceNext)).setRegNat (rd + 1)
    (guarded r.overflow r.amountIn)).setRegNat (rd + 2) (guarded r.overflow r.amountOut)).setRegNat (rd + 3)
    (guarded r.overflow r.feeAmount)
  exact ((hregs.setLim r.limited).setOvf r.overflow).mono (by simp)

theorem swapCmd_sameOutcome (step : Bool → SwapOperands → Cmd SwapResult) (up : Bool) (hl : SameLedger s u)
    (hr : ∀ r ∈ [rs1, rs1 + 1, rs1 + 2, rs1 + 3, rs1 + 4], s.reg r = u.reg r) :
    SameOutcome [rd, rd + 1, rd + 2, rd + 3] { noFlags with lim := true, ovf := true } (swapCmd step rd rs1 up s)
      (swapCmd step rd rs1 up u) :=
  .bind (swapOperands_congr hr) fun _ => .bind rfl fun r => .success (writeSwap_agreeOn r hl)

theorem writeNote_sameOutcome (nf cm : Nat) (hl : SameLedger s u) :
    SameOutcome [rd, rd + 1] noFlags (writeNote rd nf cm s) (writeNote rd nf cm u) := by
  unfold writeNote
  split
  · exact .success ((((AgreeOn.start hl).setRegNat rd nf).setRegNat (rd + 1) cm).mono (by simp))
  · exact .fault ⟨.NOTE_INVALID, infoNone⟩

theorem ntokCmd_sameOutcome (hl : SameLedger s u)
    (hr : ∀ r ∈ [rs1, rs1 + 1, rs1 + 2, rs1 + 3], s.reg r = u.reg r) :
    SameOutcome [rd, rd + 1] noFlags (ntokCmd rd rs1 s) (ntokCmd rd rs1 u) :=
  .bind (opndTokid_congr (hr _ (by simp))) fun _ => .bind (opndU_congr 128 (hr _ (by simp))) fun _ =>
    .bind (opndFelt_congr (hr _ (by simp))) fun _ => .bind (opndFelt_congr (hr _ (by simp))) fun _ =>
      writeNote_sameOutcome _ _ hl

theorem nposCmd_sameOutcome (hl : SameLedger s u)
    (hr : ∀ r ∈ [rs1, rs1 + 1, rs1 + 2, rs1 + 3, rs1 + 4, rs1 + 5, rs1 + 6], s.reg r = u.reg r) :
    SameOutcome [rd, rd + 1] noFlags (nposCmd rd rs1 s) (nposCmd rd rs1 u) :=
  .bind (opndFelt_congr (hr _ (by simp))) fun _ => .bind (opndFelt_congr (hr _ (by simp))) fun _ =>
    .bind (opndTick_congr _ (hr _ (by simp))) fun _ => .bind (opndTick_congr _ (hr _ (by simp))) fun _ =>
      .bind (opndU_congr 128 (hr _ (by simp))) fun _ => .bind (opndFg_congr (hr _ (by simp))) fun _ =>
        .bind (opndFg_congr (hr _ (by simp))) fun _ => writeNote_sameOutcome _ _ hl

theorem insertCmd_sameOutcome (t : TreeId) (hl : SameLedger s u) (hr : ∀ r ∈ [rs1], s.reg r = u.reg r)
    (hp : pathEntries s = pathEntries u) (hnow : s.now = u.now) :
    SameOutcome [rd] noFlags (insertCmd t rd rs1 s) (insertCmd t rd rs1 u) := by
  rw [insertCmd, insertCmd, hp, hnow, hl.1 t]
  exact .bind (opndFelt_congr (hr _ (by simp))) fun _ => .bind (pathCheck_congr hp) fun _ =>
    .check (.check (.check (.success (((AgreeOn.start hl).setTree t _).setRegNat rd _))))

theorem knownCmd_sameOutcome (t : TreeId) (hl : SameLedger s u) (hr : ∀ r ∈ [rs1], s.reg r = u.reg r)
    (hnow : s.now = u.now) :
    SameOutcome [] { noFlags with b := true } (knownCmd t rs1 s) (knownCmd t rs1 u) :=
  .bind (opndFelt_congr (hr _ (by simp))) fun r => .success ((AgreeOn.start hl).query t hnow r)

theorem verifyCmd_sameOutcome (t : TreeId) (hl : SameLedger s u) (hr : ∀ r ∈ [rs1, rs2, rs3], s.reg r = u.reg r)
    (hp : pathEntries s = pathEntries u) (hnow : s.now = u.now) :
    SameOutcome [] { noFlags with b := true } (verifyCmd t rs1 rs2 rs3 s) (verifyCmd t rs1 rs2 rs3 u) := by
  rw [verifyCmd, verifyCmd, hp]
  exact .bind (opndFelt_congr (hr _ (by simp))) fun _ => .bind (opndIndex_congr (hr _ (by simp))) fun _ =>
    .bind (opndIndex_congr (hr _ (by simp))) fun _ => .bind (pathCheck_congr hp) fun _ =>
      .check (.success ((AgreeOn.start hl).query t hnow _))

theorem flushCmd_sameOutcome (t : TreeId) (hl : SameLedger s u) (hnow : s.now = u.now) :
    SameOutcome [] noFlags (flushCmd t s) (flushCmd t u) := by
  rw [flushCmd, flushCmd, hl.1 t, hnow]
  exact .success ((AgreeOn.start hl).setTree t _)

theorem nullifyCmd_sameOutcome (hl : SameLedger s u) (hr : ∀ r ∈ [rs1], s.reg r = u.reg r) :
    SameOutcome [] noFlags (nullifyCmd rs1 s) (nullifyCmd rs1 u) := by
  have ⟨_, hnset, hncount⟩ := hl
  rw [nullifyCmd, nullifyCmd, hnset, hncount]
  exact .bind (opndFelt_congr (hr _ (by simp))) fun _ =>
    .check (.check (.check (.success ((AgreeOn.start hl).mark _ _))))

end

/-- Two runs of a command from states with the same inputs have the same outcome (R122). -/
theorem pseudocode_sameOutcome {i : Instr} {s u : State} (h : SameInputs i s u) :
    SameOutcome (destinations i) (writtenFlags i) (pseudocode i s) (pseudocode i u) := by
  obtain ⟨hr, hpath, hnow, hl⟩ := h
  cases i with
  | nop => exact .success (.start hl)
  | add128 | add256 | add512 => exact addCmd_sameOutcome _ hl hr
  | sub128 rd a b uf | sub256 rd a b uf | sub512 rd a b uf => exact subCmd_sameOutcome _ uf hl hr
  | mul128 | mul256 => exact mulCmd_sameOutcome _ hl hr
  | divf | divc | muldiv =>
    exact .bind (opndU_congr _ (hr _ (by simp [sources]))) fun _ =>
      .bind (opndU_congr _ (hr _ (by simp [sources]))) fun _ =>
        .bind (opndU_congr _ (hr _ (by simp [sources]))) fun _ => .bind rfl fun _ => .reg hl _
  | t2p => exact .bind (opndTick_congr _ (hr _ (by simp [sources]))) fun _ => .reg hl _
  | p2t => exact .bind (opndPrice_congr (hr _ (by simp [sources]))) fun _ => .reg hl _
  | tdec rd =>
    exact .bind (opndTick_congr _ (hr _ (by simp [sources]))) fun _ =>
      .success (((AgreeOn.start hl).setRegNat rd _).setN _)
  | amt0 =>
    exact .bind (opndPrice_congr (hr _ (by simp [sources]))) fun _ =>
      .bind (opndPrice_congr (hr _ (by simp [sources]))) fun _ =>
        .bind (opndU_congr 128 (hr _ (by simp [sources]))) fun _ => .bind rfl fun _ => .regOvf hl _ _
  | amt1 =>
    exact .bind (opndPrice_congr (hr _ (by simp [sources]))) fun _ =>
      .bind (opndPrice_congr (hr _ (by simp [sources]))) fun _ =>
        .bind (opndU_congr 128 (hr _ (by simp [sources]))) fun _ => .regOvf hl _ _
  | ladd =>
    exact .bind (opndU_congr 128 (hr _ (by simp [sources]))) fun _ =>
      .bind (opndDelta_congr (hr _ (by simp [sources]))) fun _ => .check (.check (.reg hl _))
  | fgchk => exact .bind (opndFg_congr (hr _ (by simp [sources]))) fun _ => .success (.start hl)
  | fgchkMono =>
    exact .bind (opndFg_congr (hr _ (by simp [sources]))) fun _ =>
      .bind (opndFg_congr (hr _ (by simp [sources]))) fun _ => .check (.success (.start hl))
  | nxp0 rd p l a addf => exact nxpCmd_sameOutcome next0 addf hl hr
  | nxp1 rd p l a addf => exact nxpCmd_sameOutcome next1 addf hl hr
  | swapi rd b up => exact swapCmd_sameOutcome swapInStep up hl hr
  | swapo rd b up => exact swapCmd_sameOutcome swapOutStep up hl hr
  | ntok => exact ntokCmd_sameOutcome hl hr
  | npos => exact nposCmd_sameOutcome hl hr
  | insertT0 | insertT1 | insertTP => exact insertCmd_sameOutcome _ hl hr (pathEntries_congr (hpath rfl)) hnow
  | knownT0 | knownT1 | knownTP => exact knownCmd_sameOutcome _ hl hr hnow
  | verifyT0 | verifyT1 | verifyTP => exact verifyCmd_sameOutcome _ hl hr (pathEntries_congr (hpath rfl)) hnow
  | nullify => exact nullifyCmd_sameOutcome hl hr
  | flushT0 | flushT1 | flushTP => exact flushCmd_sameOutcome _ hl hnow

theorem inFlightWord_congr {s u : State} (h : s.engine = u.engine) (hne : s.engine ≠ none) :
    s.inFlightWord = u.inFlightWord := by
  obtain ⟨v, hv⟩ := Option.ne_none_iff_exists'.1 hne
  rw [inFlightWord_of_engine hv, inFlightWord_of_engine (h ▸ hv)]

/-- Settles O14: the two runs raise the same fault and write nothing else, or make the same writes. -/
theorem outcomeDependsOnlyOnTheInputs : Obligations.OutcomeDependsOnlyOnTheInputs := by
  intro i s u s' u' h hs hu
  have hsame := pseudocode_sameOutcome h
  obtain ⟨-, -, -, hl⟩ := h
  rw [exec_eq_finish] at hs hu
  generalize pseudocode i s = x at hsame hs
  generalize pseudocode i u = y at hsame hu
  cases hsame with
  | fault e =>
    cases (finish_error s e).symm.trans hs
    cases (finish_error u e).symm.trans hu
    exact ⟨rfl, rfl, by simpa [SameLedger] using hl, fun heng hne _ => inFlightWord_congr heng hne, nofun⟩
  | @success a b hab =>
    cases (finish_ok s a).symm.trans hs
    cases (finish_ok u b).symm.trans hu
    exact ⟨rfl, rfl, by simpa [SameLedger] using hab.ledger, nofun, fun _ => ⟨hab.reg, hab.flags⟩⟩

end Sys2Proof.Machine
end

section
/-! PROOFS, 41_bigint.md: ADD (R141), SUB (R143), MUL (R145, R146), DIVF and DIVC (R147 to R150) and MULDIV
(R151, R152). -/

namespace Sys2Proof.Machine

/-! ### Operands in range, and writes of one register -/

/-- `opndU_of_lt`, in the words of the statements. -/
theorem opndU_of_val_lt {n : Nat} {i : Reg} {s : State} (h : s.val i < 2 ^ n) : opndU n i s = .ok (s.val i) :=
  opndU_of_lt n i s h

theorem val_lt (s : State) (i : Reg) : s.val i < 2 ^ 512 := (s.reg i).isLt

/-- A command that writes one register and FLAGS.C, and raises nothing. -/
theorem finish_setRegNat_setC (s : State) (rd : Reg) (v : Nat) (c : Bool) :
    finish s (.ok ((s.setRegNat rd v).setC c)) = .next (completed s (withReg s.w rd v) { s.flags with c := c }) := rfl

/-- A value that fits a register is what the register then holds. -/
theorem completed_withReg_val (s : State) (rd : Reg) (v : Nat) (f : Flags) (h : v < 2 ^ 512) :
    (completed s (withReg s.w rd v) f).val rd = v := by
  have hreg : (completed s (withReg s.w rd v) f).reg rd = BitVec.ofNat 512 v := setRegNat_reg_same s rd v
  rw [State.val, hreg, BitVec.toNat_ofNat, Nat.mod_eq_of_lt h]

/-! ### Rounding -/

/-- The quotient rounded up is the quotient rounded down, corrected by one when the division is inexact (R11). -/
theorem cdiv_eq_rounded (n : Nat) {d : Nat} (hd : d ≠ 0) : cdiv n d = rounded n d true := by
  have hpred : d - 1 < d := Nat.pred_lt hd
  have hinexact : d ≤ n % d + (d - 1) ↔ n % d ≠ 0 := by omega
  rw [cdiv, rounded, Nat.add_sub_assoc (Nat.pos_of_ne_zero hd), Nat.add_div (Nat.pos_of_ne_zero hd),
    Nat.div_eq_of_lt hpred, Nat.mod_eq_of_lt hpred, Nat.add_zero]
  simp only [hinexact, true_and]

theorem div_eq_rounded (n d : Nat) : n / d = rounded n d false := by simp [rounded]

/-- The machine's rounded quotient is the statements' (R11, R152). -/
theorem quotient_eq_rounded (n : Nat) {d : Nat} (rup : Bool) (hd : d ≠ 0) : quotient n d rup = rounded n d rup := by
  cases rup with
  | false => exact div_eq_rounded n d
  | true => exact cdiv_eq_rounded n hd

/-! ### ADD -/

theorem finish_addCmd (n : Nat) {rd rs1 rs2 : Reg} {s : State} (h1 : s.val rs1 < 2 ^ n) (h2 : s.val rs2 < 2 ^ n) :
    finish s (addCmd n rd rs1 rs2 s) =
      .next (completed s (withReg s.w rd ((s.val rs1 + s.val rs2) % 2 ^ n))
        { s.flags with c := decide (2 ^ n ≤ s.val rs1 + s.val rs2) }) := by
  rw [addCmd, opndU_of_val_lt h1, opndU_of_val_lt h2, cmd_bind_ok, cmd_bind_ok, cmd_pure, finish_setRegNat_setC,
    carryOut]

/-- Settles O18: the three widths are one command. -/
theorem addWritesSumAndCarry : Obligations.AddWritesSumAndCarry := by
  intro s rd rs1 rs2
  exact ⟨finish_addCmd 128, finish_addCmd 256,
    (exec_eq_finish _ s).trans (finish_addCmd 512 (val_lt s rs1) (val_lt s rs2))⟩

/-! ### SUB -/

/-- The machine's difference of naturals is the integer difference modulo `m` (R143). -/
theorem toNat_sub_emod (a : Nat) {b m : Nat} (h : b ≤ m) : (((a : Int) - b) % (m : Nat)).toNat = (a + m - b) % m := by
  have hcast : ((a + m - b : Nat) : Int) = (a : Int) - b + m := by omega
  rw [← Int.add_emod_right, ← hcast, ← Int.natCast_emod, Int.toNat_natCast]

/-- SUB of operands that fit, before its completion. -/
theorem subCmd_of_lt {n : Nat} {rd rs1 rs2 : Reg} {uf : Bool} {s : State} (h1 : s.val rs1 < 2 ^ n)
    (h2 : s.val rs2 < 2 ^ n) :
    subCmd n rd rs1 rs2 uf s = if s.val rs1 < s.val rs2 ∧ uf = false then raise .SUB_UNDERFLOW infoNone
      else .ok ((s.setRegNat rd ((s.val rs1 + 2 ^ n - s.val rs2) % 2 ^ n)).setC
        (borrowOut (s.val rs1) (s.val rs2))) := by
  rw [subCmd, opndU_of_val_lt h1, opndU_of_val_lt h2, cmd_bind_ok, cmd_bind_ok, cmd_pure]

theorem finish_subCmd (n : Nat) {rd rs1 rs2 : Reg} {uf : Bool} {s : State} (h : s.val rs2 ≤ s.val rs1 ∨ uf = true)
    (h1 : s.val rs1 < 2 ^ n) (h2 : s.val rs2 < 2 ^ n) :
    finish s (subCmd n rd rs1 rs2 uf s) =
      .next (completed s (withReg s.w rd (((s.val rs1 : Int) - s.val rs2) % (2 ^ n : Nat)).toNat)
        { s.flags with c := decide (s.val rs1 < s.val rs2) }) := by
  have hpass : ¬ (s.val rs1 < s.val rs2 ∧ uf = false) := by
    rintro ⟨hlt, rfl⟩
    exact h.elim (Nat.not_le.2 hlt) nofun
  rw [subCmd_of_lt h1 h2, if_neg hpass, finish_setRegNat_setC, toNat_sub_emod _ h2.le, borrowOut]

theorem finish_subCmd_underflow (n : Nat) {rd rs1 rs2 : Reg} {uf : Bool} {s : State} (h : s.val rs1 < s.val rs2)
    (huf : uf = false) (h2 : s.val rs2 < 2 ^ n) :
    finish s (subCmd n rd rs1 rs2 uf s) = .next (faulted s .SUB_UNDERFLOW 0xFF) := by
  rw [subCmd_of_lt (h.trans h2) h2, if_pos ⟨h, huf⟩]
  exact finish_raise s .SUB_UNDERFLOW infoNone

/-- Settles O19: the three widths are one command. -/
theorem subWritesDifferenceAndBorrow : Obligations.SubWritesDifferenceAndBorrow := by
  intro s rd rs1 rs2 uf
  refine ⟨fun h => ?difference, fun h huf => ?underflow⟩
  case difference =>
    exact ⟨finish_subCmd 128 h, finish_subCmd 256 h,
      (exec_eq_finish _ s).trans (finish_subCmd 512 h (val_lt s rs1) (val_lt s rs2))⟩
  case underflow =>
    exact ⟨finish_subCmd_underflow 128 h huf, finish_subCmd_underflow 256 h huf,
      (exec_eq_finish _ s).trans (finish_subCmd_underflow 512 h huf (val_lt s rs2))⟩

/-! ### MUL -/

theorem finish_mulCmd {n : Nat} {rd rs1 rs2 : Reg} {s : State} (h1 : s.val rs1 < 2 ^ n) (h2 : s.val rs2 < 2 ^ n) :
    finish s (mulCmd n rd rs1 rs2 s) =
      .next (completed s (withReg s.w rd (s.val rs1 * s.val rs2)) s.flags) := by
  rw [mulCmd, opndU_of_val_lt h1, opndU_of_val_lt h2, cmd_bind_ok, cmd_bind_ok, cmd_pure, finish_setRegNat]

/-- The product of two operands of at most 256 bits fits a register (R146). -/
theorem mul_lt_register {n a b : Nat} (hn : n ≤ 256) (ha : a < 2 ^ n) (hb : b < 2 ^ n) : a * b < 2 ^ 512 :=
  calc a * b < 2 ^ n * 2 ^ n := Nat.mul_lt_mul'' ha hb
    _ = 2 ^ (n + n) := (Nat.pow_add 2 n n).symm
    _ ≤ 2 ^ 512 := Nat.pow_le_pow_right Nat.two_pos (by omega)

/-- Settles O20: the product is written, and it fits the register. -/
theorem mulWritesTheExactProduct : Obligations.MulWritesTheExactProduct := by
  intro s rd rs1 rs2
  have hval {n : Nat} (hn : n ≤ 256) (h1 : s.val rs1 < 2 ^ n) (h2 : s.val rs2 < 2 ^ n) :=
    completed_withReg_val s rd _ s.flags (mul_lt_register hn h1 h2)
  exact ⟨fun h1 h2 => ⟨finish_mulCmd h1 h2, hval (by decide) h1 h2⟩,
    fun h1 h2 => ⟨finish_mulCmd h1 h2, hval le_rfl h1 h2⟩⟩

/-! ### DIVF and DIVC -/

/-- The identity of DIVF holds of the floor quotient and of no other witness (R147, R150). -/
theorem floorAccepts_iff {n d q : Nat} (hd : d ≠ 0) : floorAccepts n d q = true ↔ q = rounded n d false := by
  rw [floorAccepts, Bool.and_eq_true, decide_eq_true_eq, decide_eq_true_eq, ← div_eq_rounded,
    eq_comm (a := q), Nat.div_eq_iff (Nat.pos_of_ne_zero hd), Nat.add_one_mul]
  omega

/-- The identity of DIVC holds of the ceiling quotient and of no other witness (R149, R150). -/
theorem ceilAccepts_iff {n d q : Nat} (hd : d ≠ 0) : ceilAccepts n d q = true ↔ q = rounded n d true := by
  rw [← cdiv_eq_rounded n hd, cdiv, eq_comm (a := q), Nat.div_eq_iff (Nat.pos_of_ne_zero hd), ceilAccepts]
  cases q with
  | zero => rw [if_pos rfl, beq_iff_eq]; omega
  | succ k =>
    rw [if_neg k.succ_ne_zero, Bool.and_eq_true, decide_eq_true_eq, decide_eq_true_eq, Nat.add_sub_cancel,
      Nat.add_one_mul]
    omega

/-- What DIVF (`rup` false) and DIVC (`rup` true) come to when their operands fit, the checks in the order of R148. -/
def divided (s : State) (rd rs1 rs2 rs3 : Reg) (rup : Bool) : State :=
  if s.val rs2 = 0 then faulted s .DIV_BY_ZERO (infoReg rs2)
  else if 2 ^ 256 ≤ rounded (s.val rs1) (s.val rs2) rup then faulted s .DIV_OVERFLOW 0xFF
  else if s.val rs3 = rounded (s.val rs1) (s.val rs2) rup then completed s (withReg s.w rd (s.val rs3)) s.flags
  else faulted s .QUOTIENT_REJECTED (infoReg rs3)

/-- The checks of DIVF and DIVC, and the write after them, for a true quotient and a test that accepts it alone. -/
theorem finish_divCheck {s : State} {rd rs1 rs2 rs3 : Reg} {rup acc : Bool} {quo : Nat}
    (hquo : s.val rs2 ≠ 0 → quo = rounded (s.val rs1) (s.val rs2) rup)
    (hacc : s.val rs2 ≠ 0 → (acc = true ↔ s.val rs3 = rounded (s.val rs1) (s.val rs2) rup)) :
    finish s (divCheck acc quo (s.val rs2) rs2 rs3 >>= fun _ => .ok (s.setRegNat rd (s.val rs3))) =
      .next (divided s rd rs1 rs2 rs3 rup) := by
  unfold divCheck divided
  by_cases hd : s.val rs2 = 0
  · rw [if_pos hd, if_pos hd]
    rfl
  rw [if_neg hd, if_neg hd, hquo hd]
  by_cases hfit : 2 ^ 256 ≤ rounded (s.val rs1) (s.val rs2) rup
  · rw [if_pos hfit, if_pos hfit]
    rfl
  rw [if_neg hfit, if_neg hfit]
  simp only [hacc hd]
  split <;> rfl

section
variable {s : State} {rd rs1 rs2 rs3 : Reg} (hd : s.val rs2 < 2 ^ 256) (hq : s.val rs3 < 2 ^ 256)
include hd hq

theorem exec_divf : exec (.divf rd rs1 rs2 rs3) s = .next (divided s rd rs1 rs2 rs3 false) := by
  rw [exec_eq_finish, pseudocode, divfCmd, opndU_of_val_lt (val_lt s rs1), opndU_of_val_lt hd, opndU_of_val_lt hq]
  exact finish_divCheck (fun _ => div_eq_rounded _ _) floorAccepts_iff

theorem exec_divc : exec (.divc rd rs1 rs2 rs3) s = .next (divided s rd rs1 rs2 rs3 true) := by
  rw [exec_eq_finish, pseudocode, divcCmd, opndU_of_val_lt (val_lt s rs1), opndU_of_val_lt hd, opndU_of_val_lt hq]
  exact finish_divCheck (cdiv_eq_rounded _) ceilAccepts_iff

end

section
variable {s : State} {rd rs1 rs2 rs3 : Reg} {rup : Bool}

theorem divided_of_zero (hd : s.val rs2 = 0) : divided s rd rs1 rs2 rs3 rup = faulted s .DIV_BY_ZERO (infoReg rs2) :=
  if_pos hd

theorem divided_of_overflow (hd : s.val rs2 ≠ 0) (hbig : 2 ^ 256 ≤ rounded (s.val rs1) (s.val rs2) rup) :
    divided s rd rs1 rs2 rs3 rup = faulted s .DIV_OVERFLOW 0xFF := by
  rw [divided, if_neg hd, if_pos hbig]

theorem divided_of_fits (hd : s.val rs2 ≠ 0) (hfit : rounded (s.val rs1) (s.val rs2) rup < 2 ^ 256) :
    divided s rd rs1 rs2 rs3 rup =
      if s.val rs3 = rounded (s.val rs1) (s.val rs2) rup then completed s (withReg s.w rd (s.val rs3)) s.flags
      else faulted s .QUOTIENT_REJECTED (infoReg rs3) := by
  rw [divided, if_neg hd, if_neg (Nat.not_le.2 hfit)]

end

/-- Settles O21: past the first two checks, the witness is compared with the true quotient. -/
theorem divisionAcceptsOnlyTheQuotient : Obligations.DivisionAcceptsOnlyTheQuotient := by
  intro s rd rs1 rs2 rs3 hd hq hne
  refine ⟨fun hfit => ?floor, fun hfit => ?ceil⟩
  case floor =>
    rw [exec_divf hd hq, divided_of_fits hne hfit]
    exact ⟨fun h => by rw [if_pos h], fun h => by rw [if_neg h]⟩
  case ceil =>
    rw [exec_divc hd hq, divided_of_fits hne hfit]
    exact ⟨fun h => by rw [if_pos h], fun h => by rw [if_neg h]⟩

/-- Settles O22: the first two checks do not look at the witness. -/
theorem divisionChecksComeInOrder : Obligations.DivisionChecksComeInOrder := by
  intro s rd rs1 rs2 rs3 hd hq
  rw [exec_divf hd hq, exec_divc hd hq]
  refine ⟨fun hzero => ?zero, fun hne => ?overflow⟩
  case zero => exact ⟨congrArg _ (divided_of_zero hzero), congrArg _ (divided_of_zero hzero)⟩
  case overflow =>
    exact ⟨fun hbig => congrArg _ (divided_of_overflow hne hbig),
      fun hbig => congrArg _ (divided_of_overflow hne hbig)⟩

/-! ### MULDIV -/

theorem mulDiv_zero (a b : Nat) (rup : Bool) (info : BitVec 8) : mulDiv a b 0 rup info = raise .DIV_BY_ZERO info :=
  if_pos rfl

theorem mulDiv_of_overflow {a b d : Nat} {rup : Bool} (info : BitVec 8) (hd : d ≠ 0)
    (hbig : 2 ^ 256 ≤ rounded (a * b) d rup) : mulDiv a b d rup info = raise .DIV_OVERFLOW infoNone := by
  rw [mulDiv, if_neg hd, quotient_eq_rounded _ _ hd, if_pos hbig]

theorem mulDiv_of_fits {a b d : Nat} {rup : Bool} (info : BitVec 8) (hd : d ≠ 0)
    (hfit : rounded (a * b) d rup < 2 ^ 256) : mulDiv a b d rup info = .ok (rounded (a * b) d rup) := by
  rw [mulDiv, if_neg hd, quotient_eq_rounded _ _ hd, if_neg (Nat.not_le.2 hfit)]

/-- MULDIV of operands that fit (R151). -/
theorem exec_muldiv {s : State} {rd rs1 rs2 rs3 : Reg} {rup : Bool} (h1 : s.val rs1 < 2 ^ 256)
    (h2 : s.val rs2 < 2 ^ 256) (h3 : s.val rs3 < 2 ^ 256) :
    exec (.muldiv rd rs1 rs2 rs3 rup) s =
      finish s (mulDiv (s.val rs1) (s.val rs2) (s.val rs3) rup (infoReg rs3) >>= fun q => .ok (s.setRegNat rd q)) := by
  rw [exec_eq_finish, pseudocode, muldivCmd, opndU_of_val_lt h1, opndU_of_val_lt h2, opndU_of_val_lt h3]
  rfl

/-- Settles O23, by the three outcomes of the division. -/
theorem muldivRoundsAsAsked : Obligations.MuldivRoundsAsAsked := by
  intro s rd rs1 rs2 rs3 rup q h1 h2 h3
  rw [exec_muldiv h1 h2 h3]
  refine ⟨fun hne hfit => ?fits, fun hzero => ?zero, fun hne hbig => ?overflow⟩
  case fits => rw [mulDiv_of_fits _ hne hfit, cmd_bind_ok, finish_setRegNat]
  case zero =>
    rw [hzero, mulDiv_zero]
    exact finish_raise s .DIV_BY_ZERO (infoReg rs3)
  case overflow =>
    rw [mulDiv_of_overflow _ hne hbig]
    exact finish_raise s .DIV_OVERFLOW infoNone

end Sys2Proof.Machine
end

section
/-! PROOFS, 42_tickmath.md: P2T (R176), its round trip with T2P (R177) and TDEC (R178). -/

namespace Sys2Proof.Machine

/-! ### The price of a tick and the tick of a price, in the words of the statements -/

/-- The prices of two ticks in range are ordered as the ticks are (R174). -/
theorem priceOf_le_iff {t u : Int} (ht1 : -(maxTick : Int) ≤ t) (ht2 : t ≤ maxTick) (hu1 : -(maxTick : Int) ≤ u)
    (hu2 : u ≤ maxTick) : priceOf t ≤ priceOf u ↔ t ≤ u := by
  simp only [← tickToPrice_eq_priceOf]
  exact tickToPriceWith_le_iff Config.tickTable t u ht1 ht2 hu1 hu2

/-- The price of a tick in range is a price operand in range (R8). -/
theorem isPrice_priceOf {t : Int} (h1 : -(maxTick : Int) ≤ t) (h2 : t ≤ maxTick) : IsPrice (priceOf t) := by
  have hends : -(maxTick : Int) ≤ maxTick := h1.trans h2
  exact ⟨priceOf_min ▸ (priceOf_le_iff le_rfl hends h1 h2).2 h1,
    priceOf_max ▸ (priceOf_le_iff h1 h2 hends le_rfl).2 h2⟩

/-- A value that fits a slot fits a register. -/
theorem slot_lt_register {v : Nat} (h : v < 2 ^ 256) : v < 2 ^ 512 :=
  Nat.lt_trans h (Nat.pow_lt_pow_right Nat.one_lt_two (by decide))

theorem isPrice_lt_slot {p : Nat} (h : IsPrice p) : p < 2 ^ 256 := h.2.trans_lt (by decide)

/-- `priceToTickWith_greatest`, for the block's table. -/
theorem priceToTick_greatest {p : Nat} (hp : IsPrice p) :
    (-(maxTick : Int) ≤ priceToTick p ∧ priceToTick p ≤ maxTick ∧ priceOf (priceToTick p) ≤ p) ∧
      ∀ u : Int, -(maxTick : Int) ≤ u → u ≤ maxTick → priceOf u ≤ p → u ≤ priceToTick p := by
  simp only [← tickToPrice_eq_priceOf]
  exact priceToTickWith_greatest Config.tickTable p hp.1

/-- The tick of the price of a tick is that tick (R177). -/
theorem priceToTick_priceOf {t : Int} (h1 : -(maxTick : Int) ≤ t) (h2 : t ≤ maxTick) :
    priceToTick (priceOf t) = t := by
  rw [← tickToPrice_eq_priceOf]
  exact priceToTickWith_tickToPriceWith Config.tickTable t h1 h2

/-! ### P2T -/

/-- P2T of a price in range (R176). -/
theorem exec_p2t_of_isPrice {s : State} {rd rs1 : Reg} (hp : IsPrice (s.val rs1)) :
    exec (.p2t rd rs1) s =
      .next (completed s (withReg s.w rd (slotOf (priceToTick (s.val rs1)))) s.flags) := by
  have hopnd : opndPrice rs1 s = .ok (s.val rs1) := (opndPrice_eq_ok rs1 s _).2 ⟨rfl, hp⟩
  rw [exec_eq_finish, pseudocode, p2tCmd, hopnd, cmd_bind_ok, cmd_pure, finish_setRegNat, slotOf_eq_encTick]

/-- Settles O25: the search over the table finds the greatest tick. -/
theorem p2tWritesTheGreatestTick : Obligations.P2tWritesTheGreatestTick := by
  intro s rd rs1 hp
  obtain ⟨⟨hlow, hhigh, hle⟩, hgreatest⟩ := priceToTick_greatest hp
  exact ⟨priceToTick (s.val rs1), hlow, hhigh, hle, hgreatest, exec_p2t_of_isPrice hp⟩

/-- Settles O26: T2P leaves a price in RD, whose tick is the one it came from because prices rise with ticks. -/
theorem priceOfATickGoesBackToTheTick : Obligations.PriceOfATickGoesBackToTheTick := by
  intro s rd rd' rs1 t h1 h2 hr
  have hp : IsPrice (priceOf t) := isPrice_priceOf h1 h2
  have hval := completed_withReg_val s rd (priceOf t) s.flags (slot_lt_register (isPrice_lt_slot hp))
  refine ⟨_, _, exec_t2p_of_slot rd rs1 s t h1 h2 hr, exec_p2t_of_isPrice (by rw [hval]; exact hp), rfl, ?_⟩
  rw [hval, priceToTick_priceOf h1 h2]
  exact completed_withReg_val _ rd' (slotOf t) _ (slot_lt_register (encTick_lt t))

/-! ### TDEC -/

/-- The lower bound of TDEC's operand: one wider with CUR (R178). -/
def tdecNeg (cur : Bool) : Nat := if cur then maxTick + 1 else maxTick

/-- TDEC of the slot of a tick that its mode takes (R178). -/
theorem exec_tdec_of_slot {s : State} {rd rs1 : Reg} {cur : Bool} {t : Int} (h1 : -(tdecNeg cur : Int) ≤ t)
    (h2 : t ≤ maxTick) (hr : s.val rs1 = slotOf t) :
    exec (.tdec rd rs1 cur) s =
      .next (completed s (withReg s.w rd t.natAbs) { s.flags with n := decide (t < 0) }) := by
  have hneg : tdecNeg cur ≤ maxTick + 1 := by cases cur <;> decide
  have hopnd : opndTick (tdecNeg cur) rs1 s = .ok t := opndTick_of_slot _ rs1 s t h1 h2 hneg hr
  rw [exec_eq_finish, pseudocode, tdecCmd, ← tdecNeg, hopnd]
  rfl

/-- TDEC of the slot of a signed value outside the bounds of its mode (R124, R178). -/
theorem exec_tdec_of_out_of_range {s : State} {rd rs1 : Reg} {cur : Bool} {t : Int} (h1 : -(2 ^ 127 : Int) ≤ t)
    (h2 : t < 2 ^ 127) (hout : t > maxTick ∨ t < -(tdecNeg cur : Int)) (hr : s.val rs1 = slotOf t) :
    exec (.tdec rd rs1 cur) s = .next (faulted s .RANGE_TICK (infoReg rs1)) := by
  have hopnd : opndTick (tdecNeg cur) rs1 s = raise .RANGE_TICK (infoReg rs1) :=
    opndTick_raises_of_slot _ rs1 s t h1 h2 hout hr
  rw [exec_eq_finish, pseudocode, tdecCmd, ← tdecNeg, hopnd, raise_eq, cmd_bind_error, ← raise_eq, finish_raise]

/-- Settles O27: each tick lies within or outside the bounds of the mode. -/
theorem tdecWritesMagnitudeAndSign : Obligations.TdecWritesMagnitudeAndSign := by
  intro s rd rs1 cur t hr
  refine ⟨fun h1 h2 => ?inRange, ?sentinel, ?above⟩
  case inRange =>
    have hwide : maxTick ≤ tdecNeg cur := by cases cur <;> decide
    exact exec_tdec_of_slot (by omega) h2 hr
  case sentinel =>
    rintro rfl
    have hmag : (-(maxTick : Int) - 1).natAbs = 88722884 := by decide
    have hsign : decide (-(maxTick : Int) - 1 < 0) = true := by decide
    have hcur := exec_tdec_of_slot (cur := true) (rd := rd) (by decide) (by decide) hr
    rw [hmag, hsign] at hcur
    exact ⟨hcur, exec_tdec_of_out_of_range (by decide) (by decide) (.inr (by decide)) hr⟩
  case above =>
    rintro rfl
    exact exec_tdec_of_out_of_range (by decide) (by decide) (.inl (by omega)) hr

end Sys2Proof.Machine
end

section
/-! PROOFS, 43_liquidity.md: AMT0 (R201, R202), AMT1 (R203, R204), LADD (R205, R206) and FGCHK (R207). -/

namespace Sys2Proof.Machine

/-! ### AMT0 and AMT1 -/

/-- A quotient, rounded either way, is at most every natural that the exact quotient does not pass. -/
theorem rounded_le {n d m : Nat} (rup : Bool) (h : n ≤ m * d) : rounded n d rup ≤ m := by
  rw [rounded]
  split
  next hup =>
    have hne : n ≠ m * d := fun heq => hup.2 (heq ▸ Nat.mul_mod_left m d)
    exact Nat.div_lt_of_lt_mul (Nat.mul_comm m d ▸ lt_of_le_of_ne h hne)
  next => exact Nat.div_le_of_le_mul (Nat.mul_comm m d ▸ h)

/-- The pair of an amount: the value, or 0 beside the overflow signal (R202, R204). -/
def amountPair (r : Nat) : Nat × Bool := (guarded (overflows128 r) r, overflows128 r)

/-- Both divisions of the token0 amount have a divisor and a quotient that fits: the first is at most `liq * 2^128`, as
the price difference is at most the greater price, and the second is at most the first (R202). -/
theorem amount0_eq {pA pB liq : Nat} (rup : Bool) (hA : 0 < pA) (hB : 0 < pB) (hliq : liq < 2 ^ 128) :
    amount0 pA pB liq rup = .ok (amountPair (amount0Of pA pB liq rup)) := by
  have hupper : max pA pB ≠ 0 := by omega
  have hlower : min pA pB ≠ 0 := by omega
  have hfirst : rounded (liq * 2 ^ 128 * (max pA pB - min pA pB)) (max pA pB) rup ≤ liq * 2 ^ 128 :=
    rounded_le rup (Nat.mul_le_mul_left _ (Nat.sub_le _ _))
  have hsecond : amount0Of pA pB liq rup ≤ rounded (liq * 2 ^ 128 * (max pA pB - min pA pB)) (max pA pB) rup :=
    rounded_le rup (Nat.le_mul_of_pos_right _ (Nat.pos_of_ne_zero hlower))
  have hfit : liq * 2 ^ 128 < 2 ^ 256 := by omega
  have hsecondFits := (hsecond.trans hfirst).trans_lt hfit
  rw [amount0Of] at hsecondFits
  rw [amount0, mulDiv_of_fits infoNone hupper (hfirst.trans_lt hfit), cmd_bind_ok,
    mulDiv_of_fits infoNone hlower (by rwa [Nat.mul_one]), cmd_bind_ok, Nat.mul_one, cmd_pure, amountPair, amount0Of]

theorem amount1_eq (pA pB liq : Nat) (rup : Bool) :
    amount1 pA pB liq rup = amountPair (amount1Of pA pB liq rup) := rfl

/-- A command that writes the pair of an amount to a register and to FLAGS.OVF, and raises nothing (R201, R203). -/
theorem finish_amountPair (s : State) (rd : Reg) (r : Nat) :
    finish s (.ok ((s.setRegNat rd (guarded (amountPair r).2 (amountPair r).1)).setOvf (amountPair r).2)) =
      .next (completed s (withReg s.w rd (if 2 ^ 128 ≤ r then 0 else r))
        { s.flags with ovf := decide (2 ^ 128 ≤ r) }) := by
  have hwritten : guarded (amountPair r).2 (amountPair r).1 = if 2 ^ 128 ≤ r then 0 else r := by
    simp only [amountPair, guarded, overflows128, decide_eq_true_eq]
    split <;> rfl
  rw [hwritten]
  rfl

theorem opndPrice_of_isPrice {i : Reg} {s : State} (h : IsPrice (s.val i)) : opndPrice i s = .ok (s.val i) :=
  (opndPrice_eq_ok i s _).2 ⟨rfl, h⟩

theorem isPrice_pos {p : Nat} (h : IsPrice p) : 0 < p := Nat.lt_of_lt_of_le (by decide) h.1

/-- Settles O28: neither division can fault on prices in range. -/
theorem amountsBetweenTwoPrices : Obligations.AmountsBetweenTwoPrices := by
  intro s rd rs1 rs2 rs3 rup hA hB hliq
  refine ⟨?amt0, ?amt1⟩
  case amt0 =>
    rw [exec_eq_finish, pseudocode, amt0Cmd, opndPrice_of_isPrice hA, opndPrice_of_isPrice hB, opndU_of_val_lt hliq,
      cmd_bind_ok, cmd_bind_ok, cmd_bind_ok, amount0_eq rup (isPrice_pos hA) (isPrice_pos hB) hliq]
    exact finish_amountPair s rd _
  case amt1 =>
    rw [exec_eq_finish, pseudocode, amt1Cmd, opndPrice_of_isPrice hA, opndPrice_of_isPrice hB, opndU_of_val_lt hliq,
      cmd_bind_ok, cmd_bind_ok, cmd_bind_ok, amount1_eq]
    exact finish_amountPair s rd _

/-! ### LADD -/

/-- LADD of operands that fit, before its completion (R205, R206). -/
theorem laddCmd_of_slot {rd rs1 rs2 : Reg} {s : State} {d : Int} (hliq : s.val rs1 < 2 ^ 128)
    (h1 : -(2 ^ 128 : Int) < d) (h2 : d < 2 ^ 128) (hr : s.val rs2 = slotOf d) :
    laddCmd rd rs1 rs2 s =
      if (s.val rs1 : Int) + d < 0 then raise .LIQUIDITY_UNDERFLOW (infoReg rs2)
      else if (s.val rs1 : Int) + d ≥ 2 ^ 128 then raise .LIQUIDITY_OVERFLOW (infoReg rs2)
      else .ok (s.setRegNat rd ((s.val rs1 : Int) + d).toNat) := by
  rw [laddCmd, opndU_of_val_lt hliq, opndDelta_of_slot h1 h2 hr, cmd_bind_ok, cmd_bind_ok, cmd_pure]

/-- Settles O29, by the place of the sum: within 128 bits, below 0, or above. -/
theorem laddAppliesTheDelta : Obligations.LaddAppliesTheDelta := by
  intro s rd rs1 rs2 d hliq h1 h2 hr
  rw [exec_eq_finish, pseudocode, laddCmd_of_slot hliq h1 h2 hr]
  refine ⟨fun m hsum hm => ?sum, fun hneg => ?underflow, fun hbig => ?overflow⟩
  case sum =>
    have hlow : ¬ (m : Int) < 0 := by omega
    have hhigh : ¬ (m : Int) ≥ 2 ^ 128 := by omega
    rw [hsum, if_neg hlow, if_neg hhigh, Int.toNat_natCast, finish_setRegNat]
  case underflow => rw [if_pos hneg, finish_raise]
  case overflow =>
    have hlow : ¬ (s.val rs1 : Int) + d < 0 := by omega
    rw [if_neg hlow, if_pos hbig, finish_raise]

/-! ### FGCHK -/

theorem opndFg_of_le {i : Reg} {s : State} (h : s.val i ≤ Config.maxFeeGrowth) : opndFg i s = .ok (s.val i) :=
  (opndFg_eq_ok i s _).2 ⟨rfl, h⟩

theorem opndFg_of_lt {i : Reg} {s : State} (hbound : Config.maxFeeGrowth < s.val i) (h : s.val i < 2 ^ 256) :
    opndFg i s = raise .RANGE_FEEGROWTH (infoReg i) := by
  simp only [opndFg, opndChecked_eq, if_neg (Nat.not_le.2 h), decide_eq_true_eq, if_neg (Nat.not_le.2 hbound),
    raise_eq]

section
variable {s : State} {rs1 rs2 : Reg}

theorem exec_fgchk_of_le (h1 : s.val rs1 ≤ Config.maxFeeGrowth) :
    exec (.fgchk rs1) s = .next (completed s s.w s.flags) := by
  rw [exec_eq_finish, pseudocode, fgchkCmd, opndFg_of_le h1]
  exact finish_ok s s

theorem exec_fgchk_of_lt (h1 : Config.maxFeeGrowth < s.val rs1) (hw : s.val rs1 < 2 ^ 256) :
    exec (.fgchk rs1) s = .next (faulted s .RANGE_FEEGROWTH (infoReg rs1)) := by
  rw [exec_eq_finish, pseudocode, fgchkCmd, opndFg_of_lt h1 hw]
  exact finish_raise s _ _

/-- FGCHK.MONO of two values in bound: their order decides (R207). -/
theorem exec_fgchkMono_of_le (h1 : s.val rs1 ≤ Config.maxFeeGrowth) (h2 : s.val rs2 ≤ Config.maxFeeGrowth) :
    exec (.fgchkMono rs1 rs2) s = .next (if s.val rs1 < s.val rs2 then faulted s .FEE_GROWTH_DECREASE (infoReg rs1)
      else completed s s.w s.flags) := by
  rw [exec_eq_finish, pseudocode, fgchkMonoCmd, opndFg_of_le h1, opndFg_of_le h2, cmd_bind_ok, cmd_bind_ok]
  split <;> rfl

/-- The previous value is checked after the value, so its fault needs the value in bound (R125, R207). -/
theorem exec_fgchkMono_of_previous_lt (h1 : s.val rs1 ≤ Config.maxFeeGrowth) (h2 : Config.maxFeeGrowth < s.val rs2)
    (hw : s.val rs2 < 2 ^ 256) :
    exec (.fgchkMono rs1 rs2) s = .next (faulted s .RANGE_FEEGROWTH (infoReg rs2)) := by
  rw [exec_eq_finish, pseudocode, fgchkMonoCmd, opndFg_of_le h1, opndFg_of_lt h2 hw, cmd_bind_ok]
  exact finish_raise s _ _

theorem exec_fgchkMono_of_lt (h1 : Config.maxFeeGrowth < s.val rs1) (hw : s.val rs1 < 2 ^ 256) :
    exec (.fgchkMono rs1 rs2) s = .next (faulted s .RANGE_FEEGROWTH (infoReg rs1)) := by
  rw [exec_eq_finish, pseudocode, fgchkMonoCmd, opndFg_of_lt h1 hw]
  exact finish_raise s _ _

end

/-- Settles O30: a previous value that is not above a value in bound is in bound itself. -/
theorem fgchkChecksBoundAndOrder : Obligations.FgchkChecksBoundAndOrder := by
  intro s rs1 rs2
  refine ⟨fun h1 => ⟨exec_fgchk_of_le h1, fun hle => ?notAbove, exec_fgchkMono_of_le h1,
    exec_fgchkMono_of_previous_lt h1⟩, fun h1 hw => ⟨exec_fgchk_of_lt h1 hw, exec_fgchkMono_of_lt h1 hw⟩⟩
  rw [exec_fgchkMono_of_le h1 (hle.trans h1), if_neg (Nat.not_lt.2 hle)]

end Sys2Proof.Machine
end

section
/-! PROOFS, 44_swapstep.md: NXP0 (R231, R232) and NXP1 (R233, R234). -/

namespace Sys2Proof.Machine

/-! ### Rounding -/

/-- What lies below a quotient, rounded either way, lies below the exact quotient. -/
theorem mul_lt_of_lt_rounded {n d m : Nat} {rup : Bool} (h : m < rounded n d rup) : m * d < n :=
  Nat.not_le.1 fun hle => Nat.not_le.2 h (rounded_le rup hle)

/-- A quotient rounded up is at least the exact quotient. -/
theorem le_rounded_mul (n : Nat) {d : Nat} (hd : d ≠ 0) : n ≤ rounded n d true * d := by
  have haccepts := (ceilAccepts_iff hd).2 (rfl : rounded n d true = rounded n d true)
  unfold ceilAccepts at haccepts
  split at haccepts
  next => exact (beq_iff_eq.1 haccepts).trans_le (Nat.zero_le _)
  next => exact of_decide_eq_true (Bool.and_eq_true_iff.1 haccepts).2

/-! ### The next price, in the words of the statements -/

/-- The pair of a next price: the price, or 0 beside the overflow signal (R232, R234). -/
def nextPair (r : Option Nat) : Nat × Bool := (r.getD 0, r.isNone)

theorem representable_eq_some {r q : Nat} : representable r = some q ↔ IsPrice r ∧ r = q := by simp [representable]

theorem nextPrice_eq (r : Nat) : nextPrice r = nextPair (representable r) := by
  have hrange : priceInRange r = true ↔ IsPrice r := by simp [priceInRange]
  simp only [nextPrice, representable, hrange]
  split <;> rfl

/-- The machine's next price under token0 is the statements' (R232). -/
theorem next0_eq (p liq a : Nat) (add : Bool) : next0 p liq a add = nextPair (next0Of p liq a add) := by
  unfold next0 next0Of
  by_cases ha : a = 0
  · rw [if_pos ha, if_pos ha]
    rfl
  rw [if_neg ha, if_neg ha]
  cases add with
  | true =>
    by_cases hliq : liq = 0
    · have hscaled : liq * 2 ^ 128 = 0 := by rw [hliq, Nat.zero_mul]
      rw [if_pos rfl, if_pos rfl, if_pos hliq, if_pos hscaled]
      rfl
    · have hscaled : liq * 2 ^ 128 ≠ 0 := Nat.mul_ne_zero hliq (Nat.two_pow_pos 128).ne'
      have hden : liq * 2 ^ 128 + a * p ≠ 0 := fun h => hscaled (Nat.eq_zero_of_add_eq_zero_right h)
      rw [if_pos rfl, if_pos rfl, if_neg hliq, if_neg hscaled, nextPrice_eq, cdiv_eq_rounded _ hden]
  | false =>
    rw [if_neg Bool.false_ne_true, if_neg Bool.false_ne_true]
    by_cases hle : liq * 2 ^ 128 ≤ a * p
    · rw [if_pos hle, if_pos hle]
      rfl
    · rw [if_neg hle, if_neg hle, nextPrice_eq, cdiv_eq_rounded _ (Nat.sub_ne_zero_of_lt (Nat.not_le.1 hle))]

/-- The machine's next price under token1 is the statements' (R234). -/
theorem next1_eq (p liq a : Nat) (add : Bool) : next1 p liq a add = nextPair (next1Of p liq a add) := by
  unfold next1 next1Of
  by_cases ha : a = 0
  · rw [if_pos ha, if_pos ha]
    rfl
  rw [if_neg ha, if_neg ha]
  by_cases hliq : liq = 0
  · rw [if_pos hliq, if_pos hliq]
    rfl
  rw [if_neg hliq, if_neg hliq]
  cases add with
  | true => rw [if_pos rfl, if_pos rfl, nextPrice_eq, div_eq_rounded]
  | false =>
    rw [if_neg Bool.false_ne_true, if_neg Bool.false_ne_true, cdiv_eq_rounded _ hliq]
    by_cases hle : p ≤ rounded (a * 2 ^ 128) liq true
    · rw [if_pos hle, if_pos hle]
      rfl
    · rw [if_neg hle, if_neg hle, nextPrice_eq]

/-! ### NXP0 and NXP1 -/

section
variable {next : Nat → Nat → Nat → Bool → Nat × Bool} {s t : State} {rd rs1 rs2 rs3 : Reg} {addf : Bool}

/-- A next-price command on operands in range (R231, R233). -/
theorem finish_nxpCmd {r : Option Nat} (hp : IsPrice (s.val rs1)) (hliq : s.val rs2 < 2 ^ 128)
    (ha : s.val rs3 < 2 ^ 128) (hr : next (s.val rs1) (s.val rs2) (s.val rs3) addf = nextPair r) :
    finish s (nxpCmd next rd rs1 rs2 rs3 addf s) =
      .next (completed s (withReg s.w rd (r.getD 0)) { s.flags with ovf := r.isNone }) := by
  rw [nxpCmd, opndPrice_of_isPrice hp, opndU_of_val_lt hliq, opndU_of_val_lt ha, cmd_bind_ok, cmd_bind_ok, cmd_bind_ok,
    hr]
  cases r with
  | none => rfl
  | some q => rfl

/-- A next-price command that took no fault had its operands in range (R231, R233). -/
theorem operands_of_nxpCmd (h : finish s (nxpCmd next rd rs1 rs2 rs3 addf s) = .next t) (he : t.status.err = false) :
    IsPrice (s.val rs1) ∧ s.val rs2 < 2 ^ 128 ∧ s.val rs3 < 2 ^ 128 := by
  obtain ⟨u, hu, -⟩ := finish_ok_of_err_false h he
  obtain ⟨p, liq, a, hp, hliq, ha, -⟩ := nxpCmd_ok next rd rs1 rs2 rs3 addf s u hu
  obtain ⟨rfl, hprice⟩ := (opndPrice_eq_ok rs1 s p).1 hp
  obtain ⟨rfl, hliqLt⟩ := (opndU_eq_ok 128 rs2 s liq).1 hliq
  obtain ⟨rfl, haLt⟩ := (opndU_eq_ok 128 rs3 s a).1 ha
  exact ⟨hprice, hliqLt, haLt⟩

end

/-- Settles O31: the machine's next-price functions are those of the statements. -/
theorem nextPricesFromAmounts : Obligations.NextPricesFromAmounts := by
  intro s rd rs1 rs2 rs3 addf hp hliq ha
  exact ⟨finish_nxpCmd hp hliq ha (next0_eq _ _ _ _), finish_nxpCmd hp hliq ha (next1_eq _ _ _ _)⟩

/-! ### Where the next price lies -/

/-- A product divided by more than its one factor is at most the other. -/
theorem rounded_mul_add_le (x y p : Nat) : rounded (x * p) (x + y) true ≤ p := by
  refine rounded_le true ?_
  rw [Nat.mul_comm]
  exact Nat.mul_le_mul_left p (Nat.le_add_right x y)

/-- A product divided by less than its one factor is at least the other. -/
theorem le_rounded_mul_sub {x y : Nat} (p : Nat) (hyx : y < x) : p ≤ rounded (x * p) (x - y) true := by
  have hden : 0 < x - y := Nat.sub_pos_of_lt hyx
  refine Nat.le_of_mul_le_mul_right ?_ hden
  calc p * (x - y) ≤ p * x := Nat.mul_le_mul_left p (Nat.sub_le x y)
    _ = x * p := Nat.mul_comm p x
    _ ≤ rounded (x * p) (x - y) true * (x - y) := le_rounded_mul _ hden.ne'

section
variable {p q liq a : Nat} {add : Bool}

/-- The next price under token0 is in range; adding does not raise it and removing does not lower it (R232). -/
theorem next0Of_moves (hp : IsPrice p) (h : next0Of p liq a add = some q) :
    IsPrice q ∧ (add = true → q ≤ p) ∧ (add = false → p ≤ q) := by
  unfold next0Of at h
  split_ifs at h with ha hadd hliq hle
  · cases h
    exact ⟨hp, fun _ => le_rfl, fun _ => le_rfl⟩
  · obtain ⟨hq, rfl⟩ := representable_eq_some.1 h
    exact ⟨hq, fun _ => rounded_mul_add_le _ _ p, fun hremove => absurd (hadd.symm.trans hremove) (by decide)⟩
  · obtain ⟨hq, rfl⟩ := representable_eq_some.1 h
    exact ⟨hq, fun hadd' => absurd hadd' hadd, fun _ => le_rounded_mul_sub p (Nat.not_le.1 hle)⟩

/-- The next price under token1 is in range; adding does not lower it and removing does not raise it (R234). -/
theorem next1Of_moves (hp : IsPrice p) (h : next1Of p liq a add = some q) :
    IsPrice q ∧ (add = true → p ≤ q) ∧ (add = false → q ≤ p) := by
  unfold next1Of at h
  split_ifs at h with ha hliq hadd hle
  · cases h
    exact ⟨hp, fun _ => le_rfl, fun _ => le_rfl⟩
  · obtain ⟨hq, rfl⟩ := representable_eq_some.1 h
    exact ⟨hq, fun _ => Nat.le_add_right _ _, fun hremove => absurd (hadd.symm.trans hremove) (by decide)⟩
  · obtain ⟨hq, rfl⟩ := representable_eq_some.1 h
    exact ⟨hq, fun hadd' => absurd hadd' hadd, fun _ => Nat.sub_le _ _⟩

end

/-- A next-price command that completed without a fault and without OVF wrote the next price `r`. -/
theorem nxp_result {s t : State} {rd : Reg} {r : Option Nat}
    (ht : t = completed s (withReg s.w rd (r.getD 0)) { s.flags with ovf := r.isNone }) (hovf : t.flags.ovf = false)
    (hr : ∀ q, r = some q → IsPrice q) : r = some (t.val rd) := by
  subst ht
  cases r with
  | none => cases hovf
  | some q =>
    exact congrArg some (completed_withReg_val s rd q _ (slot_lt_register (isPrice_lt_slot (hr q rfl)))).symm

/-- Settles O32: the result is the price that the statements' function tells, which moves as its formula does. -/
theorem nextPriceMovesWithTheAmount : Obligations.NextPriceMovesWithTheAmount := by
  intro s t rd rs1 rs2 rs3 addf
  refine ⟨fun h he hovf => ?nxp0, fun h he hovf => ?nxp1⟩
  case nxp0 =>
    obtain ⟨hp, hliq, ha⟩ := operands_of_nxpCmd h he
    have ht := (nextPricesFromAmounts s rd rs1 rs2 rs3 addf hp hliq ha).1.symm.trans h
    exact next0Of_moves hp (nxp_result (Host.Outcome.next.inj ht).symm hovf fun q hq => (next0Of_moves hp hq).1)
  case nxp1 =>
    obtain ⟨hp, hliq, ha⟩ := operands_of_nxpCmd h he
    have ht := (nextPricesFromAmounts s rd rs1 rs2 rs3 addf hp hliq ha).2.symm.trans h
    exact next1Of_moves hp (nxp_result (Host.Outcome.next.inj ht).symm hovf fun q hq => (next1Of_moves hp hq).1)

end Sys2Proof.Machine
end

section
/-! PROOFS, 44_swapstep.md: what SWAPI and SWAPO share, which is the operand block, the writing of the results and the
early exits (R235 to R239). -/

namespace Sys2Proof.Machine

/-! ### The operand block -/

/-- The operand block of a swap step is in range (R235). -/
structure SwapOperands.InRange (o : SwapOperands) : Prop where
  start : IsPrice o.start
  limit : IsPrice o.limit
  liq : o.liq < 2 ^ 128
  remaining : o.remaining < 2 ^ 128
  fee : o.fee < 2 ^ 128

/-- The operand block that the registers from `b` on hold (R235). -/
def operandsAt (s : State) (b : Reg) : SwapOperands :=
  ⟨s.val b, s.val (b + 1), s.val (b + 2), s.val (b + 3), s.val (b + 4)⟩

theorem inRange_of_block {s : State} {b : Reg} (h : SwapBlockOk s b) : (operandsAt s b).InRange :=
  let ⟨hstart, hlimit, hliq, hremaining, hfee⟩ := h
  ⟨hstart, hlimit, hliq, hremaining, hfee⟩

theorem swapOperands_of_inRange {s : State} {b : Reg} (h : (operandsAt s b).InRange) :
    swapOperands b s = .ok (operandsAt s b) := by
  obtain ⟨hstart, hlimit, hliq, hremaining, hfee⟩ := h
  rw [swapOperands, opndPrice_of_isPrice hstart, opndPrice_of_isPrice hlimit, opndU_of_val_lt hliq,
    opndU_of_val_lt hremaining, opndU_of_val_lt hfee]
  rfl

/-- A swap step that reads its operand block without a fault finds it in range (R235). -/
theorem inRange_of_swapOperands {s : State} {b : Reg} {o : SwapOperands} (h : swapOperands b s = .ok o) :
    o = operandsAt s b ∧ o.InRange := by
  simp only [swapOperands, cmd_bind_eq_ok, cmd_pure] at h
  obtain ⟨start, hstart, limit, hlimit, liq, hliq, remaining, hremaining, fee, hfee, h⟩ := h
  cases h
  obtain ⟨rfl, hstart⟩ := (opndPrice_eq_ok _ _ _).1 hstart
  obtain ⟨rfl, hlimit⟩ := (opndPrice_eq_ok _ _ _).1 hlimit
  obtain ⟨rfl, hliq⟩ := (opndU_eq_ok _ _ _ _).1 hliq
  obtain ⟨rfl, hremaining⟩ := (opndU_eq_ok _ _ _ _).1 hremaining
  obtain ⟨rfl, hfee⟩ := (opndU_eq_ok _ _ _ _).1 hfee
  exact ⟨rfl, hstart, hlimit, hliq, hremaining, hfee⟩

/-! ### Directions -/

theorem crosses_iff (up : Bool) (p limit : Nat) : crosses up p limit = true ↔ Beyond up p limit := by
  cases up with
  | true => exact decide_eq_true_iff
  | false => exact decide_eq_true_iff

theorem wrongSide_iff (up : Bool) (start limit : Nat) : wrongSide up start limit = true ↔ Beyond up start limit := by
  cases up with
  | true => exact decide_eq_true_iff
  | false => exact decide_eq_true_iff

theorem not_beyond_self (up : Bool) (p : Nat) : ¬ Beyond up p p := by
  cases up with
  | true => exact Nat.lt_irrefl p
  | false => exact Nat.lt_irrefl p

theorem Beyond.ne {up : Bool} {a b : Nat} (h : Beyond up a b) : a ≠ b := by
  rintro rfl
  exact not_beyond_self up a h

theorem Beyond.asymm {up : Bool} {a b : Nat} (h : Beyond up a b) : ¬ Beyond up b a := by
  cases up with
  | true => exact Nat.lt_asymm h
  | false => exact Nat.lt_asymm h

theorem Beyond.of_not {up : Bool} {a b : Nat} (hne : b ≠ a) (h : ¬ Beyond up a b) : Beyond up b a := by
  cases up with
  | true => exact Nat.lt_of_le_of_ne (Nat.not_lt.1 h) hne.symm
  | false => exact Nat.lt_of_le_of_ne (Nat.not_lt.1 h) hne

/-- A step is limited when there is no tentative price or when it passes the limit (R238, R240). -/
theorem limited_iff (up : Bool) (target : Option Nat) (limit : Nat) :
    ((nextPair target).2 || crosses up (nextPair target).1 limit) = true ↔ ∀ p, target = some p → Beyond up p limit := by
  cases target with
  | none => exact ⟨fun _ => nofun, fun _ => rfl⟩
  | some p => exact (crosses_iff up p limit).trans ⟨fun h q hq => Option.some.inj hq ▸ h, fun h => h p rfl⟩

/-! ### What a step writes -/

/-- What of the results is written: on overflow all four are 0 (R129). -/
def SwapResult.visible (r : SwapResult) : SwapResult :=
  if r.overflow then { r with priceNext := 0, amountIn := 0, amountOut := 0, feeAmount := 0 } else r

/-- The result block (R235). -/
def SwapResult.block (r : SwapResult) : List Nat :=
  if r.overflow then [0, 0, 0, 0] else [r.priceNext, r.amountIn, r.amountOut, r.feeAmount]

/-- A computation of a swap step yields the results `v`, but for what an overflow hides. -/
def Yields (c : Cmd SwapResult) (v : SwapResult) : Prop := ∃ r, c = .ok r ∧ r.visible = v.visible

theorem visible_of_overflow {r : SwapResult} (h : r.overflow = true) :
    r.visible = ⟨0, 0, 0, 0, r.limited, true⟩ := by
  rw [SwapResult.visible, if_pos h, h]

theorem visible_of_fits {r : SwapResult} (h : r.overflow = false) : r.visible = r := by
  rw [SwapResult.visible, h]
  rfl

theorem visible_overflow (r : SwapResult) : r.visible.overflow = r.overflow := by
  rw [SwapResult.visible]
  split <;> rfl

/-- Results that do not overflow are the results yielded. -/
theorem Yields.eq_of_fits {c : Cmd SwapResult} {v r : SwapResult} (h : Yields c v) (hr : c = .ok r)
    (hovf : r.overflow = false) : r = v := by
  obtain ⟨r', hr', hv⟩ := h
  cases hr.symm.trans hr'
  have hovfV : v.overflow = false := by rw [← visible_overflow v, ← hv, visible_overflow, hovf]
  rwa [visible_of_fits hovf, visible_of_fits hovfV] at hv

theorem Yields.of_ok {c : Cmd SwapResult} {v : SwapResult} (h : c = .ok v) : Yields c v := ⟨v, h, rfl⟩

theorem writeSwap_visible (rd : Reg) (r : SwapResult) (s : State) : writeSwap rd r.visible s = writeSwap rd r s := by
  cases h : r.overflow with
  | true =>
    rw [visible_of_overflow h]
    simp only [writeSwap, guarded, h, if_true]
  | false => rw [visible_of_fits h]

/-- The third and the fourth register of a block (R93). -/
theorem block_reg (rd : Reg) : rd + 1 + 1 = rd + 2 ∧ rd + 2 + 1 = rd + 3 :=
  ⟨BitVec.add_assoc rd 1 1, BitVec.add_assoc rd 2 1⟩

theorem writeSwap_w (rd : Reg) (r : SwapResult) (s : State) : (writeSwap rd r s).w = withRegs s.w rd r.block := by
  obtain ⟨hthird, hfourth⟩ := block_reg rd
  cases h : r.overflow with
  | true =>
    simp only [SwapResult.block, h, if_true, withRegs, hthird, hfourth, writeSwap, guarded]
    rfl
  | false =>
    simp only [SwapResult.block, h, Bool.false_eq_true, if_false, withRegs, hthird, hfourth, writeSwap, guarded]
    rfl

theorem finish_writeSwap (s : State) (rd : Reg) (r : SwapResult) :
    finish s (.ok (writeSwap rd r s)) =
      .next (completed s (withRegs s.w rd r.block) { s.flags with lim := r.limited, ovf := r.overflow }) := by
  rw [finish_ok, writeSwap_frame, writeSwap_w]
  rfl

section
variable {step : Bool → SwapOperands → Cmd SwapResult} {s t : State} {rd b : Reg} {up : Bool}

theorem swapCmd_of_inRange (ho : (operandsAt s b).InRange) :
    swapCmd step rd b up s = swapResult step up b (operandsAt s b) >>= fun r => .ok (writeSwap rd r s) := by
  rw [swapCmd, swapOperands_of_inRange ho]
  rfl

theorem finish_swapCmd_of_yields {v : SwapResult} (ho : (operandsAt s b).InRange)
    (h : Yields (swapResult step up b (operandsAt s b)) v) :
    finish s (swapCmd step rd b up s) =
      .next (completed s (withRegs s.w rd v.block) { s.flags with lim := v.limited, ovf := v.overflow }) := by
  obtain ⟨r, hr, hv⟩ := h
  rw [swapCmd_of_inRange ho, hr, cmd_bind_ok, ← writeSwap_visible, hv, writeSwap_visible, finish_writeSwap]

/-- A swap step that completed without a fault and without OVF wrote results that do not overflow. -/
theorem swapResult_of_finish (h : finish s (swapCmd step rd b up s) = .next t) (he : t.status.err = false)
    (hovf : t.flags.ovf = false) :
    (operandsAt s b).InRange ∧ ∃ r, swapResult step up b (operandsAt s b) = .ok r ∧ r.overflow = false ∧
      t = (writeSwap rd r s).succeed := by
  obtain ⟨u, hu, rfl⟩ := finish_ok_of_err_false h he
  obtain ⟨o, r, ho, hr, rfl⟩ := swapCmd_ok step rd b up s u hu
  obtain ⟨rfl, hrange⟩ := inRange_of_swapOperands ho
  exact ⟨hrange, r, hr, hovf, rfl⟩

end

/-- The registers of the result block after results that do not overflow (R235). -/
theorem writeSwap_reg {s : State} {rd : Reg} {r : SwapResult} (hovf : r.overflow = false) :
    (writeSwap rd r s).reg rd = BitVec.ofNat 512 r.priceNext ∧
    (writeSwap rd r s).reg (rd + 1) = BitVec.ofNat 512 r.amountIn ∧
    (writeSwap rd r s).reg (rd + 2) = BitVec.ofNat 512 r.amountOut ∧
    (writeSwap rd r s).reg (rd + 3) = BitVec.ofNat 512 r.feeAmount := by
  have hne : rd ≠ rd + 1 ∧ rd ≠ rd + 2 ∧ rd ≠ rd + 3 ∧ rd + 1 ≠ rd + 2 ∧ rd + 1 ≠ rd + 3 ∧ rd + 2 ≠ rd + 3 := by
    revert rd
    decide
  obtain ⟨h01, h02, h03, h12, h13, h23⟩ := hne
  simp only [writeSwap, hovf, guarded, setOvf_reg, setLim_reg, Bool.false_eq_true, if_false]
  refine ⟨?price, ?amountIn, ?amountOut, ?fee⟩
  case price =>
    rw [setRegNat_reg_other _ _ _ _ h03, setRegNat_reg_other _ _ _ _ h02, setRegNat_reg_other _ _ _ _ h01,
      setRegNat_reg_same]
  case amountIn => rw [setRegNat_reg_other _ _ _ _ h13, setRegNat_reg_other _ _ _ _ h12, setRegNat_reg_same]
  case amountOut => rw [setRegNat_reg_other _ _ _ _ h23, setRegNat_reg_same]
  case fee => rw [setRegNat_reg_same]

/-! ### The early exits -/

/-- The results when there is no amount or no distance (R239, exit 1). -/
def SwapOperands.stay (o : SwapOperands) : SwapResult := ⟨o.start, 0, 0, 0, false, false⟩

/-- The results when there is no liquidity (R239, exit 3). -/
def SwapOperands.jump (o : SwapOperands) : SwapResult := ⟨o.limit, 0, 0, 0, true, false⟩

section
variable {step : Bool → SwapOperands → Cmd SwapResult} {up : Bool} {b : Reg} {o : SwapOperands}

theorem swapResult_stay (h : o.remaining = 0 ∨ o.limit = o.start) : swapResult step up b o = .ok o.stay := by
  rw [swapResult, swapEarly, if_pos h]
  rfl

theorem not_stay (ha : o.remaining ≠ 0) (hne : o.limit ≠ o.start) : ¬ (o.remaining = 0 ∨ o.limit = o.start) :=
  not_or.2 ⟨ha, hne⟩

theorem swapResult_wrongSide (ha : o.remaining ≠ 0) (hdir : Beyond up o.start o.limit) :
    swapResult step up b o = raise .WRONG_DIRECTION (infoReg (b + 1)) := by
  rw [swapResult, swapEarly, if_neg (not_stay ha hdir.ne.symm), if_pos ((wrongSide_iff _ _ _).2 hdir)]
  rfl

/-- Past the first two exits. -/
theorem swapEarly_of_right_side (ha : o.remaining ≠ 0) (hdir : Beyond up o.limit o.start) :
    swapEarly up b o = if o.liq = 0 then .ok (some o.jump) else .ok none := by
  rw [swapEarly, if_neg (not_stay ha hdir.ne), if_neg ((wrongSide_iff _ _ _).not.2 hdir.asymm)]
  rfl

theorem swapResult_jump (ha : o.remaining ≠ 0) (hdir : Beyond up o.limit o.start) (hliq : o.liq = 0) :
    swapResult step up b o = .ok o.jump := by
  rw [swapResult, swapEarly_of_right_side ha hdir, if_pos hliq]
  rfl

theorem swapResult_step (ha : o.remaining ≠ 0) (hdir : Beyond up o.limit o.start) (hliq : o.liq ≠ 0) :
    swapResult step up b o = step up o := by
  rw [swapResult, swapEarly_of_right_side ha hdir, if_neg hliq]
  rfl

end

/-- Both swap commands are one command over their step (R235). -/
theorem exec_swap (s : State) {rd b : Reg} {up : Bool} {i : Instr} (hi : i = .swapi rd b up ∨ i = .swapo rd b up) :
    ∃ step, exec i s = finish s (swapCmd step rd b up s) := by
  obtain rfl | rfl := hi
  · exact ⟨swapInStep, exec_eq_finish _ s⟩
  · exact ⟨swapOutStep, exec_eq_finish _ s⟩

/-- Settles O33: the exits come before the step, so they are those of both commands. -/
theorem swapStepsLeaveEarly : Obligations.SwapStepsLeaveEarly := by
  intro s rd b up i hi hblock
  obtain ⟨step, hexec⟩ := exec_swap s hi
  have ho := inRange_of_block hblock
  rw [hexec]
  refine ⟨fun h => ?stay, fun ha hdir => ?wrongSide, fun ha hdir hliq => ?jump⟩
  case stay => exact finish_swapCmd_of_yields ho (.of_ok (swapResult_stay h))
  case wrongSide =>
    have hraise : swapResult step up b (operandsAt s b) = raise .WRONG_DIRECTION (infoReg (b + 1)) :=
      swapResult_wrongSide ha hdir
    rw [swapCmd_of_inRange ho, hraise]
    exact finish_raise s .WRONG_DIRECTION _
  case jump => exact finish_swapCmd_of_yields ho (.of_ok (swapResult_jump ha hdir hliq))

end Sys2Proof.Machine
end

section
/-! PROOFS, 44_swapstep.md: the step of SWAPI (R240 to R243) and of SWAPO (R250, R251) past the early exits. -/

namespace Sys2Proof.Machine

/-! ### Amounts, in the words of the statements -/

theorem amountPair_of_fits {r : Nat} (h : r < 2 ^ 128) : amountPair r = (r, false) := by
  have hfits : overflows128 r = false := decide_eq_false (Nat.not_le.2 h)
  rw [amountPair, hfits]
  rfl

theorem amountPair_of_overflow {r : Nat} (h : 2 ^ 128 ≤ r) : amountPair r = (0, true) := by
  have hbig : overflows128 r = true := decide_eq_true h
  rw [amountPair, hbig]
  rfl

section
variable {up : Bool} {pA pB liq : Nat}

theorem inAmount_eq (hA : IsPrice pA) (hB : IsPrice pB) (hliq : liq < 2 ^ 128) :
    inAmount up pA pB liq true = .ok (amountPair (inputOf up pA pB liq)) := by
  cases up with
  | true => rfl
  | false => exact amount0_eq true (isPrice_pos hA) (isPrice_pos hB) hliq

theorem outAmount_eq (hA : IsPrice pA) (hB : IsPrice pB) (hliq : liq < 2 ^ 128) :
    outAmount up pA pB liq false = .ok (amountPair (outputOf up pA pB liq)) := by
  cases up with
  | true => exact amount0_eq false (isPrice_pos hA) (isPrice_pos hB) hliq
  | false => rfl

end

theorem gross_eq (net : Nat) {f : Nat} (hf : f < 2 ^ 128) : gross net f = grossOf net f :=
  cdiv_eq_rounded _ (Nat.sub_ne_zero_of_lt hf)

/-! ### The results of a step -/

/-- The results of a step that takes in a net amount and the fee on it (R237, R240, R250). -/
def charged (price net out f : Nat) (lim : Bool) : SwapResult :=
  ⟨price, grossOf net f, out, grossOf net f - net, lim,
    decide (2 ^ 128 ≤ net ∨ 2 ^ 128 ≤ out ∨ 2 ^ 128 ≤ grossOf net f)⟩

/-- The machine puts these results together from the pairs of the two amounts: one that does not fit hides the others. -/
theorem charged_visible (price net out : Nat) {f : Nat} (lim : Bool) (hf : f < 2 ^ 128) :
    (SwapResult.mk price (gross (amountPair net).1 f) (amountPair out).1
      (gross (amountPair net).1 f - (amountPair net).1) lim
      ((amountPair net).2 || (amountPair out).2 || overflows128 (gross (amountPair net).1 f))).visible =
      (charged price net out f lim).visible := by
  by_cases hnet : 2 ^ 128 ≤ net
  · rw [amountPair_of_overflow hnet, visible_of_overflow rfl,
      visible_of_overflow (decide_eq_true (Or.inl hnet) : (charged price net out f lim).overflow = true)]
    rfl
  rw [amountPair_of_fits (Nat.not_le.1 hnet)]
  by_cases hout : 2 ^ 128 ≤ out
  · rw [amountPair_of_overflow hout, visible_of_overflow rfl,
      visible_of_overflow (decide_eq_true (Or.inr (Or.inl hout)) : (charged price net out f lim).overflow = true)]
    rfl
  rw [amountPair_of_fits (Nat.not_le.1 hout), gross_eq net hf, charged]
  simp only [hnet, hout, false_or, Bool.false_or, overflows128]

namespace SwapOperands
variable (up : Bool) (o : SwapOperands)

/-- The fee carved out of the amount of an exact-input step (R240). -/
def inFee : Nat := rounded (o.remaining * o.fee) (2 ^ 128) true

/-- The tentative price of an exact-input step; none is the overflow signal (R240). -/
def inTarget : Option Nat :=
  if up = true then next1Of o.start o.liq (o.remaining - o.inFee) true
  else next0Of o.start o.liq (o.remaining - o.inFee) true

/-- The tentative price of an exact-output step; none is the overflow signal (R250). -/
def outTarget : Option Nat :=
  if up = true then next0Of o.start o.liq o.remaining false else next1Of o.start o.liq o.remaining false

/-- The results of an unlimited exact-input step to price `p` (R240). -/
def inUnlimited (p : Nat) : SwapResult :=
  ⟨p, o.remaining, outputOf up p o.start o.liq, o.inFee, false, decide (2 ^ 128 ≤ outputOf up p o.start o.liq)⟩

/-- The results of an unlimited exact-output step to price `p` (R250). -/
def outUnlimited (p : Nat) : SwapResult := charged p (inputOf up p o.start o.liq) o.remaining o.fee false

/-- The results of a limited step (R240, R250). -/
def limitedResult : SwapResult :=
  charged o.limit (inputOf up o.limit o.start o.liq) (outputOf up o.limit o.start o.liq) o.fee true

theorem inTarget_up : o.inTarget true = next1Of o.start o.liq (o.remaining - o.inFee) true := if_pos rfl

theorem inTarget_down : o.inTarget false = next0Of o.start o.liq (o.remaining - o.inFee) true :=
  if_neg Bool.false_ne_true

theorem outTarget_up : o.outTarget true = next0Of o.start o.liq o.remaining false := if_pos rfl

theorem outTarget_down : o.outTarget false = next1Of o.start o.liq o.remaining false := if_neg Bool.false_ne_true

end SwapOperands

/-- The fee is within the amount in, and both amounts fit 128 bits. -/
structure AmountsFit (r : SwapResult) : Prop where
  fee_le : r.feeAmount ≤ r.amountIn
  amountIn_lt : r.amountIn < 2 ^ 128
  amountOut_lt : r.amountOut < 2 ^ 128

/-- The results of a step with a net amount and the fee on it, when none of its amounts overflows. -/
theorem charged_amountsFit {price net out f : Nat} {lim : Bool} (h : (charged price net out f lim).overflow = false) :
    AmountsFit (charged price net out f lim) := by
  have hfits : ¬ (2 ^ 128 ≤ net ∨ 2 ^ 128 ≤ out ∨ 2 ^ 128 ≤ grossOf net f) := of_decide_eq_false h
  simp only [not_or, Nat.not_le] at hfits
  obtain ⟨-, hout, hgross⟩ := hfits
  exact ⟨Nat.sub_le _ _, hgross, hout⟩

theorem inUnlimited_amountsFit {up : Bool} {o : SwapOperands} {p : Nat} (ho : o.InRange)
    (h : (o.inUnlimited up p).overflow = false) : AmountsFit (o.inUnlimited up p) :=
  ⟨rounded_le true (Nat.mul_le_mul_left _ ho.fee.le), ho.remaining, Nat.not_le.1 (of_decide_eq_false h)⟩

/-- What a swap step comes to past the early exits, for its tentative price and its unlimited results (R240, R250). -/
structure MeetsSwapRule (step : Bool → SwapOperands → Cmd SwapResult) (target : Bool → SwapOperands → Option Nat)
    (unlimited : Bool → SwapOperands → Nat → SwapResult) : Prop where
  /-- a tentative price that does not pass the limit makes the step unlimited -/
  unlimited_of {up o p} (ho : o.InRange) (ht : target up o = some p) (hp : ¬ Beyond up p o.limit) :
    Yields (step up o) (unlimited up o p)
  /-- no tentative price, or one that passes the limit, makes the step limited -/
  limited_of {up o} (ho : o.InRange) (ht : ∀ p, target up o = some p → Beyond up p o.limit) :
    Yields (step up o) (o.limitedResult up)
  /-- the tentative price is in range and not on the wrong side of the start -/
  target_moves {up o p} (ho : o.InRange) (ht : target up o = some p) : IsPrice p ∧ ¬ Beyond up o.start p
  /-- an unlimited step ends at the tentative price -/
  unlimited_price (up o p) : (unlimited up o p).priceNext = p
  /-- the amounts of an unlimited step that does not overflow fit -/
  unlimited_amountsFit {up o p} (ho : o.InRange) (h : (unlimited up o p).overflow = false) :
    AmountsFit (unlimited up o p)

section
variable {up : Bool} {o : SwapOperands} {p : Nat}

theorem inTarget_moves (ho : o.InRange) (ht : o.inTarget up = some p) : IsPrice p ∧ ¬ Beyond up o.start p := by
  cases up with
  | true =>
    rw [o.inTarget_up] at ht
    obtain ⟨hp, hup, -⟩ := next1Of_moves ho.start ht
    exact ⟨hp, Nat.not_lt.2 (hup rfl)⟩
  | false =>
    rw [o.inTarget_down] at ht
    obtain ⟨hp, hdown, -⟩ := next0Of_moves ho.start ht
    exact ⟨hp, Nat.not_lt.2 (hdown rfl)⟩

theorem outTarget_moves (ho : o.InRange) (ht : o.outTarget up = some p) : IsPrice p ∧ ¬ Beyond up o.start p := by
  cases up with
  | true =>
    rw [o.outTarget_up] at ht
    obtain ⟨hp, -, hup⟩ := next0Of_moves ho.start ht
    exact ⟨hp, Nat.not_lt.2 (hup rfl)⟩
  | false =>
    rw [o.outTarget_down] at ht
    obtain ⟨hp, -, hdown⟩ := next1Of_moves ho.start ht
    exact ⟨hp, Nat.not_lt.2 (hdown rfl)⟩

/-- The machine's tentative price of an exact-input step is the statements' (R240). -/
theorem inTarget_eq (up : Bool) (o : SwapOperands) :
    (if up then next1 o.start o.liq (o.remaining - cdiv (o.remaining * o.fee) (2 ^ 128)) true
      else next0 o.start o.liq (o.remaining - cdiv (o.remaining * o.fee) (2 ^ 128)) true) =
      nextPair (o.inTarget up) := by
  rw [cdiv_eq_rounded _ (Nat.two_pow_pos 128).ne', ← SwapOperands.inFee, next0_eq, next1_eq]
  cases up with
  | true => rw [o.inTarget_up, if_pos rfl]
  | false => rw [o.inTarget_down, if_neg Bool.false_ne_true]

/-- The machine's tentative price of an exact-output step is the statements' (R250). -/
theorem outTarget_eq (up : Bool) (o : SwapOperands) :
    (if up then next0 o.start o.liq o.remaining false else next1 o.start o.liq o.remaining false) =
      nextPair (o.outTarget up) := by
  rw [next0_eq, next1_eq]
  cases up with
  | true => rw [o.outTarget_up, if_pos rfl]
  | false => rw [o.outTarget_down, if_neg Bool.false_ne_true]

/-- The results of an unlimited exact-input step: an amount out that does not fit hides the others. -/
theorem inUnlimited_visible (up : Bool) (o : SwapOperands) (p : Nat) :
    (SwapResult.mk p o.remaining (amountPair (outputOf up p o.start o.liq)).1 (cdiv (o.remaining * o.fee) (2 ^ 128)) false
      (amountPair (outputOf up p o.start o.liq)).2).visible = (o.inUnlimited up p).visible := by
  by_cases hout : 2 ^ 128 ≤ outputOf up p o.start o.liq
  · rw [amountPair_of_overflow hout, visible_of_overflow rfl,
      visible_of_overflow (decide_eq_true hout : (o.inUnlimited up p).overflow = true)]
    rfl
  · rw [amountPair_of_fits (Nat.not_le.1 hout), cdiv_eq_rounded _ (Nat.two_pow_pos 128).ne', SwapOperands.inUnlimited,
      SwapOperands.inFee, decide_eq_false hout]

/-- The results of an unlimited exact-output step: the amount asked for always fits. -/
theorem outUnlimited_visible (up : Bool) {o : SwapOperands} (ho : o.InRange) (p : Nat) :
    (SwapResult.mk p (gross (amountPair (inputOf up p o.start o.liq)).1 o.fee) o.remaining
      (gross (amountPair (inputOf up p o.start o.liq)).1 o.fee - (amountPair (inputOf up p o.start o.liq)).1) false
      ((amountPair (inputOf up p o.start o.liq)).2 ||
        overflows128 (gross (amountPair (inputOf up p o.start o.liq)).1 o.fee))).visible =
      (o.outUnlimited up p).visible := by
  have hcharged := charged_visible p (inputOf up p o.start o.liq) o.remaining false ho.fee
  rwa [amountPair_of_fits ho.remaining, Bool.or_false] at hcharged

theorem crosses_eq_false {limit : Nat} (hp : ¬ Beyond up p limit) : crosses up p limit = false :=
  Bool.eq_false_iff.2 ((crosses_iff up p limit).not.2 hp)

theorem nextPair_some (p : Nat) : nextPair (some p) = (p, false) := rfl

/-- The exact-input step does what R240 says. -/
theorem swapInStep_meets : MeetsSwapRule swapInStep (fun up o => o.inTarget up) (fun up o => o.inUnlimited up) where
  unlimited_of {up o p} ho ht hp := by
    have hprice := (inTarget_moves ho ht).1
    simp only [swapInStep, inTarget_eq, ht, nextPair_some, crosses_eq_false hp, Bool.or_false, Bool.false_eq_true,
      if_false, outAmount_eq hprice ho.start ho.liq, cmd_bind_ok, cmd_pure]
    exact ⟨_, rfl, inUnlimited_visible up o p⟩
  limited_of {up o} ho ht := by
    have hstop := (limited_iff up _ o.limit).2 ht
    simp only [swapInStep, inTarget_eq, if_pos hstop, outAmount_eq ho.limit ho.start ho.liq,
      inAmount_eq ho.limit ho.start ho.liq, cmd_bind_ok, cmd_pure]
    exact ⟨_, rfl, charged_visible _ _ _ _ ho.fee⟩
  target_moves ho ht := inTarget_moves ho ht
  unlimited_price _ _ _ := rfl
  unlimited_amountsFit := fun ho h => inUnlimited_amountsFit ho h

/-- The exact-output step does what R250 says. -/
theorem swapOutStep_meets : MeetsSwapRule swapOutStep (fun up o => o.outTarget up) (fun up o => o.outUnlimited up) where
  unlimited_of {up o p} ho ht hp := by
    have hprice := (outTarget_moves ho ht).1
    simp only [swapOutStep, outTarget_eq, ht, nextPair_some, crosses_eq_false hp, Bool.or_false, Bool.false_eq_true,
      if_false, inAmount_eq hprice ho.start ho.liq, cmd_bind_ok, cmd_pure]
    exact ⟨_, rfl, outUnlimited_visible up ho p⟩
  limited_of {up o} ho ht := by
    have hstop := (limited_iff up _ o.limit).2 ht
    simp only [swapOutStep, outTarget_eq, if_pos hstop, outAmount_eq ho.limit ho.start ho.liq,
      inAmount_eq ho.limit ho.start ho.liq, cmd_bind_ok, cmd_pure]
    exact ⟨_, rfl, charged_visible _ _ _ _ ho.fee⟩
  target_moves ho ht := outTarget_moves ho ht
  unlimited_price _ _ _ := rfl
  unlimited_amountsFit := fun _ h => charged_amountsFit h

end

/-! ### SWAPI and SWAPO -/

theorem block_of_decide (price amountIn amountOut fee : Nat) (lim : Bool) (tooBig : Prop) [Decidable tooBig] :
    (SwapResult.mk price amountIn amountOut fee lim (decide tooBig)).block =
      if tooBig then [0, 0, 0, 0] else [price, amountIn, amountOut, fee] := by
  simp only [SwapResult.block, decide_eq_true_eq]

/-- A swap command past the early exits, for a step that yields `v` (R235). -/
theorem finish_swapCmd_of_step {step : Bool → SwapOperands → Cmd SwapResult} {s : State} {rd b : Reg} {up : Bool}
    {v : SwapResult} (ho : (operandsAt s b).InRange) (ha : s.val (b + 3) ≠ 0)
    (hdir : Beyond up (s.val (b + 1)) (s.val b)) (hliq : s.val (b + 2) ≠ 0) (h : Yields (step up (operandsAt s b)) v) :
    finish s (swapCmd step rd b up s) =
      .next (completed s (withRegs s.w rd v.block) { s.flags with lim := v.limited, ovf := v.overflow }) := by
  have hstep : swapResult step up b (operandsAt s b) = step up (operandsAt s b) := swapResult_step ha hdir hliq
  exact finish_swapCmd_of_yields ho (hstep ▸ h)

/-- Settles O34: the exact-input step meets its rule. -/
theorem swapiTakesOneStep : Obligations.SwapiTakesOneStep := by
  intro s rd b up hblock start limit liq amount f fee target ha hdir hliq
  have ho := inRange_of_block hblock
  refine ⟨fun p ht hp => ?unlimited, fun ht => ?limited⟩
  case unlimited =>
    intro out
    rw [← block_of_decide]
    exact finish_swapCmd_of_step ho ha hdir hliq (swapInStep_meets.unlimited_of ho ht hp)
  case limited =>
    intro net out gross tooBig
    rw [← block_of_decide]
    exact finish_swapCmd_of_step ho ha hdir hliq (swapInStep_meets.limited_of ho ht)

/-- Settles O35: the exact-output step meets its rule, and the amount asked for fits 128 bits. -/
theorem swapoTakesOneStep : Obligations.SwapoTakesOneStep := by
  intro s rd b up hblock start limit liq amount f target ha hdir hliq
  have ho := inRange_of_block hblock
  refine ⟨fun p ht hp => ?unlimited, fun ht => ?limited⟩
  case unlimited =>
    intro net gross tooBig
    have hfits : tooBig ↔ 2 ^ 128 ≤ net ∨ 2 ^ 128 ≤ amount ∨ 2 ^ 128 ≤ gross := by
      have hamount : ¬ 2 ^ 128 ≤ amount := Nat.not_le.2 ho.remaining
      simp only [tooBig, hamount, false_or]
    simp only [hfits]
    rw [← block_of_decide]
    exact finish_swapCmd_of_step ho ha hdir hliq (swapOutStep_meets.unlimited_of ho ht hp)
  case limited =>
    intro net out gross tooBig
    rw [← block_of_decide]
    exact finish_swapCmd_of_step ho ha hdir hliq (swapOutStep_meets.limited_of ho ht)

end Sys2Proof.Machine
end

section
/-! PROOFS, 44_swapstep.md: where a swap step that does not overflow ends, and what it takes and gives (R243, R251). -/

namespace Sys2Proof.Machine

/-! ### What a limited step needs: the amount that the limit is away -/

/-- A price not below the range that is above `l` whenever it is representable is above `l`. -/
theorem lt_of_representable {l r : Nat} (hl : IsPrice l) (hr : minSqrtRatio ≤ r)
    (h : ∀ q, representable r = some q → l < q) : l < r :=
  Nat.not_le.1 fun hle => Nat.not_lt.2 hle (h r (representable_eq_some.2 ⟨⟨hr, hle.trans hl.2⟩, rfl⟩))

/-- A price not above the range that is below `l` whenever it is representable is below `l`. -/
theorem representable_lt {l r : Nat} (hl : IsPrice l) (hr : r ≤ maxSqrtRatio)
    (h : ∀ q, representable r = some q → q < l) : r < l :=
  Nat.not_le.1 fun hle => Nat.not_lt.2 hle (h r (representable_eq_some.2 ⟨⟨hl.1.trans hle, hr⟩, rfl⟩))

section
variable {p l liq a : Nat} (hp : IsPrice p) (hl : IsPrice l)
include hp hl

/-- Token1 that lifts the price past `l`, or out of range, covers the way to `l` (R234). -/
theorem next1Of_add_covers (hpl : p < l) (hliq : liq ≠ 0) (h : ∀ q, next1Of p liq a true = some q → l < q) :
    (l - p) * liq ≤ a * 2 ^ 128 := by
  unfold next1Of at h
  by_cases ha : a = 0
  · rw [if_pos ha] at h
    exact absurd (h p rfl) hpl.asymm
  rw [if_neg ha, if_neg hliq, if_pos rfl] at h
  have hbeyond := lt_of_representable hl (hp.1.trans (Nat.le_add_right _ _)) h
  have hway : l - p < rounded (a * 2 ^ 128) liq false := by omega
  exact (mul_lt_of_lt_rounded hway).le

/-- Token1 that is removed and lowers the price past `l`, or out of range, covers the way to `l` (R234). -/
theorem next1Of_remove_covers (hlp : l < p) (hliq : liq ≠ 0) (h : ∀ q, next1Of p liq a false = some q → q < l) :
    (p - l) * liq ≤ a * 2 ^ 128 := by
  unfold next1Of at h
  by_cases ha : a = 0
  · rw [if_pos ha] at h
    exact absurd (h p rfl) hlp.asymm
  rw [if_neg ha, if_neg hliq, if_neg Bool.false_ne_true] at h
  have hway : p - l < rounded (a * 2 ^ 128) liq true := by
    have hpos := isPrice_pos hl
    split_ifs at h with hle
    · omega
    · have hbelow := representable_lt hl ((Nat.sub_le _ _).trans hp.2) h
      omega
  exact (mul_lt_of_lt_rounded hway).le

/-- Token0 that lowers the price past `l`, or out of range, covers the way to `l` (R232). -/
theorem next0Of_add_covers (hlp : l < p) (hliq : liq ≠ 0) (h : ∀ q, next0Of p liq a true = some q → q < l) :
    liq * 2 ^ 128 * (p - l) ≤ a * l * p := by
  unfold next0Of at h
  by_cases ha : a = 0
  · rw [if_pos ha] at h
    exact absurd (h p rfl) hlp.asymm
  rw [if_neg ha, if_pos rfl, if_neg hliq] at h
  have hscaled : liq * 2 ^ 128 ≠ 0 := Nat.mul_ne_zero hliq (Nat.two_pow_pos 128).ne'
  generalize liq * 2 ^ 128 = scaled at h hscaled ⊢
  have hden : scaled + a * p ≠ 0 := fun hzero => hscaled (Nat.eq_zero_of_add_eq_zero_right hzero)
  have hbelow := representable_lt hl ((rounded_mul_add_le scaled (a * p) p).trans hp.2) h
  rw [Nat.mul_sub, Nat.sub_le_iff_le_add]
  calc scaled * p ≤ rounded (scaled * p) (scaled + a * p) true * (scaled + a * p) := le_rounded_mul _ hden
    _ ≤ l * (scaled + a * p) := Nat.mul_le_mul_right _ hbelow.le
    _ = a * l * p + scaled * l := by ring

/-- Token0 that is removed and lifts the price past `l`, or out of range, covers the way to `l` (R232). -/
theorem next0Of_remove_covers (hpl : p < l) (h : ∀ q, next0Of p liq a false = some q → l < q) :
    liq * 2 ^ 128 * (l - p) ≤ a * p * l := by
  unfold next0Of at h
  by_cases ha : a = 0
  · rw [if_pos ha] at h
    exact absurd (h p rfl) hpl.asymm
  rw [if_neg ha, if_neg Bool.false_ne_true] at h
  generalize liq * 2 ^ 128 = scaled at h ⊢
  by_cases hle : scaled ≤ a * p
  · exact Nat.mul_le_mul hle (Nat.sub_le _ _)
  rw [if_neg hle] at h
  have habove := lt_of_representable hl (hp.1.trans (le_rounded_mul_sub p (Nat.not_le.1 hle))) h
  have hway : l * (scaled - a * p) < scaled * p := mul_lt_of_lt_rounded habove
  rw [Nat.mul_sub, Nat.sub_lt_iff_lt_add (Nat.mul_le_mul_left l (Nat.not_le.1 hle).le)] at hway
  rw [Nat.mul_sub, Nat.sub_le_iff_le_add]
  calc scaled * l = l * scaled := Nat.mul_comm _ _
    _ ≤ scaled * p + l * (a * p) := hway.le
    _ = a * p * l + scaled * p := by ring

end

/-! ### The amounts of a limited step stay within the request -/

/-- The amount of token0 to a limit, rounded either way, is at most an amount that covers the way (R202). -/
theorem amount0Of_le {pA pB liq a : Nat} (rup : Bool)
    (h : liq * 2 ^ 128 * (max pA pB - min pA pB) ≤ a * min pA pB * max pA pB) : amount0Of pA pB liq rup ≤ a :=
  rounded_le rup (rounded_le rup h)

/-- The amount of token1 to a limit, rounded either way, is at most an amount that covers the way (R204). -/
theorem amount1Of_le {pA pB liq a : Nat} (rup : Bool) (h : (max pA pB - min pA pB) * liq ≤ a * 2 ^ 128) :
    amount1Of pA pB liq rup ≤ a := rounded_le rup h

/-- The gross amount of what is left of an amount after its fee is at most that amount (R237, R240). -/
theorem grossOf_le {net amount f : Nat} (hnet : net ≤ amount - rounded (amount * f) (2 ^ 128) true) :
    grossOf net f ≤ amount := by
  refine rounded_le true ?_
  have hfee := le_rounded_mul (amount * f) (Nat.two_pow_pos 128).ne'
  generalize rounded (amount * f) (2 ^ 128) true = fee at hnet hfee
  calc net * 2 ^ 128 ≤ (amount - fee) * 2 ^ 128 := Nat.mul_le_mul_right _ hnet
    _ = amount * 2 ^ 128 - fee * 2 ^ 128 := Nat.sub_mul _ _ _
    _ ≤ amount * 2 ^ 128 - amount * f := Nat.sub_le_sub_left hfee _
    _ = amount * (2 ^ 128 - f) := (Nat.mul_sub _ _ _).symm

section
variable {up : Bool} {o : SwapOperands} (ho : o.InRange) (hdir : Beyond up o.limit o.start) (hliq : o.liq ≠ 0)
include ho hdir hliq

/-- A limited exact-input step takes in at most the amount (R243). -/
theorem limited_amountIn_le (ht : ∀ p, o.inTarget up = some p → Beyond up p o.limit) :
    (o.limitedResult up).amountIn ≤ o.remaining := by
  refine grossOf_le ?_
  change inputOf up o.limit o.start o.liq ≤ o.remaining - o.inFee
  cases up with
  | true =>
    have hlt : o.start < o.limit := hdir
    rw [o.inTarget_up] at ht
    refine amount1Of_le true ?_
    rw [max_eq_left hlt.le, min_eq_right hlt.le]
    exact next1Of_add_covers ho.start ho.limit hlt hliq ht
  | false =>
    have hlt : o.limit < o.start := hdir
    rw [o.inTarget_down] at ht
    refine amount0Of_le true ?_
    rw [max_eq_right hlt.le, min_eq_left hlt.le]
    exact next0Of_add_covers ho.start ho.limit hlt hliq ht

/-- A limited exact-output step gives at most the amount (R251). -/
theorem limited_amountOut_le (ht : ∀ p, o.outTarget up = some p → Beyond up p o.limit) :
    (o.limitedResult up).amountOut ≤ o.remaining := by
  change outputOf up o.limit o.start o.liq ≤ o.remaining
  cases up with
  | true =>
    have hlt : o.start < o.limit := hdir
    rw [o.outTarget_up] at ht
    refine amount0Of_le false ?_
    rw [max_eq_left hlt.le, min_eq_right hlt.le]
    exact next0Of_remove_covers ho.start ho.limit hlt ht
  | false =>
    have hlt : o.limit < o.start := hdir
    rw [o.outTarget_down] at ht
    refine amount1Of_le false ?_
    rw [max_eq_right hlt.le, min_eq_left hlt.le]
    exact next1Of_remove_covers ho.start ho.limit hlt hliq ht

end

/-! ### How a swap step that does not overflow can end -/

/-- The results a swap step can come to, by its exits, for its tentative price and its unlimited results (R239, R240,
R250). -/
inductive SwapOutcome (target : Option Nat) (unlimited : Nat → SwapResult) (up : Bool) (o : SwapOperands) :
    SwapResult → Prop
  | stay (h : o.remaining = 0 ∨ o.limit = o.start) : SwapOutcome target unlimited up o o.stay
  | jump (hdir : Beyond up o.limit o.start) : SwapOutcome target unlimited up o o.jump
  | unlimited {p} (ht : target = some p) (hp : ¬ Beyond up p o.limit) : SwapOutcome target unlimited up o (unlimited p)
  | limited (hdir : Beyond up o.limit o.start) (hliq : o.liq ≠ 0) (ht : ∀ p, target = some p → Beyond up p o.limit) :
    SwapOutcome target unlimited up o (o.limitedResult up)

/-- The state holds the results in the block from `rd` on and in FLAGS.LIM. -/
structure HoldsResult (t : State) (rd : Reg) (r : SwapResult) : Prop where
  price : t.val rd = r.priceNext
  amountIn : t.val (rd + 1) = r.amountIn
  amountOut : t.val (rd + 2) = r.amountOut
  fee : t.val (rd + 3) = r.feeAmount
  lim : t.flags.lim = r.limited

/-- A register that was written a value of at most 256 bits holds it. -/
theorem val_of_reg {t : State} {i : Reg} {v : Nat} (h : t.reg i = BitVec.ofNat 512 v) (hv : v < 2 ^ 256) :
    t.val i = v := by
  rw [State.val, h, BitVec.toNat_ofNat, Nat.mod_eq_of_lt (slot_lt_register hv)]

theorem writeSwap_holds {s : State} {rd : Reg} {r : SwapResult} (hovf : r.overflow = false) (hprice : IsPrice r.priceNext)
    (hfit : AmountsFit r) : HoldsResult (writeSwap rd r s).succeed rd r := by
  obtain ⟨hp, hin, hout, hfee⟩ := writeSwap_reg (s := s) (rd := rd) hovf
  have hslot {v : Nat} (hv : v < 2 ^ 128) : v < 2 ^ 256 := hv.trans (by decide)
  exact ⟨val_of_reg hp (isPrice_lt_slot hprice), val_of_reg hin (hslot hfit.amountIn_lt),
    val_of_reg hout (hslot hfit.amountOut_lt), val_of_reg hfee (hslot (hfit.fee_le.trans_lt hfit.amountIn_lt)), rfl⟩

section
variable {step : Bool → SwapOperands → Cmd SwapResult} {target : Bool → SwapOperands → Option Nat}
  {unlimited : Bool → SwapOperands → Nat → SwapResult} {s t : State} {rd b : Reg} {up : Bool} {r : SwapResult}

/-- A swap step that neither faults nor overflows comes to one of these results (R239, R240, R250). -/
theorem swapResult_outcome {o : SwapOperands} (hrule : MeetsSwapRule step target unlimited) (ho : o.InRange)
    (hr : swapResult step up b o = .ok r) (hovf : r.overflow = false) :
    SwapOutcome (target up o) (unlimited up o) up o r := by
  by_cases hstay : o.remaining = 0 ∨ o.limit = o.start
  · cases (swapResult_stay hstay).symm.trans hr
    exact .stay hstay
  obtain ⟨ha, hne⟩ := not_or.1 hstay
  by_cases hwrong : Beyond up o.start o.limit
  · cases (swapResult_wrongSide ha hwrong).symm.trans hr
  have hdir : Beyond up o.limit o.start := .of_not hne hwrong
  by_cases hliq : o.liq = 0
  · cases (swapResult_jump ha hdir hliq).symm.trans hr
    exact .jump hdir
  rw [swapResult_step ha hdir hliq] at hr
  by_cases ht : ∀ p, target up o = some p → Beyond up p o.limit
  · rw [(hrule.limited_of ho ht).eq_of_fits hr hovf]
    exact .limited hdir hliq ht
  · push Not at ht
    obtain ⟨p, ht, hp⟩ := ht
    rw [(hrule.unlimited_of ho ht hp).eq_of_fits hr hovf]
    exact .unlimited ht hp

/-- The price of these results is in range, not on the wrong side of the start, and the start or not beyond the limit. -/
theorem SwapOutcome.price {o : SwapOperands} (hrule : MeetsSwapRule step target unlimited) (ho : o.InRange)
    (h : SwapOutcome (target up o) (unlimited up o) up o r) :
    IsPrice r.priceNext ∧ ¬ Beyond up o.start r.priceNext ∧
      (r.priceNext = o.start ∨ ¬ Beyond up r.priceNext o.limit) := by
  cases h with
  | stay => exact ⟨ho.start, not_beyond_self up _, .inl rfl⟩
  | jump hdir => exact ⟨ho.limit, hdir.asymm, .inr (not_beyond_self up _)⟩
  | unlimited ht hp =>
    rw [hrule.unlimited_price]
    exact ⟨(hrule.target_moves ho ht).1, (hrule.target_moves ho ht).2, .inr hp⟩
  | limited hdir => exact ⟨ho.limit, hdir.asymm, .inr (not_beyond_self up _)⟩

theorem SwapOutcome.amountsFit {o : SwapOperands} (hrule : MeetsSwapRule step target unlimited) (ho : o.InRange)
    (h : SwapOutcome (target up o) (unlimited up o) up o r) (hovf : r.overflow = false) : AmountsFit r := by
  cases h with
  | stay | jump => exact ⟨le_rfl, Nat.two_pow_pos 128, Nat.two_pow_pos 128⟩
  | unlimited => exact hrule.unlimited_amountsFit ho hovf
  | limited => exact charged_amountsFit hovf

/-- What a swap command has come to when it completed without a fault and without OVF. -/
theorem swap_outcome (hrule : MeetsSwapRule step target unlimited)
    (h : finish s (swapCmd step rd b up s) = .next t) (he : t.status.err = false) (hovf : t.flags.ovf = false) :
    (operandsAt s b).InRange ∧ ∃ r,
      SwapOutcome (target up (operandsAt s b)) (unlimited up (operandsAt s b)) up (operandsAt s b) r ∧
      AmountsFit r ∧ HoldsResult t rd r := by
  obtain ⟨ho, r, hr, hfits, rfl⟩ := swapResult_of_finish h he hovf
  have hout := swapResult_outcome hrule ho hr hfits
  have hamounts := hout.amountsFit hrule ho hfits
  exact ⟨ho, r, hout, hamounts, writeSwap_holds hfits (hout.price hrule ho).1 hamounts⟩

theorem swap_price (hrule : MeetsSwapRule step target unlimited)
    (h : finish s (swapCmd step rd b up s) = .next t) (he : t.status.err = false) (hovf : t.flags.ovf = false) :
    ¬ Beyond up (s.val b) (t.val rd) ∧ (t.val rd = s.val b ∨ ¬ Beyond up (t.val rd) (s.val (b + 1))) := by
  obtain ⟨ho, r, hout, -, hholds⟩ := swap_outcome hrule h he hovf
  rw [hholds.price]
  exact (hout.price hrule ho).2

theorem swap_fee (hrule : MeetsSwapRule step target unlimited)
    (h : finish s (swapCmd step rd b up s) = .next t) (he : t.status.err = false) (hovf : t.flags.ovf = false) :
    t.val (rd + 3) ≤ t.val (rd + 1) := by
  obtain ⟨-, r, -, hfit, hholds⟩ := swap_outcome hrule h he hovf
  rw [hholds.fee, hholds.amountIn]
  exact hfit.fee_le

end

/-- Settles O36: every exit of both commands ends at the start, at the limit, or at a tentative price that does not pass
the limit. -/
theorem swapPriceNeverCrossesTheLimit : Obligations.SwapPriceNeverCrossesTheLimit := by
  intro s t rd b up i hi h he hovf
  obtain rfl | rfl := hi
  · exact swap_price swapInStep_meets h he hovf
  · exact swap_price swapOutStep_meets h he hovf

/-- The amount in of a SWAPI that does not overflow (R243). -/
theorem swapi_amountIn {s t : State} {rd b : Reg} {up : Bool} (h : exec (.swapi rd b up) s = .next t)
    (he : t.status.err = false) (hovf : t.flags.ovf = false) :
    (t.flags.lim = false → s.val (b + 1) ≠ s.val b → t.val (rd + 1) = s.val (b + 3)) ∧
    (t.flags.lim = true → t.val (rd + 1) ≤ s.val (b + 3)) := by
  obtain ⟨ho, r, hout, -, hholds⟩ := swap_outcome swapInStep_meets h he hovf
  rw [hholds.lim, hholds.amountIn]
  cases hout with
  | stay hstay => exact ⟨fun _ hne => (hstay.resolve_right hne).symm, nofun⟩
  | jump => exact ⟨nofun, fun _ => Nat.zero_le _⟩
  | unlimited => exact ⟨fun _ _ => rfl, nofun⟩
  | limited hdir hliq ht => exact ⟨nofun, fun _ => limited_amountIn_le ho hdir hliq ht⟩

/-- The amount out of a SWAPO that does not overflow (R251). -/
theorem swapo_amountOut {s t : State} {rd b : Reg} {up : Bool} (h : exec (.swapo rd b up) s = .next t)
    (he : t.status.err = false) (hovf : t.flags.ovf = false) :
    (t.flags.lim = false → s.val (b + 1) ≠ s.val b → t.val (rd + 2) = s.val (b + 3)) ∧
    (t.flags.lim = true → t.val (rd + 2) ≤ s.val (b + 3)) := by
  obtain ⟨ho, r, hout, -, hholds⟩ := swap_outcome swapOutStep_meets h he hovf
  rw [hholds.lim, hholds.amountOut]
  cases hout with
  | stay hstay => exact ⟨fun _ hne => (hstay.resolve_right hne).symm, nofun⟩
  | jump => exact ⟨nofun, fun _ => Nat.zero_le _⟩
  | unlimited => exact ⟨fun _ _ => rfl, nofun⟩
  | limited hdir hliq ht => exact ⟨nofun, fun _ => limited_amountOut_le ho hdir hliq ht⟩

/-- Settles O37: a step is limited only when the amount covers the way to the limit. -/
theorem swapAmountsStayWithinTheRequest : Obligations.SwapAmountsStayWithinTheRequest := by
  intro s t rd b up
  refine ⟨fun i hi h he hovf => ?fee, swapi_amountIn, swapo_amountOut⟩
  obtain rfl | rfl := hi
  · exact swap_fee swapInStep_meets h he hovf
  · exact swap_fee swapOutStep_meets h he hovf

end Sys2Proof.Machine
end

section
/-! PROOFS, 45_notes.md: NTOK (R271) and NPOS (R274, R275), and the note check that ends both (R273). -/

namespace Sys2Proof.Machine

/-! ### The note check -/

theorem noteValid_iff (nf cm : Nat) : noteValid nf cm = true ↔ NoteOk nf cm := by
  simp only [noteValid, Bool.and_eq_true, bne_iff_ne, decide_eq_true_eq, and_assoc]

/-- A command that writes two registers in a row, and raises nothing. -/
theorem finish_setRegNat_pair (s : State) (rd : Reg) (v v' : Nat) :
    finish s (.ok ((s.setRegNat rd v).setRegNat (rd + 1) v')) = .next (completed s (withRegs s.w rd [v, v']) s.flags) :=
  rfl

/-- A note is written as a whole or not at all (R273). -/
theorem finish_writeNote (s : State) (rd : Reg) (nf cm : Nat) :
    finish s (writeNote rd nf cm s) =
      .next (if NoteOk nf cm then completed s (withRegs s.w rd [nf, cm]) s.flags else faulted s .NOTE_INVALID 0xFF) := by
  rw [writeNote]
  by_cases hok : NoteOk nf cm
  · rw [if_pos ((noteValid_iff nf cm).2 hok), if_pos hok, finish_setRegNat_pair]
  · rw [if_neg (mt (noteValid_iff nf cm).1 hok), if_neg hok]
    exact finish_raise s .NOTE_INVALID infoNone

/-! ### Operands in range -/

section
variable {s : State} {i : Reg}

theorem opndFelt_of_val_lt (h : s.val i < Config.fieldP) : opndFelt i s = .ok (s.val i) :=
  (opndFelt_eq_ok i s _).2 ⟨rfl, h⟩

theorem opndTokid_of_val_lt (h : s.val i < 2) : opndTokid i s = .ok (s.val i) :=
  (opndTokid_eq_ok i s _).2 ⟨rfl, h⟩

/-- The slot of a tick in range decodes to that tick (R124), in the words of the statements. -/
theorem opndTick_maxTick_of_slot {t : Int} (h1 : -(maxTick : Int) ≤ t) (h2 : t ≤ maxTick) (hr : s.val i = slotOf t) :
    opndTick maxTick i s = .ok t :=
  opndTick_of_slot maxTick i s t h1 h2 (Nat.le_succ _) (hr.trans (slotOf_eq_encTick t))

end

/-! ### NTOK -/

/-- NTOK of operands in range comes to its note check, on the hashes of R271. -/
theorem ntokCmd_of_inRange {s : State} {b : Reg} (rd : Reg) (hid : s.val b < 2) (hamount : s.val (b + 1) < 2 ^ 128)
    (hsecret : s.val (b + 2) < Config.fieldP) (hseed : s.val (b + 3) < Config.fieldP) :
    let nf := tokenNullifier (s.val b) (s.val (b + 2)) (s.val (b + 3))
    ntokCmd rd b s = writeNote rd nf (tokenCommitment (s.val b) (s.val (b + 1)) (s.val (b + 2)) nf) s := by
  rw [ntokCmd, opndTokid_of_val_lt hid, opndU_of_val_lt hamount, opndFelt_of_val_lt hsecret, opndFelt_of_val_lt hseed]
  simp only [cmd_bind_ok]

/-- Settles O38: the checks pass, and what is left is the note check. -/
theorem ntokHashesAndChecks : Obligations.NtokHashesAndChecks := by
  intro s rd b hid hamount hsecret hseed
  rw [exec_eq_finish, pseudocode, ntokCmd_of_inRange rd hid hamount hsecret hseed]
  exact finish_writeNote s rd _ _

/-! ### NPOS -/

/-- `POSITION_LAYOUT` is a rearrangement of the nine inputs, whatever the raw parameter (R10, R275). -/
theorem positionLayout_perm : Config.positionLayout.Perm (List.range 9) := by
  rw [Config.positionLayout]
  split
  next hraw => exact (List.isPerm_iff.1 hraw).symm
  next => exact .refl _

/-- NPOS of operands in range comes to its note check, on the hashes of R274 and R275. -/
theorem nposCmd_of_inRange {s : State} {b : Reg} {tl tu : Int} (rd : Reg) (hsecret : s.val b < Config.fieldP)
    (hseed : s.val (b + 1) < Config.fieldP) (htl : opndTick maxTick (b + 2) s = .ok tl)
    (htu : opndTick maxTick (b + 3) s = .ok tu) (hliq : s.val (b + 4) < 2 ^ 128)
    (hfg0 : s.val (b + 5) ≤ Config.maxFeeGrowth) (hfg1 : s.val (b + 6) ≤ Config.maxFeeGrowth) :
    let nf := positionNullifier (s.val b) (s.val (b + 1))
    nposCmd rd b s = writeNote rd nf
      (positionCommitment tl tu (s.val (b + 4)) (s.val (b + 5)) (s.val (b + 6)) (s.val b) nf) s := by
  rw [nposCmd, opndFelt_of_val_lt hsecret, opndFelt_of_val_lt hseed, htl, htu, opndU_of_val_lt hliq,
    opndFg_of_le hfg0, opndFg_of_le hfg1]
  simp only [cmd_bind_ok]

/-- Settles O39: the checks pass, and what is left is the note check, on the fields in the order of the layout. -/
theorem nposHashesAndChecks : Obligations.NposHashesAndChecks := by
  refine ⟨positionLayout_perm, fun s rd b tl tu hsecret hseed htl1 htl2 htl htu1 htu2 htu hliq hfg0 hfg1 => ?_⟩
  rw [exec_eq_finish, pseudocode, nposCmd_of_inRange rd hsecret hseed (opndTick_maxTick_of_slot htl1 htl2 htl)
    (opndTick_maxTick_of_slot htu1 htu2 htu) hliq hfg0 hfg1]
  exact finish_writeNote s rd _ _

end Sys2Proof.Machine
end

section
/-! PROOFS, 46_ledger.md: the history ring (R297), the lazy flush (R296, R298), INSERT (R300, R302), KNOWN (R305),
VERIFY (R310, R311), FLUSH (R315), NULLIFY (R320), and what only a reset takes back (R321). -/

namespace Sys2Proof.Machine

/-! ### The ring push -/

theorem refCount_refUp {m : List (Nat × Nat)} (h : refWf m) (r q : Nat) :
    refCount (refUp m r) q = refCount m q + (if q = r then 1 else 0) := by
  rw [refUp, refCount_refSet m r _ q h]
  split
  next hq => rw [hq]
  next => rfl

theorem refCount_refDown {m : List (Nat × Nat)} (h : refWf m) {r : Nat} (hpos : 0 < refCount m r) (q : Nat) :
    refCount (refDown m r) q + (if q = r then 1 else 0) = refCount m q := by
  rw [refDown, refCount_refSet m r _ q h]
  split
  next hq => rw [hq]; exact Nat.sub_add_cancel hpos
  next => rfl

theorem push_refcnt_of_full {x : Tree} {old : Nat} (hfull : x.hcnt = 256)
    (hslot : x.hist[x.head.val]'x.head.isLt = some old) (r : Nat) :
    (x.push r).refcnt = refUp (refDown x.refcnt old) r := by
  simp only [Tree.push, evictRef, hfull, hslot, if_true]

theorem push_refcnt_of_not_full {x : Tree} (hshort : x.hcnt ≠ 256) (r : Nat) :
    (x.push r).refcnt = refUp x.refcnt r := by
  simp only [Tree.push, if_neg hshort]

/-- The counts after a push: one more of the pushed root and, when the ring was full, one less of the evicted root
(R297). -/
theorem refCount_push {x : Tree} (hwf : refWf x.refcnt)
    (hold : x.hcnt = 256 → ∃ old, x.hist[x.head.val]'x.head.isLt = some old ∧ 0 < refCount x.refcnt old) (r q : Nat) :
    refCount (x.push r).refcnt q + (if x.hcnt = 256 ∧ x.hist[x.head.val]'x.head.isLt = some q then 1 else 0) =
      refCount x.refcnt q + (if q = r then 1 else 0) := by
  by_cases hfull : x.hcnt = 256
  · obtain ⟨old, hslot, hpos⟩ := hold hfull
    have hevicted : (x.hcnt = 256 ∧ x.hist[x.head.val]'x.head.isLt = some q) ↔ q = old := by
      rw [hslot, Option.some.injEq, and_iff_right hfull, eq_comm]
    have hdown : refWf (refDown x.refcnt old) := refSet_wf _ _ _ hwf
    rw [push_refcnt_of_full hfull hslot, refCount_refUp hdown, if_congr hevicted rfl rfl, Nat.add_right_comm,
      refCount_refDown hwf hpos]
  · rw [push_refcnt_of_not_full hfull, if_neg (hfull ·.1)]
    exact refCount_refUp hwf r q

/-- Settles O46: the counts move at the pushed and the evicted root, every other field is read off the push. -/
theorem ringPushEvictsTheOldest : Obligations.RingPushEvictsTheOldest := by
  intro x r hwf hold
  refine ⟨rfl, Fin.val_add x.head 1, ?_, refCount_push hwf hold r, rfl, rfl, rfl, rfl⟩
  simp only [Tree.push]
  split
  next hfull => exact hfull
  next => rfl

/-! ### The ledger operations, in the words of the statements -/

theorem flushDue_iff (x : Tree) (now : Word64) : x.flushDue now = true ↔ Due x now := by
  simp only [Tree.flushDue, Bool.and_eq_true, Bool.or_eq_true, Bool.not_eq_true', decide_eq_true_eq,
    List.isEmpty_eq_false_iff]
  have hage : (Config.flushDelay.toNat : Int) ≤ (now.toNat : Int) - x.pendT0.toNat ↔
      x.pendT0.toNat + Config.flushDelay.toNat ≤ now.toNat := by omega
  rw [hage]

theorem maybeFlush_eq_flushed (x : Tree) (now : Word64) : x.maybeFlush now = flushed x now := by
  rw [Tree.maybeFlush, flushed]
  by_cases hdue : Due x now
  · rw [if_pos ((flushDue_iff x now).2 hdue), if_pos hdue]
    rfl
  · rw [if_neg (mt (flushDue_iff x now).1 hdue), if_neg hdue]

@[simp] theorem flushed_root (x : Tree) (now : Word64) : (flushed x now).root = x.root := by
  rw [← maybeFlush_eq_flushed, maybeFlush_root]

@[simp] theorem flushed_next (x : Tree) (now : Word64) : (flushed x now).next = x.next := by
  rw [← maybeFlush_eq_flushed, maybeFlush_next]

/-- A flushed batch is empty, so it is not due again (R296, R298). -/
theorem not_due_flushed (x : Tree) (now : Word64) : ¬ Due (flushed x now) now := by
  rw [flushed]
  split
  next => exact fun hagain => hagain.1 rfl
  next hdue => exact hdue

theorem flushed_flushed (x : Tree) (now : Word64) : flushed (flushed x now) now = flushed x now :=
  if_neg (not_due_flushed x now)

theorem isKnown_eq_decide (x : Tree) (r : Nat) : x.isKnown r = decide (Known x r) := by
  rw [Bool.eq_iff_iff]
  simp [Tree.isKnown, or_assoc]

/-- The ring push neither reads nor writes the pending batch (R297). -/
theorem promoted_pend (roots p : List Nat) (x : Tree) :
    promoted { x with pend := p } roots = { promoted x roots with pend := p } := by
  induction roots generalizing x with
  | nil => rfl
  | cons r roots ih => exact ih (x.push r)

/-- So a batch that is dropped in the end may as well be put in its place first. -/
theorem flush_of_promoted (x : Tree) (roots : List Nat) :
    Tree.flush { x with pend := roots } = { promoted x roots with pend := [] } :=
  congrArg (fun y : Tree => { y with pend := [] }) (promoted_pend roots roots x)

/-- The machine's INSERT of a root, after its lazy flush, is the statements' (R300). -/
theorem append_flushed (x : Tree) (r : Nat) (now : Word64) : (flushed x now).append r now = afterInsert x r now := by
  simp only [Tree.append, afterInsert, List.length_append, List.length_singleton, flushed_next, List.isEmpty_iff]
  split
  next =>
    exact flush_of_promoted { flushed x now with
      root := r, next := x.next + 1, pendT0 := if (flushed x now).pend = [] then now else (flushed x now).pendT0 } _
  next => rfl

theorem afterInsert_root (x : Tree) (r : Nat) (now : Word64) : (afterInsert x r now).root = r := by
  rw [← append_flushed, append_root]

/-- The machine's query of a root is the lazy flush and the answer in FLAGS.B (R305, R310). -/
theorem finish_queryKnown (k : TreeId) (r : Nat) (s : State) :
    finish s (.ok (queryKnown k r s)) =
      .next ((completed s s.w { s.flags with b := decide (Known (flushed (s.tree k) s.now) r) }).setTree k
        (flushed (s.tree k) s.now)) := by
  rw [queryKnown, isKnown_eq_decide, maybeFlush_eq_flushed]
  cases k <;> rfl

/-! ### The path check -/

/-- The path check raises the fault of the first entry that is no felt (R292). -/
theorem pathCheckFrom_of_first {ps : List Nat} {i : Nat} (hi : i < ps.length) (hbad : Config.fieldP ≤ ps[i])
    (hfirst : ∀ m (hm : m < i), ps[m] < Config.fieldP) (j : Nat) :
    pathCheckFrom j ps = raise .RANGE_FIELD (infoPath (j + i)) := by
  induction ps generalizing i j with
  | nil => cases hi
  | cons p ps ih =>
    cases i with
    | zero => exact if_neg (Nat.not_lt.2 hbad)
    | succ i =>
      rw [pathCheckFrom, if_pos (show p < Config.fieldP from hfirst 0 i.succ_pos),
        ih (Nat.lt_of_succ_lt_succ hi) hbad (fun m hm => hfirst (m + 1) (Nat.succ_lt_succ hm)), Nat.add_right_comm,
        Nat.add_assoc]

theorem pathCheck_of_first {s : State} {j : Nat} (hj : j < Config.treeHeight) (hbad : Config.fieldP ≤ s.sibling j)
    (hfirst : ∀ m < j, s.sibling m < Config.fieldP) : pathCheck s = raise .RANGE_FIELD (infoPath j) := by
  rw [pathCheck, pathEntries_eq_map_sibling,
    pathCheckFrom_of_first (i := j) (by simpa using hj) (by simpa using hbad) (by simpa using hfirst), Nat.zero_add]

theorem pathCheck_of_pathOk {s : State} (h : PathOk s) : pathCheck s = .ok () :=
  (pathCheck_eq_ok s).2 ((pathOk_iff s).1 h)

/-! ### INSERT -/

/-- An INSERT that passes its checks completes with the tree R300 describes. -/
theorem finish_insert (k : TreeId) (rd : Reg) (root index : Nat) (s : State) :
    finish s (.ok ((s.setTree k (((s.tree k).maybeFlush s.now).append root s.now)).setRegNat rd index)) =
      .next ((completed s (withReg s.w rd index) s.flags).setTree k (afterInsert (s.tree k) root s.now)) := by
  rw [maybeFlush_eq_flushed, append_flushed]
  cases k <;> rfl

/-- Settles O40: the checks pass, and the machine's append is the one of R300. -/
theorem insertAppendsToTheTree : Obligations.InsertAppendsToTheTree := by
  intro s k rd rs1 x hfelt hpath h0 hleaf hroom hslot
  rw [exec_insertAt, insertCmd_of_checks hfelt h0 hleaf hpath hroom hslot]
  exact finish_insert k rd _ _ s

/-- The checks of an INSERT after those of its operands (R300). -/
theorem insertCmd_of_inRange {k : TreeId} {rd rs1 : Reg} {s : State} (hfelt : s.val rs1 < Config.fieldP)
    (hpath : PathOk s) :
    insertCmd k rd rs1 s =
      if s.val rs1 = 0 ∨ s.val rs1 = Config.emptyLeaf then raise .NOTE_INVALID (infoReg rs1)
      else if (s.tree k).next = 2 ^ Config.treeHeight then raise .TREE_FULL infoNone
      else if s.rootOf Config.emptyLeaf (s.tree k).next ≠ (s.tree k).root then raise .EMPTY_SLOT_MISMATCH infoNone
      else .ok ((s.setTree k (((s.tree k).maybeFlush s.now).append (s.rootOf (s.val rs1) (s.tree k).next)
        s.now)).setRegNat rd (s.tree k).next) := by
  rw [insertCmd, opndFelt_of_val_lt hfelt, cmd_bind_ok, pathCheck_of_pathOk hpath, cmd_bind_ok, computeRoot_eq_rootOf,
    computeRoot_eq_rootOf, cmd_pure]

/-- Settles O41: the path is checked before the commitment, the commitment before the room, the room before the slot. -/
theorem insertChecksComeInOrder : Obligations.InsertChecksComeInOrder := by
  intro s k rd rs1 x hfelt
  rw [exec_insertAt]
  refine ⟨fun j hj hbad hfirst => ?path, fun hpath => ?checks⟩
  case path =>
    have hfault : firstFault [faultOf (opndFelt rs1 s), faultOf (pathCheck s)] = some ⟨.RANGE_FIELD, infoPath j⟩ := by
      rw [opndFelt_of_val_lt hfelt, pathCheck_of_first hj hbad hfirst]
      rfl
    rw [insertCmd_takesFirst s rd rs1 k _ hfault]
    exact finish_raise s .RANGE_FIELD (infoPath j)
  case checks =>
    rw [insertCmd_of_inRange hfelt hpath]
    refine ⟨fun hnote => ?_, fun h0 hleaf => ⟨fun hfull => ?_, fun hroom hslot => ?_⟩⟩
    · rw [if_pos hnote, finish_raise]
    · rw [if_neg (not_or.2 ⟨h0, hleaf⟩), if_pos hfull, finish_raise]
      rfl
    · rw [if_neg (not_or.2 ⟨h0, hleaf⟩), if_neg hroom, if_pos hslot, finish_raise]
      rfl

/-! ### KNOWN -/

theorem holding_pos_iff (hist : Vector (Option Nat) 256) (r : Nat) :
    0 < holding hist r ↔ ∃ n : Fin 256, hist[n.val] = some r := by
  refine ⟨fun h => ?_, fun ⟨n, hn⟩ => holding_pos hist n.val n.isLt r hn⟩
  obtain ⟨n, hn, hr⟩ := List.mem_iff_getElem.1 (List.count_pos_iff.1 h)
  exact ⟨⟨n, by simpa using hn⟩, by simpa using hr⟩

/-- Settles O42: the query of the operand; in a sound tree, flushed or not, the counts are those of the ring. -/
theorem knownTellsWhetherARootIsKnown : Obligations.KnownTellsWhetherARootIsKnown := by
  intro s k rs1 hfelt
  refine ⟨?_, fun hsound => ?_⟩
  · rw [exec_knownAt, knownCmd, opndFelt_of_val_lt hfelt]
    exact finish_queryKnown k (s.val rs1) s
  · have hflushed := hsound.maybeFlush
    rw [maybeFlush_eq_flushed] at hflushed
    rw [hflushed.refcnt_eq, holding_pos_iff]

/-! ### VERIFY -/

theorem treeIndex_lt {v : Nat} (h : v < 2 ^ Config.treeHeight) : v < 2 ^ 256 :=
  h.trans_le (Nat.pow_le_pow_right Nat.two_pos (treeHeight_range.2.trans (by decide)))

theorem opndIndex_of_val_lt {i : Reg} {s : State} (h : s.val i < 2 ^ Config.treeHeight) :
    opndIndex i s = .ok (s.val i) :=
  (opndIndex_eq_ok i s _).2 ⟨rfl, h⟩

/-- A VERIFY of operands in range comes to its check of the directions (R310, R311). -/
theorem verifyCmd_of_inRange {k : TreeId} {rs1 rs2 rs3 : Reg} {s : State} (hfelt : s.val rs1 < Config.fieldP)
    (hidx : s.val rs2 < 2 ^ Config.treeHeight) (hdirs : s.val rs3 < 2 ^ Config.treeHeight) (hpath : PathOk s) :
    verifyCmd k rs1 rs2 rs3 s =
      if s.val rs3 ≠ s.val rs2 then raise .DIRECTION_MISMATCH (infoReg rs3)
      else .ok (queryKnown k (s.rootOf (s.val rs1) (s.val rs2)) s) := by
  rw [verifyCmd, opndFelt_of_val_lt hfelt, opndIndex_of_val_lt hidx, opndIndex_of_val_lt hdirs,
    pathCheck_of_pathOk hpath, ← computeRoot_eq_rootOf]
  rfl

/-- Settles O43: the checks pass, and the directions decide between the query of the computed root and the fault. -/
theorem verifyTellsWhetherAPathIsKnown : Obligations.VerifyTellsWhetherAPathIsKnown := by
  intro s k rs1 rs2 rs3 hfelt hidx hdirs hpath
  rw [exec_verifyAt, verifyCmd_of_inRange hfelt hidx hdirs hpath]
  refine ⟨fun hsame => ?_, fun hdiffer => ?_⟩
  · rw [if_neg (not_not.2 hsame)]
    exact finish_queryKnown k _ s
  · rw [if_pos hdiffer, finish_raise]

/-- An INSERT without a fault had operands in range, and wrote the new root and the index (R300). -/
theorem insert_success {s t : State} {k : TreeId} {rd rs1 : Reg} (h : exec (insertAt k rd rs1) s = .next t)
    (he : t.status.err = false) :
    s.val rs1 < Config.fieldP ∧ PathOk s ∧
      t = (completed s (withReg s.w rd (s.tree k).next) s.flags).setTree k
        (afterInsert (s.tree k) (s.rootOf (s.val rs1) (s.tree k).next) s.now) := by
  rw [exec_insertAt] at h
  obtain ⟨u, hu, -⟩ := finish_ok_of_err_false h he
  obtain ⟨c, hc, h0, hleaf, hpath, hroom, hslot, -⟩ := insertCmd_ok k rd rs1 s u hu
  obtain ⟨rfl, hfelt⟩ := (opndFelt_eq_ok rs1 s c).1 hc
  have hok : PathOk s := (pathOk_iff s).2 hpath
  rw [computeRoot_eq_rootOf] at hslot
  rw [insertCmd_of_checks hfelt h0 hleaf hok hroom hslot, finish_insert] at h
  cases h
  exact ⟨hfelt, hok, rfl⟩

theorem sibling_congr {s t : State} (h : t.path = s.path) : t.sibling = s.sibling := by
  funext j
  rw [State.sibling, State.sibling, h]

theorem rootOf_congr {s t : State} (h : t.path = s.path) : t.rootOf = s.rootOf := by
  funext leaf idx
  rw [State.rootOf, State.rootOf, sibling_congr h]

theorem completed_withReg_val_other (s : State) {rd r : Reg} (v : Nat) (f : Flags) (h : r ≠ rd) :
    (completed s (withReg s.w rd v) f).val r = s.val r :=
  congrArg BitVec.toNat (setRegNat_reg_other s rd r v h)

/-- Settles O44: the path, the commitment and the index lead VERIFY to the root that INSERT made live. -/
theorem insertedCommitmentVerifies : Obligations.InsertedCommitmentVerifies := by
  intro s t k rd rs1 hne hroom h he
  obtain ⟨hfelt, hpath, ht⟩ := insert_success h he
  have hleaf : t.val rs1 = s.val rs1 := by
    rw [ht, State.val, setTree_reg]
    exact completed_withReg_val_other s _ _ hne.symm
  have hindex : t.val rd = (s.tree k).next := by
    rw [ht, State.val, setTree_reg]
    exact completed_withReg_val s rd _ _ (slot_lt_register (treeIndex_lt hroom))
  have hsame : t.path = s.path := by rw [ht, setTree_path]; rfl
  have hroot : (flushed (t.tree k) t.now).root = t.rootOf (t.val rs1) (t.val rd) := by
    rw [flushed_root, rootOf_congr hsame, hleaf, hindex, ht, setTree_tree_same, afterInsert_root]
  have hpath' : PathOk t := by rwa [PathOk, sibling_congr hsame]
  have hverify := (verifyTellsWhetherAPathIsKnown t k rs1 rd rd (hleaf ▸ hfelt) (hindex ▸ hroom) (hindex ▸ hroom)
    hpath').1 rfl
  refine ⟨_, hverify, by rw [setTree_status]; rfl, ?_⟩
  rw [setTree_flags]
  exact decide_eq_true (.inl hroot.symm)

/-! ### FLUSH -/

theorem exec_flushAt_eq (k : TreeId) (s : State) :
    exec (flushAt k) s = .next ((completed s s.w s.flags).setTree k (flushed (s.tree k) s.now)) := by
  rw [exec_flushAt, flushCmd, maybeFlush_eq_flushed]
  cases k <;> rfl

theorem completed_now (s : State) (w : Vector Word512 16) (f : Flags) : (completed s w f).now = s.now := rfl

/-- A completion repeated, with the same tree written, leaves the state of the first. -/
theorem completed_setTree_again {s t : State} {k : TreeId} {x : Tree}
    (ht : t = (completed s s.w s.flags).setTree k x) : (completed t t.w t.flags).setTree k x = t := by
  subst ht
  cases k <;> rfl

/-- Settles O45: FLUSH is the lazy flush, and the tree it leaves is not due. -/
theorem flushPromotesADueBatch : Obligations.FlushPromotesADueBatch := by
  intro s k
  refine ⟨exec_flushAt_eq k s, fun t ht => ?_⟩
  rw [exec_flushAt_eq] at ht
  cases ht
  rw [exec_flushAt_eq, setTree_tree_same, setTree_now, completed_now, flushed_flushed, completed_setTree_again rfl]

/-! ### NULLIFY -/

/-- The checks of a NULLIFY after that of its operand, and the mark (R320). -/
theorem nullifyCmd_of_felt {rs1 : Reg} {s : State} (hfelt : s.val rs1 < Config.fieldP) :
    nullifyCmd rs1 s =
      if s.val rs1 = 0 then raise .NULLIFIER_ZERO (infoReg rs1)
      else if s.val rs1 ∈ s.nset then raise .NULLIFIER_USED (infoReg rs1)
      else if Config.nullifierCapacity = some s.nset.length then raise .LEDGER_STORE_FULL infoNone
      else .ok { s with nset := nsetInsert (s.val rs1) s.nset, ncount := s.ncount + 1 } := by
  rw [nullifyCmd, opndFelt_of_val_lt hfelt]
  simp only [cmd_bind_ok, List.contains_iff_mem, cmd_pure]

/-- Settles O47: the checks in their order, and the insertion into the canonical set. -/
theorem nullifyMarksOnce : Obligations.NullifyMarksOnce := by
  intro s rs1 hfelt
  rw [exec_eq_finish, pseudocode, nullifyCmd_of_felt hfelt]
  refine ⟨fun h0 hnew hroom => ?marks, fun h0 => ?zero, fun h0 hused => ?used, fun h0 hnew => ?store⟩
  case marks =>
    rw [if_neg h0, if_neg hnew, if_neg hroom]
    exact ⟨_, rfl, fun m => mem_nsetInsert _ m s.nset, nsetInsert_wf _ s.nset⟩
  case zero => rw [if_pos h0, finish_raise]
  case used => rw [if_neg h0, if_pos hused, finish_raise]
  case store =>
    rw [if_neg h0, if_neg hnew]
    by_cases hfull : Config.nullifierCapacity = some s.nset.length
    · rw [if_pos hfull]
      exact ⟨_, rfl, by rw [if_pos hfull]; rfl⟩
    · rw [if_neg hfull]
      exact ⟨_, rfl, by rw [if_neg hfull]; rfl⟩

/-! ### What only a reset takes back -/

/-- State `t` keeps what `s` has reached: its used nullifiers, its NOW and the NEXT of its trees (R42, R49, R321). -/
structure Grows (s t : State) : Prop where
  nset : s.nset ⊆ t.nset
  now : s.now ≤ t.now
  next : ∀ k, (s.tree k).next ≤ (t.tree k).next

theorem Grows.trans {s t u : State} (h : Grows s t) (g : Grows t u) : Grows s u :=
  ⟨List.Subset.trans h.nset g.nset, BitVec.le_trans h.now g.now, fun k => (h.next k).trans (g.next k)⟩

theorem Grows.of_sameLedger {s t : State} (h : SameLedger s t) (hnow : s.now.toNat ≤ t.now.toNat) : Grows s t := by
  obtain ⟨htree, hnset, -⟩ := h
  exact ⟨fun n hn => hnset ▸ hn, hnow, fun k => (congrArg Tree.next (htree k)).le⟩

theorem Grows.setTree {s : State} {t : TreeId} {x : Tree} (h : (s.tree t).next ≤ x.next) : Grows s (s.setTree t x) where
  nset := by simp
  now := by simp
  next k := by
    by_cases hk : k = t
    · rwa [hk, setTree_tree_same]
    · rw [setTree_tree_other s t k x hk]

theorem Grows.mark (s : State) (n : Nat) (c : Word64) :
    Grows s { s with nset := nsetInsert n s.nset, ncount := c } where
  nset m hm := (mem_nsetInsert n m s.nset).2 (.inr hm)
  now := BitVec.le_refl _
  next k := by cases k <;> exact le_rfl

theorem NamedWrites.grows {i : Instr} {s u : State} (h : NamedWrites i s u) : Grows s u := by
  induction h with
  | start => exact .of_sameLedger (by simp [SameLedger]) le_rfl
  | reg _ _ _ ih | flagC _ _ _ ih | flagOvf _ _ _ ih | flagLim _ _ _ ih | flagB _ _ _ ih | flagN _ _ _ ih =>
    exact ih.trans (.of_sameLedger (by simp [SameLedger]) le_rfl)
  | flush _ _ ih => exact ih.trans (.setTree (maybeFlush_next _ _).ge)
  | append _ _ _ _ _ ih => exact ih.trans (.setTree ((Nat.le_succ _).trans (append_next _ _ _).ge))
  | mark _ _ _ _ _ ih => exact ih.trans (.mark _ _ _)

theorem exec_grows {i : Instr} {s t : State} (h : exec i s = .next t) : Grows s t := by
  cases exec_completion i s t h with
  | success hw => exact hw.grows.trans (.of_sameLedger (by simp [SameLedger]) le_rfl)
  | fault e => exact .of_sameLedger (by simp [SameLedger]) le_rfl

theorem engineTurn_grows {s t : State} (h : engineTurn s = .next t) : Grows s t := by
  obtain rfl | ⟨i, hi⟩ | ⟨e, rfl⟩ := engineTurn_cases s t h
  · exact .of_sameLedger (by simp [SameLedger]) le_rfl
  · exact exec_grows hi
  · exact .of_sameLedger (by simp [SameLedger]) le_rfl

theorem grows_agenda (s : State) (l : List Event) : Grows s { s with agenda := l } :=
  .of_sameLedger ⟨fun t => by cases t <;> rfl, rfl, rfl⟩ le_rfl

/-- A step that is not a reset keeps what the state has reached (R321): an access of the host leaves the ledger and only
raises NOW, and a turn of the engine makes the writes of one command. -/
theorem step_grows {s t : State} (h : step s = .next t) (hreset : ∀ rest, s.agenda ≠ .reset :: rest) : Grows s t := by
  unfold step at h
  split at h
  next => exact engineTurn_grows h
  next rest _ => exact (grows_agenda s rest).trans (engineTurn_grows h)
  next a rest _ =>
    cases h
    obtain ⟨hledger, hnow⟩ := hostAccess_sameLedger a { s with agenda := rest }
    exact (grows_agenda s rest).trans (.of_sameLedger hledger hnow)
  next rest hagenda => exact absurd hagenda (hreset rest)

/-- Settles O56: each write of a command and each access of the host keeps what the state has reached. -/
theorem usedNullifiersStayUsed : Obligations.UsedNullifiersStayUsed := by
  intro s t h hreset
  obtain ⟨hnset, hnow, hnext⟩ := step_grows h hreset
  exact ⟨fun n hn => hnset hn, hnow, hnext⟩

end Sys2Proof.Machine
end

section
/-! PROOFS, 70_reset_and_hazards.md: the reset (R370) and the command it abandons (R372). -/

namespace Sys2Proof.Machine

/-- A reset that is next is the whole step: no engine turn comes first, so a command in flight neither completes nor
faults (R372). -/
theorem step_of_reset (s : State) (rest : List Event) (h : s.agenda = .reset :: rest) :
    step s = .next (platformReset { s with agenda := rest }) := by rw [step, h]

theorem platformReset_tree (s : State) (k : TreeId) : (platformReset s).tree k = Tree.reset :=
  tree_eq_reset rfl rfl rfl k

theorem reset_hist_getElem (n : Fin 256) : Tree.reset.hist[n.val] = none := Vector.getElem_replicate n.isLt

/-- Settles O55: the step is the reset alone, each register of the reset state is at its value by definition, each tree is
the empty tree, and `zeroSubtree` is the sequence whose entry at TREE_HEIGHT is ZERO_ROOT (R41). -/
theorem resetRestoresEveryResetValue : Obligations.ResetRestoresEveryResetValue := by
  refine ⟨fun s rest hagenda => ?_, Config.zeroSubtree, rfl, fun _ => rfl, rfl⟩
  refine ⟨_, step_of_reset s rest hagenda, rfl, rfl, rfl, rfl, rfl, rfl, rfl, rfl, rfl, fun k => ?_⟩
  rw [platformReset_tree]
  exact ⟨rfl, rfl, rfl, rfl, rfl, rfl, fun _ => rfl, reset_hist_getElem⟩

end Sys2Proof.Machine
end
